-- ==== Sys2Proof/Word.lean ====
section
/-! DEFINITION. The units of the codec core: bytes, 32-bit header words, pixels. -/

namespace Sys2Proof

/-- One byte of a buffer, or one channel sample: "an unsigned 8-bit integer, 0 to 255" (R12, R60). -/
abbrev Byte := BitVec 8

/-- A header word: width and height are 32-bit unsigned (R36, R97). -/
abbrev Word32 := BitVec 32

/-- A pixel: "a record (r, g, b, a) of four samples" (R12, R22). Two pixels are equal when all four
samples are equal. How the samples lie inside 32 bits is not observable (R22). -/
structure Pixel where
  r : Byte
  g : Byte
  b : Byte
  a : Byte
deriving DecidableEq, Repr, Inhabited

/-- A slot number of the pixel cache, 0 to 63 (R29). -/
abbrev Slot := BitVec 6

/-- The pixel cache: an "ordered array of exactly 64 pixel slots" (R29). -/
abbrev Cache := Vector Pixel 64

end Sys2Proof
end

