-- ==== Sys2Proof/Config.lean ====
section
/-! DEFINITION. The constants the format fixes (R8) and the free values: what the spec leaves unspecified
while the machine goes on. A free value is an opaque constant, so nothing can be proved about it. -/

namespace Sys2Proof

/-- The two engines of the core (R5). -/
inductive EngineId where
  | enc
  | dec
deriving DecidableEq, Repr

namespace Config

/-- MAGIC, the bytes of "qoif" (R8, R9). PRESUMED, log 17: that the four characters are coded in ASCII
is general knowledge (93 G1), not the source's. -/
def magic : List Byte := [0x71, 0x6F, 0x69, 0x66]

/-- END_MARKER: seven 0x00 bytes, then one 0x01 byte (R8, R98). -/
def endMarker : List Byte := [0, 0, 0, 0, 0, 0, 0, 1]

/-- HEADER_LEN (R8). -/
abbrev headerLen : Nat := 14

/-- END_LEN (R8). -/
abbrev endLen : Nat := 8

/-- MAX_RUN: the largest run length one Run chunk carries (R8). -/
def maxRun : BitVec 6 := 62

/-- RUN_FIELD_MAX: the largest value of the Run chunk's field (R8). -/
def runFieldMax : BitVec 6 := 61

/-- PREV_INIT: the previous pixel at the start of a call (R8). -/
def prevInit : Pixel := ⟨0, 0, 0, 255⟩

/-- SLOT_INIT: every cache slot at the start of a call (R8). -/
def slotInit : Pixel := ⟨0, 0, 0, 0⟩

/-- ALPHA_DEFAULT: alpha of a pixel whose source has 3 channels (R8). -/
def alphaDefault : Byte := 255

/-- TAG_RGB, a full-byte tag (R8). -/
def tagRgb : Byte := 0xFE

/-- TAG_RGBA, a full-byte tag (R8). -/
def tagRgba : Byte := 0xFF

/-- The bias of the three DIFF fields (R8, R99). -/
def diffBias : Int := 2

/-- The bias of LUMA's green field (R8, R99). -/
def lumaGreenBias : Int := 32

/-- The bias of LUMA's two cross fields (R8, R99). -/
def lumaCrossBias : Int := 8

/-- The cache at the start of a call: every slot SLOT_INIT (R29, R146). -/
def cacheInit : Cache := Vector.replicate 64 slotInit

/-- Free values (log 1): the byte that stands at an offset of an engine's source buffer before anything
has written it. -/
opaque freeSource : EngineId → Nat → Byte

/-- Free values (log 5): the k-th unspecified byte of an engine. -/
opaque freeByte : EngineId → Nat → Byte

/-- Free values (log 5): the k-th unspecified 32-bit register value of an engine. -/
opaque freeWord : EngineId → Nat → Word32

/-- Free values (log 5): the k-th unspecified length or pointer of an engine. -/
opaque freeNat : EngineId → Nat → Nat

/-- Free values (log 5): the k-th unspecified run counter of an engine. -/
opaque freeRun : EngineId → Nat → BitVec 6

/-- Free values (log 5): the k-th unspecified pixel of an engine. -/
opaque freePixel : EngineId → Nat → Pixel

/-- Free values (log 5): the k-th unspecified cache contents of an engine. -/
opaque freeCache : EngineId → Nat → Cache

end Config

end Sys2Proof
end

