-- ==== Sys2Proof/Syntax.lean ====
section
/-! DEFINITION. The instructions: the six chunks and the two frames of the byte stream (R2, R91), one
constructor per row of spec/opcode_table.json, with the raw bit fields of the formats. -/

namespace Sys2Proof

/-- Where in the stream an encoding stands. Frames are found by position, chunks by their first byte
(R100, R104). -/
inductive Position where
  /-- stream offset 0 (R97) -/
  | header
  /-- the chunk region, offset 14 up to lim (R207) -/
  | chunk
  /-- the terminal 8 bytes (R98, R222) -/
  | trailer
deriving DecidableEq, Repr

/-- One chunk or frame of a stream. -/
inductive Instr where
  /-- RGB literal, format B3: three raw samples (R96). -/
  | rgb (r g b : Byte)
  /-- RGBA literal, format B4: four raw samples (R96). -/
  | rgba (r g b a : Byte)
  /-- INDEX, format T6: the cache slot (R93). -/
  | index (k : Slot)
  /-- DIFF, format D222: red, green, blue delta, each plus 2 (R94). -/
  | diff (fr fg fb : BitVec 2)
  /-- LUMA, format L644: green delta plus 32, the two cross deltas plus 8 (R95). -/
  | luma (fdg : BitVec 6) (frg fbg : BitVec 4)
  /-- RUN, format T6: the run length minus 1 (R93). -/
  | run (runf : BitVec 6)
  /-- HEADER, format HDR (R97). -/
  | header (width height : Word32) (channels colorspace : Byte)
  /-- END, format END: the fixed eight bytes (R98). -/
  | endMarker
deriving DecidableEq, Repr

namespace Instr

/-- Where the encoding of an instruction stands in a stream (R90). -/
def position : Instr → Position
  | .rgb _ _ _ => .chunk
  | .rgba _ _ _ _ => .chunk
  | .index _ => .chunk
  | .diff _ _ _ => .chunk
  | .luma _ _ _ => .chunk
  | .run _ => .chunk
  | .header _ _ _ _ => .header
  | .endMarker => .trailer

/-- The length in bytes of an instruction's format (R91). -/
def length : Instr → Nat
  | .rgb _ _ _ => 4
  | .rgba _ _ _ _ => 5
  | .index _ => 1
  | .diff _ _ _ => 1
  | .luma _ _ _ => 2
  | .run _ => 1
  | .header _ _ _ _ => 14
  | .endMarker => 8

end Instr

end Sys2Proof
end

