-- ==== Sys2Proof/WellFormed.lean ====
section
/-! DEFINITION. Which instructions have an encoding. -/

namespace Sys2Proof

/-- An instruction that has an encoding. The one operand with a range narrower than its field is
RUN's: `runf` is 0 to 61, since 0xFE and 0xFF are the literal tags and never RUN (R93, R101). A HEADER
with a channel count other than 3 or 4 has an encoding and is executed: it raises InvalidChannelCount
(R201, R254). -/
def Instr.WellFormed : Instr → Bool
  | .rgb _ _ _ => true
  | .rgba _ _ _ _ => true
  | .index _ => true
  | .diff _ _ _ => true
  | .luma _ _ _ => true
  | .run runf => runf ≤ Config.runFieldMax
  | .header _ _ _ _ => true
  | .endMarker => true

end Sys2Proof
end

