-- ==== Sys2Proof/Decode.lean ====
section
/-! DEFINITION. The decoder, from the bytes at a position of the stream to an instruction or a named
rejection, and the encoder, from the same tables (30_encoding.md). -/

namespace Sys2Proof

/-- Why bytes are no instruction. The three names are the errors that the position's rule raises:
R102 "The only encodings the decoder rejects are in the two frames", and a chunk cut short. -/
inductive Reject where
  /-- the first four bytes are not the magic (R121) -/
  | badMagic
  /-- fewer bytes than the header or the chunk declares (R121, R207) -/
  | truncated
  /-- the eight bytes are not the end marker (R222) -/
  | corruptEndMarker
deriving DecidableEq, Repr

/-! ## Byte order of the header words (R63) -/

/-- `be32(v)`: "the four bytes of the 32-bit unsigned v, most significant first" (R13). -/
def be32 (v : Word32) : List Byte :=
  [v.extractLsb' 24 8, v.extractLsb' 16 8, v.extractLsb' 8 8, v.extractLsb' 0 8]

/-- `unbe32(b0,b1,b2,b3)`: b0 * 2^24 + b1 * 2^16 + b2 * 2^8 + b3 (R13). -/
def unbe32 (b0 b1 b2 b3 : Byte) : Word32 :=
  BitVec.ofNat 32 (b0.toNat * 2 ^ 24 + b1.toNat * 2 ^ 16 + b2.toNat * 2 ^ 8 + b3.toNat)

/-! ## Decoding -/

/-- `b[7:6]`, the two-bit tag (R11). -/
def tagBits (b : Byte) : BitVec 2 := b.extractLsb' 6 2

/-- `b[5:0]`, the six-bit payload (R11). -/
def payload (b : Byte) : BitVec 6 := b.extractLsb' 0 6

/-- The length of a chunk, known from its first byte alone (R96, R100). -/
def chunkLength (b : Byte) : Nat :=
  if b = Config.tagRgb then 4
  else if b = Config.tagRgba then 5
  else if tagBits b = 0b10#2 then 2
  else 1

/-- The tag parser and the payload readings (R100, R208), on a first byte `b` and the bytes after it:
full-byte tags first, two-bit tags second (R101). -/
def decodeTag (b : Byte) (rest : List Byte) : Except Reject (Instr × List Byte) :=
  if b = Config.tagRgb then
    match rest with
    | r :: g :: bl :: rest' => .ok (.rgb r g bl, rest')
    | _ => .error .truncated
  else if b = Config.tagRgba then
    match rest with
    | r :: g :: bl :: a :: rest' => .ok (.rgba r g bl a, rest')
    | _ => .error .truncated
  else if tagBits b = 0b00#2 then .ok (.index (payload b), rest)
  else if tagBits b = 0b01#2 then
    .ok (.diff (b.extractLsb' 4 2) (b.extractLsb' 2 2) (b.extractLsb' 0 2), rest)
  else if tagBits b = 0b10#2 then
    match rest with
    | b2 :: rest' => .ok (.luma (payload b) (b2.extractLsb' 4 4) (b2.extractLsb' 0 4), rest')
    | _ => .error .truncated
  else .ok (.run (payload b), rest)

/-- The decoder at a chunk position (R207, R208). -/
def decodeChunk : List Byte → Except Reject (Instr × List Byte)
  | [] => .error .truncated
  | b :: rest => decodeTag b rest

/-- `deserialize_header`: the magic first when its four bytes are present, then the length
(R121, R122, R123). -/
def decodeHeader (bytes : List Byte) : Except Reject (Instr × List Byte) :=
  if 4 ≤ bytes.length ∧ bytes.take 4 ≠ Config.magic then .error .badMagic
  else
    match bytes with
    | _ :: _ :: _ :: _ :: w0 :: w1 :: w2 :: w3 :: h0 :: h1 :: h2 :: h3 :: c :: cs :: rest =>
      .ok (.header (unbe32 w0 w1 w2 w3) (unbe32 h0 h1 h2 h3) c cs, rest)
    | _ => .error .truncated

/-- The end marker test (R98, R222). -/
def decodeTrailer (bytes : List Byte) : Except Reject (Instr × List Byte) :=
  if bytes.take Config.endLen = Config.endMarker then .ok (.endMarker, bytes.drop Config.endLen)
  else .error .corruptEndMarker

/-- The decoder: the instruction at the front of `bytes`, which stand at the given position of the
stream, with the bytes after it; or why there is none. -/
def decode : Position → List Byte → Except Reject (Instr × List Byte)
  | .header, bytes => decodeHeader bytes
  | .chunk, bytes => decodeChunk bytes
  | .trailer, bytes => decodeTrailer bytes

/-! ## Encoding -/

/-- The bytes of an instruction (R93 to R98; the serializer R120 for HEADER). -/
def encode : Instr → List Byte
  | .rgb r g b => [Config.tagRgb, r, g, b]
  | .rgba r g b a => [Config.tagRgba, r, g, b, a]
  | .index k => [0b00#2 ++ k]
  | .diff fr fg fb => [0b01#2 ++ fr ++ fg ++ fb]
  | .luma fdg frg fbg => [0b10#2 ++ fdg, frg ++ fbg]
  | .run runf => [0b11#2 ++ runf]
  | .header w h c cs => Config.magic ++ be32 w ++ be32 h ++ [c, cs]
  | .endMarker => Config.endMarker

/-! ## The words of spec/opcode_table.json -/

/-- The `n` low bytes of `w`, the most significant first: "its bytes are joined into one bit string
with the first byte most significant" (R11; log 19). -/
def bytesOfWord : Nat → Nat → List Byte
  | 0, _ => []
  | n + 1, w => BitVec.ofNat 8 (w / 2 ^ (8 * n)) :: bytesOfWord n w

/-- Which position a table row of `nbits` bits is decoded at: HEADER is the only row of 112 bits and
END the only row of 64 (log 19). -/
def tablePosition (nbits : Nat) : Position :=
  if nbits = 112 then .header else if nbits = 64 then .trailer else .chunk

/-- The bytes of a table word as they lie in the stream, followed by zero bytes up to the longest
instruction (14 bytes). -/
def tableBytes (nbits w : Nat) : List Byte :=
  let bytes := bytesOfWord (nbits / 8) w
  bytes ++ List.replicate (Config.headerLen - bytes.length) 0

/-- The instruction this decoder reads from a word of the opcode table. -/
def decodeTableWord (nbits w : Nat) : Option Instr :=
  match decode (tablePosition nbits) (tableBytes nbits w) with
  | .ok (i, _) => some i
  | .error _ => none

end Sys2Proof
end

