-- ==== Sys2Proof/Machine/State.lean ====
section
/-! DEFINITION. The state of the core: two engines, each with its own registers, cache and buffers
(10_state.md), and what the outside world still does and has heard. All of it is plain data. -/

namespace Sys2Proof.Machine

/-- STATUS.PHASE (R34). -/
inductive Phase where
  /-- IDLE: no call started since reset -/
  | idle
  /-- PIXELS: start step done, pixel steps remain -/
  | pixels
  /-- END: all pixels done, end step remains -/
  | atEnd
  /-- DONE: call finished without error -/
  | done
  /-- ERROR: call stopped on an error -/
  | error
deriving DecidableEq, Repr

/-- The five error kinds (R250). They are values of STATUS.ERR, not stops of the machine. -/
inductive ErrorKind where
  | badMagic
  | truncated
  | corruptEndMarker
  | invalidChannelCount
  | pixelBufferSizeMismatch
deriving DecidableEq, Repr

/-- A buffer: the bytes that have been written, by offset, offsets strictly rising. What an offset that
is not listed holds is unspecified: a free value (log 1). -/
abbrev Memory := List Host.Cell

/-- The canonical form of a buffer: offsets strictly rising. (Whether an entry equals what an unlisted
offset holds cannot be told, since that is a free value.) -/
abbrev Memory.wf (m : Memory) : Prop := m.Pairwise (fun x y => x.1 < y.1)

/-- One engine: "one complete and private copy of the state" (R20). The same shape serves ENC and
DEC. -/
structure Engine where
  /-- STATUS.PHASE (R34) -/
  phase : Phase
  /-- STATUS.ERR, none is code 0 (R34) -/
  err : Option ErrorKind
  /-- register 2, E_WIDTH or D_WIDTH (R32, R35) -/
  width : Word32
  /-- register 3, E_HEIGHT or D_HEIGHT (R32, R35) -/
  height : Word32
  /-- register 4, E_CHANNELS or D_CHANNELS (R32, R35) -/
  channels : Byte
  /-- register 5, E_COLORSPACE or D_COLORSPACE (R32, R33, R35) -/
  colorspace : Byte
  /-- register 6, E_SRCLEN or D_SRCLEN; the L of the decoder's rules (R32, R35) -/
  srcLen : Nat
  /-- register 7, E_DSTLEN or D_DSTLEN (R32, R35) -/
  dstLen : Nat
  /-- pixel register `cur` (R22, R23) -/
  cur : Pixel
  /-- pixel register `prev` (R22, R24) -/
  prev : Pixel
  /-- the run counter (R25) -/
  run : BitVec 6
  /-- index of the pixel the next pixel step processes (R27) -/
  i : Nat
  /-- `N`, the pixel count of the call (R28) -/
  n : Nat
  /-- the read pointer (R27) -/
  rp : Nat
  /-- the write pointer (R27) -/
  wp : Nat
  /-- the pixel cache (R29) -/
  cache : Cache
  /-- E.SRC or D.SRC (R60) -/
  src : Memory
  /-- E.DST or D.DST (R60) -/
  dst : Memory
  /-- the model's own: how many free values this engine has drawn (log 5) -/
  fresh : Nat
deriving DecidableEq, Repr

/-- The eight host registers of an engine, by name (R32, R35). -/
inductive Reg where
  | ctrl
  | status
  | width
  | height
  | channels
  | colorspace
  | srcLen
  | dstLen
deriving DecidableEq, Repr

/-- What the host can do (R5, R31, R60, R290). -/
inductive HostOp where
  /-- write a register of an engine -/
  | writeReg (e : EngineId) (r : Reg) (v : Nat)
  /-- read a register of an engine -/
  | readReg (e : EngineId) (r : Reg)
  /-- place bytes in an engine's source buffer from an offset on -/
  | placeSrc (e : EngineId) (off : Nat) (bytes : List Byte)
  /-- read one byte of an engine's destination buffer -/
  | readDst (e : EngineId) (off : Nat)
  /-- assert an engine's reset input -/
  | assertReset (e : EngineId)
deriving DecidableEq, Repr

/-- One move: which of the three agents of R5 moves, and what the host does if it is the host. -/
inductive Move where
  | host (op : HostOp)
  | engine (e : EngineId)
deriving DecidableEq, Repr

/-- The core and its surroundings. -/
structure State where
  /-- the encoder engine -/
  enc : Engine
  /-- the decoder engine -/
  dec : Engine
  /-- the model's own: the moves still to come, the next one first (log 3) -/
  agenda : List Move
  /-- the model's own: what the host's reads have returned, newest first (log 4) -/
  heard : List Nat
deriving DecidableEq, Repr

/-- Why the machine stops with a fault: never. The spec's five errors are next states (R260), and
"There is no other fault" (R250), so this type has no constructor. -/
inductive Fault where
deriving DecidableEq, Repr

/-- Why the model has no next state. -/
inductive Refusal where
  /-- Raised by an arm of `exec` that has no meaning. No arm does. Safe. -/
  | notModelled (mnemonic : String)
  /-- Raised by the host move that writes a source buffer while its engine is in PIXELS or END: "the
  model has no such host move" (R75, 93 U7 "refuse"). Unsafe only for a host that breaks its duty
  (log 9). -/
  | sourceWriteDuringCall (e : EngineId)
deriving DecidableEq, Repr

/-- An engine right after reset: PHASE = IDLE and ERR = 0 (R39, R290). The spec gives no other value;
DESIGN CHOICE, log 2: zero for every register and slot, and buffers nothing has written. -/
def Engine.reset : Engine where
  phase := .idle
  err := none
  width := 0
  height := 0
  channels := 0
  colorspace := 0
  srcLen := 0
  dstLen := 0
  cur := ⟨0, 0, 0, 0⟩
  prev := ⟨0, 0, 0, 0⟩
  run := 0
  i := 0
  n := 0
  rp := 0
  wp := 0
  cache := Vector.replicate 64 ⟨0, 0, 0, 0⟩
  src := []
  dst := []
  fresh := 0

/-- The core right after power-on: both engines reset, no move to come, nothing heard (log 3, 4). -/
def State.reset : State where
  enc := Engine.reset
  dec := Engine.reset
  agenda := []
  heard := []

end Sys2Proof.Machine
end

