-- ==== Sys2Proof/Machine/Operands.lean ====
section
/-! DEFINITION. Operand forms: what a field of a chunk stands for, the differences of two pixels, the
sums of the reconstructor, and the samples of a pixel. -/

namespace Sys2Proof.Machine

/-- The delta a biased field stands for: "read unsigned and the bias is subtracted in integer
arithmetic" (R99). -/
def unbias {w : Nat} (field : BitVec w) (bias : Int) : Int := (field.toNat : Int) - bias

/-- The field that holds a delta: `delta + bias` as an unsigned number (R99). -/
def biased (w : Nat) (delta bias : Int) : BitVec w := BitVec.ofInt w (delta + bias)

/-- A channel sum of the reconstructor, taken mod 256 (R219). -/
def addDelta (sample : Byte) (delta : Int) : Byte := BitVec.ofInt 8 ((sample.toNat : Int) + delta)

/-- `prev` with three deltas added, alpha unchanged (R213, R214). -/
def shifted (p : Pixel) (dr dg db : Int) : Pixel :=
  ⟨addDelta p.r dr, addDelta p.g dg, addDelta p.b db, p.a⟩

/-- A channel delta of the differencer: exact, in [-255, 255], no wraparound (R168). -/
def delta (cur prev : Byte) : Int := (cur.toNat : Int) - (prev.toNat : Int)

/-- The five signed integers of the pixel differencer (R168). -/
structure Deltas where
  dr : Int
  dg : Int
  db : Int
  drg : Int
  dbg : Int
deriving DecidableEq, Repr

/-- The pixel differencer (R168). -/
def differences (cur prev : Pixel) : Deltas :=
  let dr := delta cur.r prev.r
  let dg := delta cur.g prev.g
  let db := delta cur.b prev.b
  ⟨dr, dg, db, dr - dg, db - dg⟩

/-- The four samples of a pixel in the order red, green, blue, alpha (R65). -/
def samples (p : Pixel) : List Byte := [p.r, p.g, p.b, p.a]

/-- `lim = D.SRCLEN - 8`: the end of the chunk region (R13, R207). A length below 8 has no chunk
region: `lim` is 0 and every take fails, as it does with the negative number. -/
def Engine.lim (e : Engine) : Nat := e.srcLen - Config.endLen

end Sys2Proof.Machine
end

