-- ==== Sys2Proof/Machine/Flags.lean ====
section
/-! DEFINITION. Predicates and status. The core has no condition codes: every comparison is computed and
consumed inside one step (R26). What is here: those comparisons, the two predicates on `run`, and
the STATUS register. -/

namespace Sys2Proof.Machine

/-- Channel counts the engines accept: 3 and 4 (R254). -/
def validChannels (c : Byte) : Bool := c = 3 || c = 4

/-- `small`: each delta within [-2, 1] (R168). -/
def Deltas.small (d : Deltas) : Bool :=
  (-2 ≤ d.dr && d.dr ≤ 1) && (-2 ≤ d.dg && d.dg ≤ 1) && (-2 ≤ d.db && d.db ≤ 1)

/-- `medium`: green delta within [-32, 31], both cross deltas within [-8, 7] (R168). -/
def Deltas.medium (d : Deltas) : Bool :=
  (-32 ≤ d.dg && d.dg ≤ 31) && (-8 ≤ d.drg && d.drg ≤ 7) && (-8 ≤ d.dbg && d.dbg ≤ 7)

/-- A call is under way: PHASE is PIXELS or END (R32, R75). -/
def Phase.running : Phase → Bool
  | .idle => false
  | .pixels => true
  | .atEnd => true
  | .done => false
  | .error => false

/-- The PHASE code of STATUS bits 2:0 (R34). -/
def Phase.code : Phase → Nat
  | .idle => 0
  | .pixels => 1
  | .atEnd => 2
  | .done => 3
  | .error => 4

/-- The ERR code of STATUS bits 5:3 (R34, R256). -/
def ErrorKind.code : ErrorKind → Nat
  | .badMagic => 1
  | .truncated => 2
  | .corruptEndMarker => 3
  | .invalidChannelCount => 4
  | .pixelBufferSizeMismatch => 5

/-- The ERR field of an engine, 0 when there is no error (R34). -/
def errCode : Option ErrorKind → Nat
  | none => 0
  | some k => k.code

/-- The STATUS register: PHASE in bits 2:0, ERR in bits 5:3, bits 7:6 zero (R34). -/
def Engine.status (e : Engine) : Byte :=
  0b00#2 ++ BitVec.ofNat 3 (errCode e.err) ++ BitVec.ofNat 3 e.phase.code

/-- `InRun`: `run > 0` while PHASE is PIXELS (R26). -/
def Engine.inRun (e : Engine) : Bool := e.phase = .pixels && e.run ≠ 0

/-- `AwaitingPixel`: `run = 0` while PHASE is PIXELS (R26). -/
def Engine.awaitingPixel (e : Engine) : Bool := e.phase = .pixels && e.run = 0

/-- The pixel the present step processes is the last of the image: `i = N - 1` (R164). -/
def Engine.atLast (e : Engine) : Bool := e.i + 1 = e.n

end Sys2Proof.Machine
end

