-- ==== Sys2Proof/Machine/Ops.lean ====
section
/-! DEFINITION. The named operations every meaning is built from: reads and writes of a buffer, the two
engines of a state, the cache, the start of a call, the raising of an error, and the tail that every
pixel step ends with. -/

namespace Sys2Proof.Machine

/-! ## Buffers -/

/-- The byte at an offset of a buffer, if one has been written (R60). -/
def Memory.read : Memory → Nat → Option Byte
  | [], _ => none
  | (k, b) :: m, off => if off = k then some b else Memory.read m off

/-- Write one byte at an offset; the offsets stay strictly rising. -/
def Memory.write : Memory → Nat → Byte → Memory
  | [], off, b => [(off, b)]
  | (k, v) :: m, off, b =>
    if off < k then (off, b) :: (k, v) :: m
    else if off = k then (off, b) :: m
    else (k, v) :: Memory.write m off b

/-- The n bytes at offsets a .. a+n-1, in increasing offset order, if all of them have been written. -/
def Memory.readList (m : Memory) : Nat → Nat → Option (List Byte)
  | _, 0 => some []
  | off, n + 1 =>
    match Memory.read m off, Memory.readList m (off + 1) n with
    | some b, some bs => some (b :: bs)
    | _, _ => none

/-- `MemWrite(S:a, n, v)`: the bytes of `v` at offsets a .. a+n-1, in increasing offset order (R13). -/
def Memory.writeList : Memory → Nat → List Byte → Memory
  | m, _, [] => m
  | m, off, b :: bs => Memory.writeList (Memory.write m off b) (off + 1) bs

/-- The byte an engine reads at an offset of its source buffer: the byte written there, or, where
nothing has been written, the unspecified byte that stands there (R60, log 1). A read never stops the
engine: "There is no other fault" (R250). -/
def Engine.srcByte (e : Engine) (id : EngineId) (off : Nat) : Byte :=
  (Memory.read e.src off).getD (Config.freeSource id off)

/-- `MemRead(S:a, n)` of a source buffer: the n bytes at offsets a .. a+n-1 as a list, in increasing
offset order (R13). -/
def Engine.srcBytes (e : Engine) (id : EngineId) : Nat → Nat → List Byte
  | _, 0 => []
  | off, n + 1 => e.srcByte id off :: Engine.srcBytes e id (off + 1) n

/-! ## The two engines of a state (R20) -/

/-- The engine of a given name. -/
def State.engine (s : State) : EngineId → Engine
  | .enc => s.enc
  | .dec => s.dec

/-- The state with the decoder replaced. -/
def State.setDec (s : State) (d : Engine) : State := { s with dec := d }

/-- The state with the encoder replaced. -/
def State.setEnc (s : State) (e : Engine) : State := { s with enc := e }

/-- The state with the engine of a given name replaced. -/
def State.setEngine (s : State) : EngineId → Engine → State
  | .enc, e => s.setEnc e
  | .dec, d => s.setDec d

/-! ## The pixel cache (41_pixel_cache.md) -/

/-- `hash(p) = (r*3 + g*5 + b*7 + a*11) mod 64` (R140). -/
def pixelHash (p : Pixel) : Slot :=
  BitVec.ofNat 6 (p.r.toNat * 3 + p.g.toNat * 5 + p.b.toNat * 7 + p.a.toNat * 11)

/-- `lookup(k) = cache[k]` (R143). -/
def cacheLookup (c : Cache) (k : Slot) : Pixel := c.get ⟨k.toNat, k.isLt⟩

/-- `store(k, p): cache[k] <- p` and no other slot (R144). -/
def cacheStore (c : Cache) (k : Slot) (p : Pixel) : Cache := c.set k.toNat p k.isLt

/-- `cache[hash(cur)] <- cur`: "a pixel is never stored at an index other than its own hash" (R144,
R173, R216). -/
def Engine.remember (e : Engine) (p : Pixel) : Engine :=
  { e with cache := cacheStore e.cache (pixelHash p) p }

/-! ## Errors (60_exceptions.md) -/

/-- `raise E`: STATUS.ERR <- code(E), STATUS.PHASE <- ERROR, "and nothing else" (R260). There is no
handler, no vector and no saved state. A write that the step's listing makes before the raise has been
made (R13: `take(1)` has moved `rp`, log 8; R161 has set `N`, log 21); every other field is as the last
step left it (log 21). -/
def Engine.raise (e : Engine) (k : ErrorKind) : Engine := { e with phase := .error, err := some k }

/-- Whether the host's START acts: PHASE is IDLE, DONE or ERROR. A START from ERROR is the return from
an error (R265): "the start step then runs from PHASE = ERROR exactly as from IDLE or DONE". -/
def Engine.startable (e : Engine) : Bool := !e.phase.running

/-- The error a rejected encoding raises (R102). -/
def rejectError : Reject → ErrorKind
  | .badMagic => .badMagic
  | .truncated => .truncated
  | .corruptEndMarker => .corruptEndMarker

/-! ## The start of a call (R45) -/

/-- The state a start step leaves that raises no error: cache, `prev`, `run`, `i`, `N`, pointers,
PHASE and ERR at their start-of-call values (R45, R161, R201). `cur` is "unspecified until the first
pixel step loads it": a free value (log 6). -/
def Engine.beginCall (e : Engine) (id : EngineId) (n rp : Nat) : Engine :=
  { e with
    cache := Config.cacheInit
    prev := Config.prevInit
    run := 0
    cur := Config.freePixel id e.fresh
    fresh := e.fresh + 1
    i := 0
    n := n
    rp := rp
    wp := 0
    phase := if 0 < n then .pixels else .atEnd
    err := none }

/-! ## Steps of the decoder -/

/-- `rp <- rp + n`, the pointer part of `take(n)` (R13, R207). -/
def Engine.advance (e : Engine) (n : Nat) : Engine := { e with rp := e.rp + n }

/-- `out(p)`: "write the first CHANNELS samples of pixel p to D.DST at wp in the order r, g, b, a and
add CHANNELS to wp" (R13, R218). -/
def Engine.out (e : Engine) (p : Pixel) : Engine :=
  { e with
    dst := Memory.writeList e.dst e.wp ((samples p).take e.channels.toNat)
    wp := e.wp + e.channels.toNat }

/-- `i <- i + 1; if i = N then PHASE <- END` (R204, R220). -/
def Engine.nextPixel (e : Engine) : Engine :=
  { e with i := e.i + 1, phase := if e.i + 1 = e.n then .atEnd else e.phase }

/-- The tail of every decoder pixel step: `cur` is the reconstructed pixel, `prev <- cur`, `out(cur)`,
`i <- i + 1`, PHASE (R204, R205, R217, R218, R220). -/
def Engine.produce (e : Engine) (p : Pixel) : Engine :=
  (Engine.out { e with cur := p, prev := p } p).nextPixel

/-- A decoder pixel step of the non-run, non-index path: the chunk's bytes are taken, the pixel is
stored in the cache at its hash, and the step's tail follows (R210, R211, R213, R214, R216). -/
def Engine.produceCoded (e : Engine) (len : Nat) (p : Pixel) : Engine :=
  ((e.advance len).remember p).produce p

/-! ## Steps of the encoder -/

/-- `emit(b0, b1, ...)`: `MemWrite(E.DST:wp, k, bytes); wp <- wp + k` (R13). -/
def Engine.emitBytes (e : Engine) (bytes : List Byte) : Engine :=
  { e with dst := Memory.writeList e.dst e.wp bytes, wp := e.wp + bytes.length }

/-- The byte packer: emit one chunk or frame (R166, R167, R169 to R172, R175). -/
def Engine.emit (e : Engine) (i : Instr) : Engine := e.emitBytes (encode i)

/-! ## Reset of one engine -/

/-- The reset input of an engine (R290): PHASE = IDLE, ERR = 0, "every other register and every cache
slot holds an unspecified value": free values (log 15). The source buffer keeps its bytes. -/
def Engine.assertReset (e : Engine) (id : EngineId) : Engine :=
  { e with
    phase := .idle
    err := none
    width := Config.freeWord id e.fresh
    height := Config.freeWord id (e.fresh + 1)
    channels := Config.freeByte id e.fresh
    colorspace := Config.freeByte id (e.fresh + 1)
    srcLen := Config.freeNat id e.fresh
    dstLen := Config.freeNat id (e.fresh + 1)
    i := Config.freeNat id (e.fresh + 2)
    n := Config.freeNat id (e.fresh + 3)
    rp := Config.freeNat id (e.fresh + 4)
    wp := Config.freeNat id (e.fresh + 5)
    cur := Config.freePixel id e.fresh
    prev := Config.freePixel id (e.fresh + 1)
    run := Config.freeRun id e.fresh
    cache := Config.freeCache id e.fresh
    fresh := e.fresh + 6 }

end Sys2Proof.Machine
end

