-- ==== Sys2Proof/Machine/Differences.lean ====
section
/-! DEFINITION. DIFF and LUMA, executed by the decoder (the pixel reconstructor). -/

namespace Sys2Proof.Machine

/-- DIFF (R213): each field minus 2 is added to a channel of `prev`, mod 256; alpha unchanged;
stored. -/
def execDiff (fr fg fb : BitVec 2) (s : State) : Host.Outcome State Fault Refusal :=
  .next (s.setDec (s.dec.produceCoded 1
    (shifted s.dec.prev (unbias fr Config.diffBias) (unbias fg Config.diffBias)
      (unbias fb Config.diffBias))))

/-- LUMA (R214): green delta `fdg - 32`; red and blue deltas are their cross delta (field minus 8)
plus the green delta; sums mod 256; alpha unchanged; stored. -/
def execLuma (fdg : BitVec 6) (frg fbg : BitVec 4) (s : State) : Host.Outcome State Fault Refusal :=
  let dg := unbias fdg Config.lumaGreenBias
  let drg := unbias frg Config.lumaCrossBias
  let dbg := unbias fbg Config.lumaCrossBias
  .next (s.setDec (s.dec.produceCoded 2 (shifted s.dec.prev (drg + dg) dg (dbg + dg))))

end Sys2Proof.Machine
end

