-- ==== Sys2Proof/Machine/Frames.lean ====
section
/-! DEFINITION. HEADER and END, executed by the decoder: its start step after the parse, and its end step
after the marker is found right. -/

namespace Sys2Proof.Machine

/-- HEADER (R201, after the parse of R121): InvalidChannelCount, then Truncated for L < 22, else the
four result registers and the start-of-call values with `rp` = 14. -/
def execHeader (w h : Word32) (c cs : Byte) (s : State) : Host.Outcome State Fault Refusal :=
  if !validChannels c then .next (s.setDec (s.dec.raise .invalidChannelCount))
  else if s.dec.srcLen < Config.headerLen + Config.endLen then
    .next (s.setDec (s.dec.raise .truncated))
  else
    .next (s.setDec (Engine.beginCall
      { s.dec with width := w, height := h, channels := c, colorspace := cs }
      .dec (w.toNat * h.toNat) Config.headerLen))

/-- END (R222, after the marker test): `D_DSTLEN <- wp; PHASE <- DONE`. -/
def execEndMarker (s : State) : Host.Outcome State Fault Refusal :=
  .next (s.setDec { s.dec with dstLen := s.dec.wp, phase := .done })

end Sys2Proof.Machine
end

