-- ==== Sys2Proof/Machine/Literals.lean ====
section
/-! DEFINITION. RGB and RGBA, executed by the decoder. -/

namespace Sys2Proof.Machine

/-- RGB (R210): `cur <- (r, g, b, prev.a)`; stored. The alpha is the previous pixel's. -/
def execRgb (r g b : Byte) (s : State) : Host.Outcome State Fault Refusal :=
  .next (s.setDec (s.dec.produceCoded 4 ⟨r, g, b, s.dec.prev.a⟩))

/-- RGBA (R211): `cur <- (r, g, b, a)`; stored. Executed in full whatever D_CHANNELS is. -/
def execRgba (r g b a : Byte) (s : State) : Host.Outcome State Fault Refusal :=
  .next (s.setDec (s.dec.produceCoded 5 ⟨r, g, b, a⟩))

end Sys2Proof.Machine
end

