-- ==== Sys2Proof/Machine/Repeats.lean ====
section
/-! DEFINITION. INDEX and RUN, executed by the decoder, and the run expander. None of them stores to the
cache (R147). -/

namespace Sys2Proof.Machine

/-- INDEX (R212): `cur <- cache[k]`. -/
def execIndex (k : Slot) (s : State) : Host.Outcome State Fault Refusal :=
  .next (s.setDec ((s.dec.advance 1).produce (cacheLookup s.dec.cache k)))

/-- RUN (R215): `cur <- prev; run <- runf`, the pixels still owed after this one. -/
def execRun (runf : BitVec 6) (s : State) : Host.Outcome State Fault Refusal :=
  .next (s.setDec (Engine.produce { s.dec.advance 1 with run := runf } s.dec.prev))

/-- The run expander (R206): a pixel step with `run > 0` takes no byte, decrements `run` and repeats
`prev`. -/
def Engine.expandRun (e : Engine) : Engine := Engine.produce { e with run := e.run - 1 } e.prev

end Sys2Proof.Machine
end

