-- ==== Sys2Proof/Machine/Decoder.lean ====
section
/-! DEFINITION. The decoder engine DEC: how its three kinds of step find their instruction in D.SRC
(the byte unpacker, R207) and run it. -/

namespace Sys2Proof.Machine

/-- What a fetch finds. -/
inductive Fetched where
  /-- an instruction -/
  | instr (i : Instr)
  /-- an error, raised after `taken` bytes have been taken -/
  | raises (k : ErrorKind) (taken : Nat)
deriving DecidableEq, Repr

/-- Decode bytes at a position; a rejection raises its error. -/
def fetchedOf (p : Position) (bytes : List Byte) : Fetched :=
  match decode p bytes with
  | .ok (i, _) => .instr i
  | .error r => .raises (rejectError r) 0

/-- Fetch of the start step (R121): the magic when L >= 4, then the length, then the fields. -/
def Engine.fetchHeader (e : Engine) : Fetched :=
  if e.srcLen < 4 then .raises .truncated 0
  else if e.srcBytes .dec 0 4 ≠ Config.magic then .raises .badMagic 0
  else if e.srcLen < Config.headerLen then .raises .truncated 0
  else fetchedOf .header (e.srcBytes .dec 0 Config.headerLen)

/-- Fetch of a pixel step (R207): "A chunk is taken as its first byte and then, once the first byte has
told its length, its payload bytes"; bytes are taken only below `lim`. When the payload would cross
`lim` the tag byte has been taken (R13, log 8). -/
def Engine.fetchChunk (e : Engine) : Fetched :=
  if e.rp + 1 > e.lim then .raises .truncated 0
  else
    let len := chunkLength (e.srcByte .dec e.rp)
    if e.rp + len > e.lim then .raises .truncated 1
    else fetchedOf .chunk (e.srcBytes .dec e.rp len)

/-- Fetch of the end step (R222): the terminal 8 bytes, offsets L - 8 to L - 1. -/
def Engine.fetchTrailer (e : Engine) : Fetched :=
  fetchedOf .trailer (e.srcBytes .dec e.lim Config.endLen)

/-- Run what a fetch of the decoder found: execute the instruction, or take the bytes that were taken
and raise the error, which changes nothing but STATUS (R260). -/
def runFetched (f : Fetched) (s : State) : Host.Outcome State Fault Refusal :=
  match f with
  | .instr i => exec i s
  | .raises k taken => .next (s.setDec ((s.dec.advance taken).raise k))

/-- The decoder's start step (R201). -/
def decStart (s : State) : Host.Outcome State Fault Refusal := runFetched s.dec.fetchHeader s

/-- The decoder's own steps: a pixel step in PIXELS (R204), the end step in END (R222), nothing in
IDLE, DONE and ERROR (R260, R282). -/
def decMove (s : State) : Host.Outcome State Fault Refusal :=
  match s.dec.phase with
  | .pixels =>
    if s.dec.run ≠ 0 then .next (s.setDec s.dec.expandRun)
    else runFetched s.dec.fetchChunk s
  | .atEnd => runFetched s.dec.fetchTrailer s
  | .idle => .next s
  | .done => .next s
  | .error => .next s

end Sys2Proof.Machine
end

