-- ==== Sys2Proof/Machine/Encoder.lean ====
section
/-! DEFINITION. The encoder engine ENC (42_encoder.md): start step, pixel step (pixel fetch, run-length
counter, tag selector, byte packer), end step. -/

namespace Sys2Proof.Machine

/-- ENC start (R161): InvalidChannelCount, then `N`, then PixelBufferSizeMismatch, else the
start-of-call values and the header. -/
def Engine.encStart (e : Engine) : Engine :=
  let n := e.width.toNat * e.height.toNat
  if !validChannels e.channels then e.raise .invalidChannelCount
  else if e.srcLen ≠ n * e.channels.toNat then
    Engine.raise { e with n := n } .pixelBufferSizeMismatch
  else
    (e.beginCall .enc n 0).emit (.header e.width e.height e.channels e.colorspace)

/-- Pixel fetch (R163): CHANNELS samples of E.SRC at `rp`; alpha 255 when CHANNELS is not 4. -/
def Engine.fetchPixel (e : Engine) : Pixel :=
  ⟨e.srcByte .enc e.rp, e.srcByte .enc (e.rp + 1), e.srcByte .enc (e.rp + 2),
    if e.channels = 4 then e.srcByte .enc (e.rp + 3) else Config.alphaDefault⟩

/-- RUN, emit, the flush (R166): `emit(0xC0 | (run - 1)); run <- 0`. -/
def Engine.flush (e : Engine) : Engine := { e.emit (.run (e.run - 1)) with run := 0 }

/-- INDEX, emit (R167): byte = k. -/
def indexChunk (k : Slot) : Instr := .index k

/-- DIFF, emit (R169): each delta biased by +2. -/
def diffChunk (d : Deltas) : Instr :=
  .diff (biased 2 d.dr Config.diffBias) (biased 2 d.dg Config.diffBias)
    (biased 2 d.db Config.diffBias)

/-- LUMA, emit (R170): green delta biased by +32, cross deltas biased by +8. -/
def lumaChunk (d : Deltas) : Instr :=
  .luma (biased 6 d.dg Config.lumaGreenBias) (biased 4 d.drg Config.lumaCrossBias)
    (biased 4 d.dbg Config.lumaCrossBias)

/-- RGB, emit (R171). -/
def rgbChunk (cur : Pixel) : Instr := .rgb cur.r cur.g cur.b

/-- RGBA, emit (R172). -/
def rgbaChunk (cur : Pixel) : Instr := .rgba cur.r cur.g cur.b cur.a

/-- Cases 3 to 6 of the tag selector, on a cache miss (R164): DIFF, LUMA, RGB, RGBA, first match
wins. -/
def missChunk (cur prev : Pixel) : Instr :=
  let d := differences cur prev
  if cur.a = prev.a then
    if d.small then diffChunk d
    else if d.medium then lumaChunk d
    else rgbChunk cur
  else rgbaChunk cur

/-- The pixel `cur` hits: `lookup(hash(cur)) = cur`, all four channels (R145). -/
def Engine.hits (e : Engine) (cur : Pixel) : Bool := cacheLookup e.cache (pixelHash cur) = cur

/-- Case 1 of the tag selector (R165): `run + 1`, flushed at 62 or at the last pixel. -/
def Engine.extendRun (e : Engine) : Engine :=
  let e' := { e with run := e.run + 1 }
  if e'.run = Config.maxRun ∨ e.atLast then e'.flush else e'

/-- Cases 2 to 6 of the tag selector (R164): a pending run is flushed first; INDEX on a hit, with no
store; else the chunk of the miss and the store (R173); then `prev <- cur` (R174). The differences
use `prev` from before the update. -/
def Engine.codePixel (e : Engine) (cur : Pixel) : Engine :=
  let e' := if e.run ≠ 0 then e.flush else e
  let coded :=
    if e'.hits cur then e'.emit (indexChunk (pixelHash cur))
    else (e'.emit (missChunk cur e'.prev)).remember cur
  { coded with prev := cur }

/-- One pixel step on the fetched pixel (R163, R164). -/
def Engine.encodePixel (e : Engine) (cur : Pixel) : Engine :=
  let e' := { e with cur := cur, rp := e.rp + e.channels.toNat }
  Engine.nextPixel (if cur = e.prev then e'.extendRun else e'.codePixel cur)

/-- ENC end (R175): the end marker, `E_DSTLEN <- wp`, PHASE <- DONE. -/
def Engine.encEnd (e : Engine) : Engine :=
  let e' := e.emit .endMarker
  { e' with dstLen := e'.wp, phase := .done }

/-- The encoder's start step. -/
def encStartMove (s : State) : Host.Outcome State Fault Refusal := .next (s.setEnc s.enc.encStart)

/-- The encoder's own steps: a pixel step in PIXELS, the end step in END, nothing in IDLE, DONE and
ERROR (R164, R175, R282). -/
def encMove (s : State) : Host.Outcome State Fault Refusal :=
  match s.enc.phase with
  | .pixels => .next (s.setEnc (s.enc.encodePixel s.enc.fetchPixel))
  | .atEnd => .next (s.setEnc s.enc.encEnd)
  | .idle => .next s
  | .done => .next s
  | .error => .next s

end Sys2Proof.Machine
end

