-- ==== Sys2Proof/Machine/HostPort.lean ====
section
/-! DEFINITION. The host's side of the core: the eight registers of each engine (10_state.md R31 to R35),
the buffers as the host reaches them (20_memory.md R60), the reset input, and the choice of who moves
when the agenda is empty. -/

namespace Sys2Proof.Machine

/-- The register numbers of R32 and R35: identifiers, not addresses (R31). -/
def Reg.number : Reg → Nat
  | .ctrl => 0
  | .status => 1
  | .width => 2
  | .height => 3
  | .channels => 4
  | .colorspace => 5
  | .srcLen => 6
  | .dstLen => 7

/-- Which parameter registers of an engine the host may write (R32, R35). CTRL is written too, but
holds nothing. -/
def writable : EngineId → Reg → Bool
  | .enc, .width => true
  | .enc, .height => true
  | .enc, .channels => true
  | .enc, .colorspace => true
  | .enc, .srcLen => true
  | .dec, .srcLen => true
  | _, _ => false

/-- A parameter register takes the low bits of the written value that it has room for (log 12). -/
def Engine.setReg (e : Engine) (r : Reg) (v : Nat) : Engine :=
  match r with
  | .width => { e with width := BitVec.ofNat 32 v }
  | .height => { e with height := BitVec.ofNat 32 v }
  | .channels => { e with channels := BitVec.ofNat 8 v }
  | .colorspace => { e with colorspace := BitVec.ofNat 8 v }
  | .srcLen => { e with srcLen := v }
  | .ctrl => e
  | .status => e
  | .dstLen => e

/-- The start step of an engine (R161, R201). -/
def startMove (id : EngineId) (s : State) : Host.Outcome State Fault Refusal :=
  match id with
  | .enc => encStartMove s
  | .dec => decStart s

/-- A host write of a register (R31, R32, R35): bit 0 of CTRL is START, which acts unless PHASE is
PIXELS or END; a parameter write during PIXELS or END is ignored; a write to a read-only register is
ignored. -/
def hostWrite (id : EngineId) (r : Reg) (v : Nat) (s : State) : Host.Outcome State Fault Refusal :=
  match r with
  | .ctrl => if v % 2 = 1 ∧ (s.engine id).startable then startMove id s else .next s
  | r =>
    if writable id r ∧ ¬ (s.engine id).phase.running then
      .next (s.setEngine id ((s.engine id).setReg r v))
    else .next s

/-- Whether a register holds a result, "meaningful only while PHASE = DONE" (R32, R35). -/
def isResult : EngineId → Reg → Bool
  | .enc, .dstLen => true
  | .dec, .width => true
  | .dec, .height => true
  | .dec, .channels => true
  | .dec, .colorspace => true
  | .dec, .dstLen => true
  | _, _ => false

/-- What a register holds, as the host reads it: CTRL reads 0 (R31, R32). -/
def Engine.regValue (e : Engine) : Reg → Nat
  | .ctrl => 0
  | .status => e.status.toNat
  | .width => e.width.toNat
  | .height => e.height.toNat
  | .channels => e.channels.toNat
  | .colorspace => e.colorspace.toNat
  | .srcLen => e.srcLen
  | .dstLen => e.dstLen

/-- The value a read of a result register returns while it is not meaningful: a free value of the
register's width (R261, R35, log 7). -/
def freeReg (id : EngineId) (k : Nat) : Reg → Nat
  | .width => (Config.freeWord id k).toNat
  | .height => (Config.freeWord id k).toNat
  | .channels => (Config.freeByte id k).toNat
  | .colorspace => (Config.freeByte id k).toNat
  | .ctrl => 0
  | .status => (Config.freeByte id k).toNat
  | .srcLen => Config.freeNat id k
  | .dstLen => Config.freeNat id k

/-- A read returns a value to the host. -/
def State.hear (s : State) (v : Nat) : State := { s with heard := v :: s.heard }

/-- The engine with one more free value drawn (log 5). -/
def Engine.draw (e : Engine) : Engine := { e with fresh := e.fresh + 1 }

/-- A host read of a register (R31, R32, R35). -/
def hostRead (id : EngineId) (r : Reg) (s : State) : State :=
  let e := s.engine id
  if isResult id r ∧ e.phase ≠ .done then (s.setEngine id e.draw).hear (freeReg id e.fresh r)
  else s.hear (e.regValue r)

/-- A host read of one byte of a destination buffer (R60, R75): the byte, when PHASE is DONE and the
offset is below DSTLEN; else a free value (R261, log 7). -/
def hostReadDst (id : EngineId) (off : Nat) (s : State) : State :=
  let e := s.engine id
  match (if e.phase = .done ∧ off < e.dstLen then Memory.read e.dst off else none) with
  | some b => s.hear b.toNat
  | none => (s.setEngine id e.draw).hear (Config.freeByte id e.fresh).toNat

/-- The host places bytes in a source buffer, unless that engine is in PIXELS or END (R60, R75; 93 U7:
the model has no such move, log 9). -/
def hostPlace (id : EngineId) (off : Nat) (bytes : List Byte) (s : State) :
    Host.Outcome State Fault Refusal :=
  let e := s.engine id
  if e.phase.running then .refused (.sourceWriteDuringCall id)
  else .next (s.setEngine id { e with src := Memory.writeList e.src off bytes })

/-- One move of the host. -/
def hostMove (op : HostOp) (s : State) : Host.Outcome State Fault Refusal :=
  match op with
  | .writeReg id r v => hostWrite id r v s
  | .readReg id r => .next (hostRead id r s)
  | .placeSrc id off bytes => hostPlace id off bytes s
  | .readDst id off => .next (hostReadDst id off s)
  | .assertReset id => .next (s.setEngine id ((s.engine id).assertReset id))

/-- One step of an engine. -/
def engineMove (id : EngineId) (s : State) : Host.Outcome State Fault Refusal :=
  match id with
  | .enc => encMove s
  | .dec => decMove s

/-- One move. -/
def runMove (m : Move) (s : State) : Host.Outcome State Fault Refusal :=
  match m with
  | .host op => hostMove op s
  | .engine id => engineMove id s

/-- With an empty agenda the decoder steps if it is running, else the encoder if it is running, else
nothing moves: the engines wait for START (R282, log 3). -/
def selfMove (s : State) : Host.Outcome State Fault Refusal :=
  if s.dec.phase.running then decMove s
  else if s.enc.phase.running then encMove s
  else .next s

/-! ## Placing one instruction where the decoder fetches next (log 11) -/

/-- The decoder set up so that its next fetch at the given position reads exactly `bytes` (an
instruction, zero bytes after it). At a chunk position it is in PIXELS with no pending run, room below
`lim` and at least one pixel to come; at the trailer it is in END with the bytes as the terminal 8; at
the header it is in IDLE with room for a header and an end marker. -/
def Engine.withFetchBytes (d : Engine) (p : Position) (bytes : List Byte) : Engine :=
  match p with
  | .header =>
    { d with
      phase := .idle
      err := none
      srcLen := Config.headerLen + Config.endLen
      src := Memory.writeList d.src 0 bytes }
  | .chunk =>
    { d with
      phase := .pixels
      err := none
      run := 0
      channels := if validChannels d.channels then d.channels else 4
      n := if d.i < d.n then d.n else d.i + 1
      srcLen := d.rp + bytes.length + Config.endLen
      src := Memory.writeList d.src d.rp bytes }
  | .trailer =>
    { d with
      phase := .atEnd
      err := none
      srcLen := d.rp + Config.endLen
      src := Memory.writeList d.src d.rp bytes }

/-- The move that makes the decoder fetch at a position: the host's START for the header, the engine's
own step otherwise. -/
def fetchMove : Position → Move
  | .header => .host (.writeReg .dec .ctrl 1)
  | .chunk => .engine .dec
  | .trailer => .engine .dec

end Sys2Proof.Machine
end

