-- ==== Sys2Proof/Machine/Step.lean ====
section
/-! DEFINITION. One step of the core: one move of one agent (R5). -/

namespace Sys2Proof.Machine

/-- The first move of the agenda, or, with an empty agenda, the engines' own (log 3). -/
def step (s : State) : Host.Outcome State Fault Refusal :=
  match s.agenda with
  | [] => selfMove s
  | m :: rest => runMove m { s with agenda := rest }

/-- The state with one table word placed where the next step fetches (log 11, 19). -/
def State.withFetchWord (s : State) (nbits w : Nat) : State :=
  { s with
    dec := s.dec.withFetchBytes (tablePosition nbits) (tableBytes nbits w)
    agenda := fetchMove (tablePosition nbits) :: s.agenda }

end Sys2Proof.Machine
end

