-- ==== Sys2Proof/Safety.lean ====
section
/-! DEFINITION. What counts as a sound state of the core, and what an encode call and a decode call are,
in the terms the claims use. -/

namespace Sys2Proof.Machine

/-! ## Sound states -/

/-- A buffer pair in canonical form. -/
abbrev Engine.memWf (e : Engine) : Prop := Memory.wf e.src ∧ Memory.wf e.dst

/-- Every buffer of the core is in canonical form. -/
abbrev State.memWf (s : State) : Prop := s.enc.memWf ∧ s.dec.memWf

/-- "ERR is nonzero exactly when PHASE = ERROR" (R34). -/
abbrev Engine.errWf (e : Engine) : Prop := e.err ≠ none ↔ e.phase = .error

/-- A call is under way or has finished well: PHASE is PIXELS, END or DONE. -/
abbrev Engine.inCall (e : Engine) : Prop := e.phase = .pixels ∨ e.phase = .atEnd ∨ e.phase = .done

/-- "for every slot k, cache[k] = (0,0,0,0) or hash(cache[k]) = k" (R149). -/
abbrev Engine.cacheWf (e : Engine) : Prop :=
  ∀ k : Slot, cacheLookup e.cache k = Config.slotInit ∨ pixelHash (cacheLookup e.cache k) = k

/-- The counters of a call: `run` at most 61 (R25), the channel count 3 or 4, `i` at most N and equal
to N exactly from END on (R7, R27). -/
abbrev Engine.callWf (e : Engine) : Prop :=
  e.run ≤ Config.runFieldMax ∧ validChannels e.channels = true ∧
  (e.phase = .pixels → e.i < e.n) ∧ (e.phase = .atEnd → e.i = e.n)

/-- The encoder during a call: N from its registers (R28), the length checked (R161), `rp = i x
CHANNELS` (R27), nothing pending at END (R175), the header written. -/
abbrev encWf (e : Engine) : Prop :=
  e.phase.running = true →
    e.callWf ∧ e.n = e.width.toNat * e.height.toNat ∧ e.srcLen = e.n * e.channels.toNat ∧
    e.rp = e.i * e.channels.toNat ∧ Config.headerLen ≤ e.wp ∧ (e.phase = .atEnd → e.run = 0)

/-- The decoder during a call: N from its registers (R28), L at least 22 (R201), `wp = i x CHANNELS`
(R27), `rp` in the chunk region or at its end (R70, R207). -/
abbrev decWf (d : Engine) : Prop :=
  d.phase.running = true →
    d.callWf ∧ d.n = d.width.toNat * d.height.toNat ∧
    Config.headerLen + Config.endLen ≤ d.srcLen ∧
    d.wp = d.i * d.channels.toNat ∧ Config.headerLen ≤ d.rp ∧ d.rp ≤ d.lim

/-- The decoder after a call: the channel count is 3 or 4 and D_DSTLEN is WIDTH x HEIGHT x CHANNELS
(R35). -/
abbrev decDoneWf (d : Engine) : Prop :=
  d.phase = .done →
    validChannels d.channels = true ∧
    d.dstLen = d.width.toNat * d.height.toNat * d.channels.toNat

/-- The registers of the core are sound. -/
abbrev State.regWf (s : State) : Prop :=
  s.enc.errWf ∧ s.dec.errWf ∧ encWf s.enc ∧ decWf s.dec ∧ decDoneWf s.dec

/-- The caches of the core are sound while they are in use (R149). -/
abbrev State.cacheWf (s : State) : Prop :=
  (s.enc.inCall → s.enc.cacheWf) ∧ (s.dec.inCall → s.dec.cacheWf)

/-! ## Calls (R15) -/

/-- What an encode call is to do: the host's part of R300, then N pixel steps and the end step (R7). -/
def encodeAgenda (samples : List Byte) (w h : Word32) (c cs : Byte) : List Move :=
  [.host (.placeSrc .enc 0 samples), .host (.writeReg .enc .width w.toNat),
    .host (.writeReg .enc .height h.toNat), .host (.writeReg .enc .channels c.toNat),
    .host (.writeReg .enc .colorspace cs.toNat), .host (.writeReg .enc .srcLen samples.length),
    .host (.writeReg .enc .ctrl 1)] ++
  List.replicate (w.toNat * h.toNat + 1) (.engine .enc)

/-- What a decode call of a stream of `n` pixels is to do: the host's part of R300, then N pixel steps
and the end step (R7). -/
def decodeAgenda (stream : List Byte) (n : Nat) : List Move :=
  [.host (.placeSrc .dec 0 stream), .host (.writeReg .dec .srcLen stream.length),
    .host (.writeReg .dec .ctrl 1)] ++
  List.replicate (n + 1) (.engine .dec)

/-- Run a whole agenda from a state. -/
def runAgenda (s : State) (agenda : List Move) : Host.Outcome State Fault Refusal :=
  Sys2Proof.core.run agenda.length { s with agenda := agenda }

/-- An engine has finished without error and its destination buffer holds exactly `bytes` (R46). -/
abbrev Engine.delivers (e : Engine) (bytes : List Byte) : Prop :=
  e.phase = .done ∧ e.err = none ∧ e.dstLen = bytes.length ∧
  Memory.readList e.dst 0 bytes.length = some bytes

/-- An encode call from `s` delivers `stream` (R15). -/
def Encodes (s : State) (samples : List Byte) (w h : Word32) (c cs : Byte) (stream : List Byte) :
    Prop :=
  ∃ t, runAgenda s (encodeAgenda samples w h c cs) = .next t ∧ t.enc.delivers stream

/-- A decode call from `s` delivers a header and samples (R15). -/
def Decodes (s : State) (stream : List Byte) (w h : Word32) (c cs : Byte) (samples : List Byte) :
    Prop :=
  ∃ t, runAgenda s (decodeAgenda stream (w.toNat * h.toNat)) = .next t ∧ t.dec.delivers samples ∧
    t.dec.width = w ∧ t.dec.height = h ∧ t.dec.channels = c ∧ t.dec.colorspace = cs

/-! ## Words the claims are written in -/

/-- The decoder of `s` has taken `len` bytes and produced the pixel `p`, leaving `run` pixels owed:
`cur`, `prev`, `run`, `rp`, `wp`, `i` and PHASE as R204, R217, R218 and R220 say, the first CHANNELS
samples of `p` in D.DST at the old `wp`, every other byte of D.DST as before, and every other field of
the whole state unchanged. The cache is left to the claim. -/
def Produced (s t : State) (len : Nat) (p : Pixel) (run : BitVec 6) : Prop :=
  t = { s with dec := { s.dec with
    cur := p
    prev := p
    run := run
    rp := s.dec.rp + len
    wp := s.dec.wp + s.dec.channels.toNat
    i := s.dec.i + 1
    phase := if s.dec.i + 1 = s.dec.n then .atEnd else s.dec.phase
    cache := t.dec.cache
    dst := t.dec.dst } } ∧
  ∀ off, Memory.read t.dec.dst off =
    if s.dec.wp ≤ off ∧ off < s.dec.wp + min 4 s.dec.channels.toNat then
      [p.r, p.g, p.b, p.a][off - s.dec.wp]?
    else Memory.read s.dec.dst off

/-- The decoder's cache slot `hash(p)` holds `p`, every other slot what it held (R144, R216). -/
def Remembered (s t : State) (p : Pixel) : Prop :=
  ∀ k, cacheLookup t.dec.cache k = if k = pixelHash p then p else cacheLookup s.dec.cache k

/-- The decoder of `s` has raised `k`: STATUS changed and nothing else of the whole state (R260,
log 21). -/
def Raised (s t : State) (k : ErrorKind) : Prop :=
  t = { s with dec := { s.dec with phase := .error, err := some k } }

/-- When the chunk `bytes` is read at `rp`, below `lim`, in a pixel step with no pending run, the step
executes `i`. -/
def RunsAt (s : State) (bytes : List Byte) (i : Instr) : Prop :=
  s.dec.phase = .pixels → s.dec.run = 0 → s.dec.rp + bytes.length ≤ s.dec.srcLen - 8 →
    s.dec.srcBytes .dec s.dec.rp bytes.length = bytes →
    engineMove .dec s = exec i s

/-- When the tag byte `b` is read below `lim` but the chunk of `len` bytes it begins would cross `lim`,
the pixel step raises Truncated (R207); the tag byte has been taken (R13, log 8) and nothing else has
changed (log 21). -/
def CutShort (s : State) (b : Byte) (len : Nat) : Prop :=
  s.dec.phase = .pixels → s.dec.run = 0 → s.dec.rp + 1 ≤ s.dec.srcLen - 8 →
    s.dec.srcByte .dec s.dec.rp = b → s.dec.srcLen - 8 < s.dec.rp + len →
    engineMove .dec s = .next { s with dec := { s.dec with
      rp := s.dec.rp + 1, phase := .error, err := some .truncated } }

/-- The encoder of `s` has consumed the pixel `p` and emitted `bytes`, leaving `run`: the bytes stand
in E.DST at the old `wp`, every other byte of E.DST and every other field of the whole state is
unchanged. The cache is left to the claim. -/
def Consumed (s t : State) (p : Pixel) (bytes : List Byte) (run : BitVec 6) : Prop :=
  t = { s with enc := { s.enc with
    cur := p
    prev := p
    run := run
    rp := s.enc.rp + s.enc.channels.toNat
    wp := s.enc.wp + bytes.length
    i := s.enc.i + 1
    phase := if s.enc.i + 1 = s.enc.n then .atEnd else .pixels
    cache := t.enc.cache
    dst := t.enc.dst } } ∧
  ∀ off, Memory.read t.enc.dst off =
    if s.enc.wp ≤ off ∧ off < s.enc.wp + bytes.length then bytes[off - s.enc.wp]?
    else Memory.read s.enc.dst off

/-- The RUN chunks that the encoder emits for `m` pixels equal to the one before them: every one but the
last has field 61, the last has (m - 1) mod 62 (R177). -/
def runBytes (m : Nat) : List Byte :=
  if m = 0 then []
  else List.replicate ((m - 1) / 62) 0xFD ++ [BitVec.ofNat 8 (0xC0 + (m - 1) % 62)]

/-- The samples of `n` pixels all equal to `p`, with `c` channels (R65). -/
def uniformSamples (p : Pixel) (c n : Nat) : List Byte :=
  (List.replicate n ((samples p).take c)).flatten

/-- Two engines the host cannot tell apart: they differ at most in `cur`, `prev`, `run`, `cache`, `i`,
`rp`, `wp` and `N` (R40). -/
def Engine.looksLike (e e' : Engine) : Prop :=
  e' = { e with
    cur := e'.cur
    prev := e'.prev
    run := e'.run
    cache := e'.cache
    i := e'.i
    rp := e'.rp
    wp := e'.wp
    n := e'.n }

/-- Two states the host cannot tell apart (R40). -/
def State.looksLike (s s' : State) : Prop :=
  s.enc.looksLike s'.enc ∧ s.dec.looksLike s'.dec ∧ s'.agenda = s.agenda ∧ s'.heard = s.heard

/-- An engine that holds three-channel pixels only has `prev.a` = 255 (R163). -/
abbrev Engine.opaquePrev (e : Engine) : Prop :=
  e.phase.running = true → e.channels = 3 → e.prev.a = 255

end Sys2Proof.Machine
end

