-- ==== Sys2Proof/Certificates/Slice0/Obligations.lean ====
section
/-! DEFINITION. The statements for the provers. Each docstring names the rules of spec/ it formalises. -/

open Sys2Proof Sys2Proof.Machine

/-! ## Encodings -/

/-- A few encodings, written out bit by bit from 30_encoding.md and 95_test_vectors.md, decode to the
instruction they stand for. -/
def Obligations.EncodingsWrittenOutDecode : Prop :=
  decode .chunk [0b11111110, 0xC8, 0x64, 0x32] = .ok (.rgb 0xC8 0x64 0x32, []) ∧
  decode .chunk [0b11111111, 0x01, 0x02, 0x03, 0x04] = .ok (.rgba 1 2 3 4, []) ∧
  decode .chunk [0b00001011] = .ok (.index 11, []) ∧
  decode .chunk [0b01110110] = .ok (.diff 3 1 2, []) ∧
  decode .chunk [0b10101010, 0b00111111] = .ok (.luma 42 3 15, []) ∧
  decode .chunk [0b11000100] = .ok (.run 4, []) ∧
  decode .header [0x71, 0x6F, 0x69, 0x66, 1, 2, 3, 4, 0xA0, 0xB0, 0xC0, 0xD0, 4, 1] =
    .ok (.header 0x01020304 0xA0B0C0D0 4 1, []) ∧
  decode .trailer [0, 0, 0, 0, 0, 0, 0, 1] = .ok (.endMarker, [])

/-- Decoding the encoding of a well-formed instruction, at its place in the stream and with any bytes
after it, gives the instruction back and leaves those bytes (R93 to R98). -/
def Obligations.DecodeUndoesEncode : Prop :=
  ∀ (i : Instr) (rest : List Byte), i.WellFormed = true →
    decode i.position (encode i ++ rest) = .ok (i, rest)

/-- What decodes was the encoding of what it decodes to: the bytes taken are exactly `encode i`, the
instruction is well-formed and belongs to that place of the stream. So no two instructions share an
encoding and no bit of an encoding is ignored (R93 to R98, R101). -/
def Obligations.EncodeUndoesDecode : Prop :=
  ∀ (p : Position) (bytes rest : List Byte) (i : Instr), decode p bytes = .ok (i, rest) →
    bytes = encode i ++ rest ∧ i.WellFormed = true ∧ i.position = p

/-- The map of all 256 first bytes: chunk, length and payload reading (R100), with the literal tags
tested first (R101). -/
def Obligations.TagByteMapHasNoHole : Prop :=
  ∀ (b b1 b2 b3 b4 : Byte) (rest : List Byte),
    let bytes := b :: b1 :: b2 :: b3 :: b4 :: rest
    (b.toNat ≤ 0x3F →
      decode .chunk bytes = .ok (.index (BitVec.ofNat 6 b.toNat), bytes.drop 1)) ∧
    (0x40 ≤ b.toNat → b.toNat ≤ 0x7F →
      decode .chunk bytes =
        .ok (.diff (BitVec.ofNat 2 (b.toNat / 16 % 4)) (BitVec.ofNat 2 (b.toNat / 4 % 4))
          (BitVec.ofNat 2 (b.toNat % 4)), bytes.drop 1)) ∧
    (0x80 ≤ b.toNat → b.toNat ≤ 0xBF →
      decode .chunk bytes =
        .ok (.luma (BitVec.ofNat 6 (b.toNat % 64)) (BitVec.ofNat 4 (b1.toNat / 16))
          (BitVec.ofNat 4 (b1.toNat % 16)), bytes.drop 2)) ∧
    (0xC0 ≤ b.toNat → b.toNat ≤ 0xFD →
      decode .chunk bytes = .ok (.run (BitVec.ofNat 6 (b.toNat % 64)), bytes.drop 1) ∧
      b.toNat % 64 ≤ 61) ∧
    (b.toNat = 0xFE → decode .chunk bytes = .ok (.rgb b1 b2 b3, bytes.drop 4)) ∧
    (b.toNat = 0xFF → decode .chunk bytes = .ok (.rgba b1 b2 b3 b4, bytes.drop 5))

/-! ## The hash -/

/-- The width at which the unsigned arithmetic wraps, six bits or more, does not change the index, and
only the low six bits of each sample count (R141). -/
def Obligations.HashDoesNotDependOnWidth : Prop :=
  ∀ (p : Pixel),
    (∀ W : Nat, 6 ≤ W →
      ((((p.r.toNat * 3 % 2 ^ W + p.g.toNat * 5 % 2 ^ W) % 2 ^ W + p.b.toNat * 7 % 2 ^ W) % 2 ^ W +
        p.a.toNat * 11 % 2 ^ W) % 2 ^ W) % 64 = (pixelHash p).toNat) ∧
    (pixelHash p).toNat =
      (3 * (p.r.toNat % 64) + 5 * (p.g.toNat % 64) + 7 * (p.b.toNat % 64) +
        11 * (p.a.toNat % 64)) % 64

/-- Values of the hash: the cleared slot's pixel is at 0, the initial previous pixel at 53, opaque
white at 38; pixels whose channels differ by multiples of 64 share a slot (R142). -/
def Obligations.HashValuesAndCollisions : Prop :=
  pixelHash ⟨0, 0, 0, 0⟩ = 0 ∧ pixelHash ⟨0, 0, 0, 255⟩ = 53 ∧ pixelHash ⟨255, 255, 255, 255⟩ = 38 ∧
  ∀ p q : Pixel, p.r.toNat % 64 = q.r.toNat % 64 → p.g.toNat % 64 = q.g.toNat % 64 →
    p.b.toNat % 64 = q.b.toNat % 64 → p.a.toNat % 64 = q.a.toNat % 64 → pixelHash p = pixelHash q

/-! ## One step of the core -/

/-- A step is the first move of the agenda; with an empty agenda it is the decoder's own step if the
decoder is in PIXELS or END, else the encoder's if it is, else nothing moves. The agenda and the order
of its absence are the model's choice (log 3). -/
def Obligations.StepIsOneMove : Prop :=
  ∀ (s : State) (m : Move) (rest : List Move),
    (s.agenda = m :: rest → step s = runMove m { s with agenda := rest }) ∧
    (s.agenda = [] → s.dec.phase = .pixels ∨ s.dec.phase = .atEnd →
      step s = engineMove .dec s) ∧
    (s.agenda = [] → ¬ (s.dec.phase = .pixels ∨ s.dec.phase = .atEnd) →
      s.enc.phase = .pixels ∨ s.enc.phase = .atEnd → step s = engineMove .enc s) ∧
    (s.agenda = [] → ¬ (s.dec.phase = .pixels ∨ s.dec.phase = .atEnd) →
      ¬ (s.enc.phase = .pixels ∨ s.enc.phase = .atEnd) → step s = .next s)

/-- A read of a source buffer gives what was written there, byte by byte and in offset order, and any
number of bytes can be read (R13, R60). That a byte nothing has written reads as a free value is log 1. -/
def Obligations.WrittenBytesReadAsWritten : Prop :=
  ∀ (e : Engine) (id : EngineId) (off n : Nat),
    (e.srcBytes id off n).length = n ∧
    (∀ bytes : List Byte, Memory.readList e.src off n = some bytes → e.srcBytes id off n = bytes) ∧
    (∀ (start x : Nat) (bytes : List Byte),
      Engine.srcByte { e with src := Memory.writeList e.src start bytes } id x =
        if start ≤ x ∧ x < start + bytes.length then bytes.getD (x - start) 0 else e.srcByte id x)

/-- A step always answers a next state: no engine ever stops with a fault (R250). The one refusal is the
host's write of a source buffer during a call, which 93 U7 leaves out of the model (log 9). -/
def Obligations.StepAlwaysAnswers : Prop :=
  ∀ s : State,
    (∃ t, step s = .next t) ∨
    ∃ id off bytes rest, s.agenda = .host (.placeSrc id off bytes) :: rest ∧
      ((s.engine id).phase = .pixels ∨ (s.engine id).phase = .atEnd) ∧
      step s = .refused (.sourceWriteDuringCall id)

/-- A pixel step with no pending run executes the chunk that the bytes at `rp` decode to, if they lie
below `lim` (R204, R207). With an empty agenda the decoder steps: the model's choice (log 3). -/
def Obligations.StepRunsTheDecodedChunk : Prop :=
  ∀ (s : State) (i : Instr) (bytes : List Byte),
    s.dec.phase = .pixels → s.dec.run = 0 → s.dec.rp + bytes.length ≤ s.dec.srcLen - 8 →
    s.dec.srcBytes .dec s.dec.rp bytes.length = bytes →
    decode .chunk bytes = .ok (i, []) →
    (s.agenda = [] → step s = exec i s) ∧
    (∀ rest, s.agenda = .engine .dec :: rest → step s = exec i { s with agenda := rest })

/-- The host's START executes the HEADER that the first 14 bytes of D.SRC decode to (R201). That the write
and the start step are one move is log 13; that a value wider than the one-bit CTRL is judged by its
bit 0 is the model's choice (log 12). -/
def Obligations.StartRunsTheDecodedHeader : Prop :=
  ∀ (s : State) (i : Instr) (bytes : List Byte) (v : Nat) (rest : List Move),
    s.agenda = .host (.writeReg .dec .ctrl v) :: rest → v % 2 = 1 →
    s.dec.phase = .idle ∨ s.dec.phase = .done ∨ s.dec.phase = .error → 14 ≤ s.dec.srcLen →
    s.dec.srcBytes .dec 0 14 = bytes → decode .header bytes = .ok (i, []) →
    step s = exec i { s with agenda := rest }

/-- The end step executes END when the terminal eight bytes decode to it (R222). That the decoder steps
when the agenda is empty, also while the encoder runs, is the model's choice (log 3). -/
def Obligations.StepRunsTheDecodedEndMarker : Prop :=
  ∀ (s : State) (i : Instr) (bytes : List Byte),
    s.dec.phase = .atEnd → s.dec.srcBytes .dec (s.dec.srcLen - 8) 8 = bytes →
    decode .trailer bytes = .ok (i, []) →
    (s.agenda = [] → step s = exec i s) ∧
    (∀ rest, s.agenda = .engine .dec :: rest → step s = exec i { s with agenda := rest })

/-! ## The eight instructions, executed -/

/-- RGB: always runs; the pixel is (r, g, b, prev.a), it is stored in its slot, `rp` moves by 4;
nothing else changes. Four bytes FE r g b at `rp` run it; a payload that would cross `lim` raises
Truncated (R210). What the error leaves beside STATUS, `rp` past the tag byte and all else unchanged, is
the model's reading (log 8, 21), as is execution outside PIXELS and with other channel counts (log 16). -/
def Obligations.RgbResult : Prop :=
  ∀ (s : State) (r g b : Byte),
    (∃ t, exec (.rgb r g b) s = .next t ∧ Produced s t 4 ⟨r, g, b, s.dec.prev.a⟩ s.dec.run ∧
      Remembered s t ⟨r, g, b, s.dec.prev.a⟩) ∧
    RunsAt s [0xFE, r, g, b] (.rgb r g b) ∧ CutShort s 0xFE 4

/-- RGBA: always runs, whatever D_CHANNELS is; the pixel is (r, g, b, a), it is stored, `rp` moves by
5; nothing else changes; five bytes FF r g b a at `rp` run it; a payload that would cross `lim` raises
Truncated (R211). What the error leaves beside STATUS, `rp` past the tag byte and all else unchanged, is
the model's reading (log 8, 21), as is execution outside PIXELS and with other channel counts (log 16). -/
def Obligations.RgbaResult : Prop :=
  ∀ (s : State) (r g b a : Byte),
    (∃ t, exec (.rgba r g b a) s = .next t ∧ Produced s t 5 ⟨r, g, b, a⟩ s.dec.run ∧
      Remembered s t ⟨r, g, b, a⟩) ∧
    RunsAt s [0xFF, r, g, b, a] (.rgba r g b a) ∧ CutShort s 0xFF 5

/-- INDEX: always runs; the pixel is the slot's content, the cache is not written, `rp` moves by 1;
nothing else changes; every byte 00kkkkkk at `rp` runs it (R212). Execution outside PIXELS and with other
channel counts is the model's reading (log 16). -/
def Obligations.IndexResult : Prop :=
  ∀ (s : State),
    (∀ k : Slot, ∃ t, exec (.index k) s = .next t ∧
      Produced s t 1 (cacheLookup s.dec.cache k) s.dec.run ∧ t.dec.cache = s.dec.cache) ∧
    (∀ b : Byte, b.toNat / 64 = 0 → RunsAt s [b] (.index (BitVec.ofNat 6 (b.toNat % 64))))

/-- DIFF: always runs; each two-bit field minus 2 is added to a channel of `prev`, mod 256, alpha is
kept, the pixel is stored, `rp` moves by 1; nothing else changes; every byte 01rrggbb at `rp` runs it
(R213, R219). Execution outside PIXELS and with other channel counts is the model's reading (log 16). -/
def Obligations.DiffResult : Prop :=
  ∀ (s : State),
    (∀ (fr fg fb : BitVec 2) (r g b : Byte),
      (r.toNat : Int) = ((s.dec.prev.r.toNat : Int) + (fr.toNat - 2)) % 256 →
      (g.toNat : Int) = ((s.dec.prev.g.toNat : Int) + (fg.toNat - 2)) % 256 →
      (b.toNat : Int) = ((s.dec.prev.b.toNat : Int) + (fb.toNat - 2)) % 256 →
      ∃ t, exec (.diff fr fg fb) s = .next t ∧
        Produced s t 1 ⟨r, g, b, s.dec.prev.a⟩ s.dec.run ∧
        Remembered s t ⟨r, g, b, s.dec.prev.a⟩) ∧
    (∀ b : Byte, b.toNat / 64 = 1 →
      RunsAt s [b] (.diff (BitVec.ofNat 2 (b.toNat / 16 % 4)) (BitVec.ofNat 2 (b.toNat / 4 % 4))
        (BitVec.ofNat 2 (b.toNat % 4))))

/-- LUMA: always runs; green gets `fdg - 32`, red and blue their cross delta (field minus 8) plus the
green delta, sums mod 256, alpha is kept, the pixel is stored, `rp` moves by 2; nothing else changes.
A second byte at or beyond `lim` raises Truncated (R214, R219). What the error leaves beside STATUS, `rp`
past the tag byte and all else unchanged, is the model's reading (log 8, 21), as is execution outside
PIXELS and with other channel counts (log 16). -/
def Obligations.LumaResult : Prop :=
  ∀ (s : State),
    (∀ (fdg : BitVec 6) (frg fbg : BitVec 4) (r g b : Byte),
      (r.toNat : Int) = ((s.dec.prev.r.toNat : Int) + (frg.toNat - 8) + (fdg.toNat - 32)) % 256 →
      (g.toNat : Int) = ((s.dec.prev.g.toNat : Int) + (fdg.toNat - 32)) % 256 →
      (b.toNat : Int) = ((s.dec.prev.b.toNat : Int) + (fbg.toNat - 8) + (fdg.toNat - 32)) % 256 →
      ∃ t, exec (.luma fdg frg fbg) s = .next t ∧
        Produced s t 2 ⟨r, g, b, s.dec.prev.a⟩ s.dec.run ∧
        Remembered s t ⟨r, g, b, s.dec.prev.a⟩) ∧
    (∀ b b2 : Byte, b.toNat / 64 = 2 →
      RunsAt s [b, b2] (.luma (BitVec.ofNat 6 (b.toNat % 64)) (BitVec.ofNat 4 (b2.toNat / 16))
        (BitVec.ofNat 4 (b2.toNat % 16))) ∧
      CutShort s b 2)

/-- RUN: always runs; the pixel is `prev`, `run` becomes the field, the cache is not touched, `rp` moves
by 1, nothing else changes; and, while enough pixels remain, the chunk stands for exactly field + 1
pixels equal to `prev`: the next `runf` steps of the decoder take no byte, do not touch the cache and
leave `run` 0; every byte C0 to FD at `rp` runs it (R215, R206). Execution outside PIXELS, with other
channel counts and of the fields 62 and 63, which have no encoding, is the model's reading (log 16). -/
def Obligations.RunResult : Prop :=
  ∀ (s : State),
    (∀ runf : BitVec 6, ∃ t, exec (.run runf) s = .next t ∧ Produced s t 1 s.dec.prev runf ∧
      t.dec.cache = s.dec.cache ∧
      (s.dec.phase = .pixels → s.dec.i + runf.toNat + 1 ≤ s.dec.n →
        s.dec.channels = 3 ∨ s.dec.channels = 4 →
        ∃ u, runAgenda t (List.replicate runf.toNat (.engine .dec)) = .next u ∧
          u.dec.i = s.dec.i + runf.toNat + 1 ∧ u.dec.rp = s.dec.rp + 1 ∧ u.dec.run = 0 ∧
          u.dec.prev = s.dec.prev ∧ u.dec.cache = s.dec.cache ∧
          ∀ j, j < (runf.toNat + 1) * s.dec.channels.toNat →
            Memory.read u.dec.dst (s.dec.wp + j) =
              [s.dec.prev.r, s.dec.prev.g, s.dec.prev.b, s.dec.prev.a][j % s.dec.channels.toNat]?)) ∧
    (∀ b : Byte, 0xC0 ≤ b.toNat → b.toNat ≤ 0xFD →
      RunsAt s [b] (.run (BitVec.ofNat 6 (b.toNat % 64))))

/-- HEADER, after its parse: with a channel count other than 3 and 4 it raises InvalidChannelCount; else
with L below 22 it raises Truncated; else it sets the four result registers and the start-of-call values
and nothing else but the free value in `cur` (R201, R45, R254). R45 leaves everything but STATUS
unspecified after an error; that it stays as it was is the model's reading (log 21). -/
def Obligations.HeaderResult : Prop :=
  ∀ (s : State) (w h : Word32) (c cs : Byte),
    (¬ (c = 3 ∨ c = 4) →
      ∃ t, exec (.header w h c cs) s = .next t ∧ Raised s t .invalidChannelCount) ∧
    ((c = 3 ∨ c = 4) → s.dec.srcLen < 22 →
      ∃ t, exec (.header w h c cs) s = .next t ∧ Raised s t .truncated) ∧
    ((c = 3 ∨ c = 4) → 22 ≤ s.dec.srcLen →
      ∃ t, exec (.header w h c cs) s = .next t ∧
        (∀ k, cacheLookup t.dec.cache k = ⟨0, 0, 0, 0⟩) ∧
        t = { s with dec := { s.dec with
          width := w, height := h, channels := c, colorspace := cs
          prev := ⟨0, 0, 0, 255⟩, run := 0, i := 0, rp := 14, wp := 0
          n := w.toNat * h.toNat
          phase := if 0 < w.toNat * h.toNat then .pixels else .atEnd
          err := none
          cache := t.dec.cache, cur := t.dec.cur, fresh := t.dec.fresh } })

/-- END, executed: D_DSTLEN becomes `wp`, PHASE becomes DONE, nothing else changes; it is executed when
the terminal eight bytes are the marker, and any other eight bytes there raise CorruptEndMarker
(R222). That everything but STATUS stays as it was after the error is the model's reading (log 21), as is
execution outside END (log 16). -/
def Obligations.EndMarkerResult : Prop :=
  ∀ (s : State),
    exec .endMarker s = .next { s with dec := { s.dec with dstLen := s.dec.wp, phase := .done } } ∧
    (s.dec.phase = .atEnd →
      (s.dec.srcBytes .dec (s.dec.srcLen - 8) 8 = [0, 0, 0, 0, 0, 0, 0, 1] →
        engineMove .dec s = exec .endMarker s) ∧
      (s.dec.srcBytes .dec (s.dec.srcLen - 8) 8 ≠ [0, 0, 0, 0, 0, 0, 0, 1] →
        ∃ t, engineMove .dec s = .next t ∧ Raised s t .corruptEndMarker))

/-! ## The decoder's other steps -/

/-- A pixel step with a pending run takes no byte, repeats `prev`, decrements `run` and does not touch
the cache (R206). -/
def Obligations.PendingRunStep : Prop :=
  ∀ s : State, s.dec.phase = .pixels → s.dec.run ≠ 0 →
    ∃ t, engineMove .dec s = .next t ∧ Produced s t 0 s.dec.prev t.dec.run ∧
      t.dec.run.toNat + 1 = s.dec.run.toNat ∧ t.dec.cache = s.dec.cache

/-- The header parse and its order of tests: a wrong magic first whenever four bytes are there, then the
length; else the HEADER with the big-endian width and height is executed (R121, R122, R123). That
everything but STATUS stays as it was after an error is the model's reading (log 21); the four magic
values rest on ASCII (log 17). -/
def Obligations.HeaderParseOrder : Prop :=
  ∀ s : State,
    (s.dec.srcLen < 4 → ∃ t, startMove .dec s = .next t ∧ Raised s t .truncated) ∧
    (∀ b0 b1 b2 b3 : Byte, 4 ≤ s.dec.srcLen →
      s.dec.srcBytes .dec 0 4 = [b0, b1, b2, b3] →
      ¬ (b0 = 0x71 ∧ b1 = 0x6F ∧ b2 = 0x69 ∧ b3 = 0x66) →
      ∃ t, startMove .dec s = .next t ∧ Raised s t .badMagic) ∧
    (4 ≤ s.dec.srcLen → s.dec.srcLen < 14 →
      s.dec.srcBytes .dec 0 4 = [0x71, 0x6F, 0x69, 0x66] →
      ∃ t, startMove .dec s = .next t ∧ Raised s t .truncated) ∧
    (∀ (w0 w1 w2 w3 h0 h1 h2 h3 c cs : Byte) (w h : Word32), 14 ≤ s.dec.srcLen →
      s.dec.srcBytes .dec 0 14 =
        [0x71, 0x6F, 0x69, 0x66, w0, w1, w2, w3, h0, h1, h2, h3, c, cs] →
      w.toNat = w0.toNat * 2 ^ 24 + w1.toNat * 2 ^ 16 + w2.toNat * 2 ^ 8 + w3.toNat →
      h.toNat = h0.toNat * 2 ^ 24 + h1.toNat * 2 ^ 16 + h2.toNat * 2 ^ 8 + h3.toNat →
      startMove .dec s = exec (.header w h c cs) s)

/-- A chunk step with no byte left below `lim` raises Truncated (R207, R223). That everything but STATUS
stays as it was is R260's "nothing else", against the unspecified of R46 and R261: the model's reading
(log 21). -/
def Obligations.NoTagByteLeftIsTruncated : Prop :=
  ∀ s : State, s.dec.phase = .pixels → s.dec.run = 0 → s.dec.srcLen - 8 < s.dec.rp + 1 →
    ∃ t, engineMove .dec s = .next t ∧ Raised s t .truncated

/-! ## Errors -/

/-- `raise E` sets ERR and PHASE = ERROR "and nothing else": when a start step, or a step of an engine
not in ERROR, ends in ERROR, the next state is the old one but for that engine's STATUS and for what the
step's listing writes before the raise: `N` before PixelBufferSizeMismatch (R161), `rp` past a tag byte
whose payload is missing (R13). An engine in ERROR takes no pixel step and no end step (R260). That these
writes are made and all else is kept is the model's reading (log 8, 21). -/
def Obligations.RaiseChangesOnlyStatus : Prop :=
  ∀ (id : EngineId) (s t : State),
    (startMove id s = .next t → (t.engine id).phase = .error →
      ∃ k, t = s.setEngine id { s.engine id with
        phase := .error
        err := some k
        n := if k = .pixelBufferSizeMismatch then
            (s.engine id).width.toNat * (s.engine id).height.toNat
          else (s.engine id).n }) ∧
    (engineMove id s = .next t → (t.engine id).phase = .error → (s.engine id).phase ≠ .error →
      ∃ k taken, t = s.setEngine id { s.engine id with
          phase := .error, err := some k, rp := (s.engine id).rp + taken } ∧
        (taken = 0 ∨ taken = 1 ∧ id = .dec ∧ k = .truncated ∧
          (s.engine id).rp + 1 ≤ (s.engine id).srcLen - 8)) ∧
    ((s.engine id).phase = .error → engineMove id s = .next s)

/-- Errors do not nest: from ERROR only the engine's START changes its STATUS (its reset input apart),
and a start step that succeeds sets ERR to 0 (R266). -/
def Obligations.ErrorsDoNotNest : Prop :=
  (∀ (id : EngineId) (s t : State) (m : Move), (s.engine id).phase = .error →
    runMove m s = .next t → m ≠ .host (.assertReset id) →
    (∀ v, m ≠ .host (.writeReg id .ctrl v)) →
    (t.engine id).phase = .error ∧ (t.engine id).err = (s.engine id).err) ∧
  (∀ (id : EngineId) (s t : State), startMove id s = .next t → (t.engine id).phase ≠ .error →
    (t.engine id).err = none)

/-- Which step can raise which error: the table of R258. -/
def Obligations.WhichStepRaisesWhichError : Prop :=
  ∀ (s t : State) (k : ErrorKind),
    (startMove .enc s = .next t → t.enc.err = some k →
      k = .invalidChannelCount ∨ k = .pixelBufferSizeMismatch) ∧
    (engineMove .enc s = .next t → s.enc.err = none → t.enc.err = none) ∧
    (startMove .dec s = .next t → t.dec.err = some k →
      k = .badMagic ∨ k = .truncated ∨ k = .invalidChannelCount) ∧
    (engineMove .dec s = .next t → s.dec.err = none → t.dec.err = some k →
      (s.dec.phase = .pixels ∧ s.dec.run = 0 ∧ k = .truncated ∧
        (s.dec.srcLen - 8 < s.dec.rp + 1 ∨
          ∃ b : Byte, s.dec.srcByte .dec s.dec.rp = b ∧
            (b.toNat / 64 = 2 ∧ s.dec.srcLen - 8 < s.dec.rp + 2 ∨
              b = 0xFE ∧ s.dec.srcLen - 8 < s.dec.rp + 4 ∨
              b = 0xFF ∧ s.dec.srcLen - 8 < s.dec.rp + 5))) ∨
      (s.dec.phase = .atEnd ∧ k = .corruptEndMarker))

/-- START from ERROR runs the start step "exactly as from IDLE or DONE": the result does not depend on
the PHASE and ERR it starts from (R265). -/
def Obligations.StartIgnoresOldStatus : Prop :=
  ∀ (id : EngineId) (s : State) (p : Phase) (k : Option ErrorKind),
    startMove id (s.setEngine id { s.engine id with phase := p, err := k }) = startMove id s

/-! ## The start of a call -/

/-- The values a start step without error leaves, whatever the state before it, and STATUS after one
that raises an error: the table of R45. -/
def Obligations.StartOfCallValues : Prop :=
  ∀ (id : EngineId) (s t : State), startMove id s = .next t →
    ((t.engine id).phase ≠ .error →
      (∀ k, cacheLookup (t.engine id).cache k = ⟨0, 0, 0, 0⟩) ∧
      (t.engine id).prev = ⟨0, 0, 0, 255⟩ ∧ (t.engine id).run = 0 ∧ (t.engine id).i = 0 ∧
      (t.engine id).n = (t.engine id).width.toNat * (t.engine id).height.toNat ∧
      (id = .enc → (t.engine id).rp = 0 ∧ (t.engine id).wp = 14) ∧
      (id = .dec → (t.engine id).rp = 14 ∧ (t.engine id).wp = 0) ∧
      (t.engine id).phase = (if 0 < (t.engine id).n then Phase.pixels else Phase.atEnd) ∧
      (t.engine id).err = none) ∧
    ((t.engine id).phase = .error → (t.engine id).err ≠ none)

/-- No value that decides a byte of output survives from before the start step: two engines with equal
parameter registers and equal source buffers come out of their start steps equal in STATUS, result and
parameter registers, `prev`, `run`, cache and pointers (R21, R291). -/
def Obligations.StartForgetsThePast : Prop :=
  ∀ (id : EngineId) (s s' t : State),
    (s'.engine id).src = (s.engine id).src → (s'.engine id).srcLen = (s.engine id).srcLen →
    (id = .enc → s'.enc.width = s.enc.width ∧ s'.enc.height = s.enc.height ∧
      s'.enc.channels = s.enc.channels ∧ s'.enc.colorspace = s.enc.colorspace) →
    startMove id s = .next t → (t.engine id).phase ≠ .error →
    ∃ t', startMove id s' = .next t' ∧
      t'.engine id = { t.engine id with
        cur := (t'.engine id).cur
        fresh := (t'.engine id).fresh
        dstLen := (t'.engine id).dstLen
        dst := (t'.engine id).dst }

/-! ## The encoder -/

/-- The encoder's start step, which the host's START = 1 takes outside PIXELS and END:
InvalidChannelCount, then PixelBufferSizeMismatch, compared exactly, else the 14 header bytes in E.DST
and the start-of-call values, and nothing else but the free value in `cur` (R161). R45 leaves everything
but STATUS unspecified after an error; that it stays as it was, `N` apart, which R161 writes before the
size test, is the model's reading (log 21). The magic rests on ASCII (log 17). -/
def Obligations.EncoderStart : Prop :=
  ∀ s : State,
    (s.enc.phase = .idle ∨ s.enc.phase = .done ∨ s.enc.phase = .error →
      hostMove (.writeReg .enc .ctrl 1) s = startMove .enc s) ∧
    (¬ (s.enc.channels = 3 ∨ s.enc.channels = 4) →
      startMove .enc s =
        .next { s with enc := { s.enc with phase := .error, err := some .invalidChannelCount } }) ∧
    ((s.enc.channels = 3 ∨ s.enc.channels = 4) →
      s.enc.srcLen ≠ s.enc.width.toNat * s.enc.height.toNat * s.enc.channels.toNat →
      startMove .enc s =
        .next { s with enc :=
          { s.enc with
            n := s.enc.width.toNat * s.enc.height.toNat
            phase := .error, err := some .pixelBufferSizeMismatch } }) ∧
    ((s.enc.channels = 3 ∨ s.enc.channels = 4) →
      s.enc.srcLen = s.enc.width.toNat * s.enc.height.toNat * s.enc.channels.toNat →
      ∃ t, startMove .enc s = .next t ∧
        (∀ k, cacheLookup t.enc.cache k = ⟨0, 0, 0, 0⟩) ∧
        (∀ off, Memory.read t.enc.dst off =
          if off < 14 then
            ([0x71, 0x6F, 0x69, 0x66] ++
              [BitVec.ofNat 8 (s.enc.width.toNat / 2 ^ 24), BitVec.ofNat 8 (s.enc.width.toNat / 2 ^ 16),
                BitVec.ofNat 8 (s.enc.width.toNat / 2 ^ 8), BitVec.ofNat 8 s.enc.width.toNat] ++
              [BitVec.ofNat 8 (s.enc.height.toNat / 2 ^ 24),
                BitVec.ofNat 8 (s.enc.height.toNat / 2 ^ 16),
                BitVec.ofNat 8 (s.enc.height.toNat / 2 ^ 8), BitVec.ofNat 8 s.enc.height.toNat] ++
              [s.enc.channels, s.enc.colorspace])[off]?
          else Memory.read s.enc.dst off) ∧
        t = { s with enc := { s.enc with
          prev := ⟨0, 0, 0, 255⟩, run := 0, i := 0, rp := 0, wp := 14
          n := s.enc.width.toNat * s.enc.height.toNat
          phase := if 0 < s.enc.width.toNat * s.enc.height.toNat then .pixels else .atEnd
          err := none
          cache := t.enc.cache, cur := t.enc.cur, fresh := t.enc.fresh, dst := t.enc.dst } })

/-- The pixel fetch: CHANNELS samples at `rp`, alpha 255 when CHANNELS is 3; the step that consumes the
pixel leaves it in `cur` and moves `rp` by CHANNELS (R163). -/
def Obligations.EncoderFetchesThePixel : Prop :=
  ∀ (s : State) (r g b a : Byte), s.enc.phase = .pixels →
    (s.enc.channels = 3 → s.enc.srcBytes .enc s.enc.rp 3 = [r, g, b] →
      s.enc.fetchPixel = ⟨r, g, b, 255⟩ ∧
      ∃ t, engineMove .enc s = .next t ∧ t.enc.cur = ⟨r, g, b, 255⟩ ∧ t.enc.rp = s.enc.rp + 3) ∧
    (s.enc.channels = 4 → s.enc.srcBytes .enc s.enc.rp 4 = [r, g, b, a] →
      s.enc.fetchPixel = ⟨r, g, b, a⟩ ∧
      ∃ t, engineMove .enc s = .next t ∧ t.enc.cur = ⟨r, g, b, a⟩ ∧ t.enc.rp = s.enc.rp + 4)

/-- Run continuation: a pixel equal to `prev` adds one to `run`; at 62, or at the last pixel, the byte
0xC0 + (counter - 1) is emitted and `run` is 0; the cache is not touched; nothing else changes
(R165). -/
def Obligations.EncoderExtendsRun : Prop :=
  ∀ (s : State) (p : Pixel), s.enc.phase = .pixels → s.enc.run ≤ 61 →
    s.enc.fetchPixel = p → p = s.enc.prev →
    ∃ t, engineMove .enc s = .next t ∧ t.enc.cache = s.enc.cache ∧
      (s.enc.run.toNat + 1 = 62 ∨ s.enc.i + 1 = s.enc.n →
        Consumed s t p [BitVec.ofNat 8 (0xC0 + s.enc.run.toNat)] 0) ∧
      (¬ (s.enc.run.toNat + 1 = 62 ∨ s.enc.i + 1 = s.enc.n) →
        Consumed s t p [] (s.enc.run + 1))

/-- A pixel that differs from `prev`: a pending run is flushed first, then INDEX on a hit, else DIFF,
LUMA, RGB or RGBA, first match wins; the pixel is stored in its slot on a miss and only then; `prev`
becomes the pixel; nothing else changes (R167, R170, R171, R172; cases 2 to 6 of R164). -/
def Obligations.EncoderCodesPixel : Prop :=
  ∀ (s : State) (p : Pixel), s.enc.phase = .pixels → s.enc.run ≤ 61 →
    s.enc.fetchPixel = p → p ≠ s.enc.prev →
    let q := s.enc.prev
    let dr : Int := (p.r.toNat : Int) - q.r.toNat
    let dg : Int := (p.g.toNat : Int) - q.g.toNat
    let db : Int := (p.b.toNat : Int) - q.b.toNat
    let hit := cacheLookup s.enc.cache (pixelHash p) = p
    let small := -2 ≤ dr ∧ dr ≤ 1 ∧ -2 ≤ dg ∧ dg ≤ 1 ∧ -2 ≤ db ∧ db ≤ 1
    let medium := -32 ≤ dg ∧ dg ≤ 31 ∧ -8 ≤ dr - dg ∧ dr - dg ≤ 7 ∧ -8 ≤ db - dg ∧ db - dg ≤ 7
    let flush : List Byte :=
      if s.enc.run = 0 then [] else [BitVec.ofNat 8 (0xC0 + (s.enc.run.toNat - 1))]
    ∃ t, engineMove .enc s = .next t ∧
      (hit → Consumed s t p (flush ++ [BitVec.ofNat 8 (pixelHash p).toNat]) 0 ∧
        t.enc.cache = s.enc.cache) ∧
      (¬ hit → p.a = q.a → small →
        Consumed s t p
          (flush ++ [BitVec.ofInt 8 (0x40 + (dr + 2) * 16 + (dg + 2) * 4 + (db + 2))]) 0) ∧
      (¬ hit → p.a = q.a → ¬ small → medium →
        Consumed s t p
          (flush ++ [BitVec.ofInt 8 (0x80 + (dg + 32)),
            BitVec.ofInt 8 ((dr - dg + 8) * 16 + (db - dg + 8))]) 0) ∧
      (¬ hit → p.a = q.a → ¬ small → ¬ medium →
        Consumed s t p (flush ++ [0xFE, p.r, p.g, p.b]) 0) ∧
      (¬ hit → p.a ≠ q.a → Consumed s t p (flush ++ [0xFF, p.r, p.g, p.b, p.a]) 0) ∧
      (¬ hit → ∀ k, cacheLookup t.enc.cache k =
        if k = pixelHash p then p else cacheLookup s.enc.cache k)

/-- The encoder's end step: the eight marker bytes, E_DSTLEN, PHASE = DONE, nothing else; in a sound
state no run is pending then (R175). -/
def Obligations.EncoderEnd : Prop :=
  ∀ s : State, s.enc.phase = .atEnd →
    (s.regWf → s.enc.run = 0) ∧
    ∃ t, engineMove .enc s = .next t ∧
      (∀ off, Memory.read t.enc.dst off =
        if s.enc.wp ≤ off ∧ off < s.enc.wp + 8 then
          ([0, 0, 0, 0, 0, 0, 0, 1] : List Byte)[off - s.enc.wp]?
        else Memory.read s.enc.dst off) ∧
      t = { s with enc := { s.enc with
        wp := s.enc.wp + 8, dstLen := s.enc.wp + 8, phase := .done, dst := t.enc.dst } }

/-- The pixel differencer: exact integer differences in their ranges, and `small` implies `medium`
(R168). -/
def Obligations.DifferencesAreExact : Prop :=
  ∀ cur prev : Pixel,
    let d := differences cur prev
    d.dr = (cur.r.toNat : Int) - prev.r.toNat ∧ d.dg = (cur.g.toNat : Int) - prev.g.toNat ∧
    d.db = (cur.b.toNat : Int) - prev.b.toNat ∧ d.drg = d.dr - d.dg ∧ d.dbg = d.db - d.dg ∧
    (-255 ≤ d.dr ∧ d.dr ≤ 255) ∧ (-255 ≤ d.dg ∧ d.dg ≤ 255) ∧ (-255 ≤ d.db ∧ d.db ≤ 255) ∧
    (-510 ≤ d.drg ∧ d.drg ≤ 510) ∧ (-510 ≤ d.dbg ∧ d.dbg ≤ 510) ∧
    (d.small = true ↔ -2 ≤ d.dr ∧ d.dr ≤ 1 ∧ -2 ≤ d.dg ∧ d.dg ≤ 1 ∧ -2 ≤ d.db ∧ d.db ≤ 1) ∧
    (d.medium = true ↔
      -32 ≤ d.dg ∧ d.dg ≤ 31 ∧ -8 ≤ d.drg ∧ d.drg ≤ 7 ∧ -8 ≤ d.dbg ∧ d.dbg ≤ 7) ∧
    (d.small = true → d.medium = true)

/-- The encoder never emits a DIFF with three zero deltas, never an RGBA for a pixel of unchanged alpha
and never a difference chunk for one of changed alpha (R169, R172, R179). -/
def Obligations.EncoderChunkChoice : Prop :=
  ∀ cur prev : Pixel, cur ≠ prev →
    missChunk cur prev ≠ .diff 2 2 2 ∧
    (cur.a = prev.a → ∀ r g b a, missChunk cur prev ≠ .rgba r g b a) ∧
    (cur.a ≠ prev.a → missChunk cur prev = .rgba cur.r cur.g cur.b cur.a)

/-- In a three-channel call `prev.a` is 255 at every step boundary, every fetched pixel has alpha 255,
and so no RGBA chunk is emitted (R163). -/
def Obligations.ThreeChannelsNeverEmitRgba : Prop :=
  (∀ s t : State, s.enc.opaquePrev → step s = .next t → t.enc.opaquePrev) ∧
  (∀ (e : Engine) (p : Pixel), e.opaquePrev → e.phase = .pixels → e.channels = 3 →
    e.fetchPixel = p → p ≠ e.prev →
    p.a = 255 ∧ ∀ r g b a, missChunk p e.prev ≠ .rgba r g b a)

/-! ## Invariants that every step keeps -/

/-- Every buffer keeps its canonical form, whatever the step. The form, a list of the bytes written at
strictly rising offsets, is the model's own (log 1). -/
def Obligations.StepKeepsBufferForm : Prop :=
  ∀ s t : State, s.memWf → step s = .next t → t.memWf

/-- The registers stay sound: ERR is nonzero exactly in ERROR (R34); during a call `run` is at most 61
(R25), the channel count is 3 or 4, `i` runs up to N = WIDTH x HEIGHT and reaches it exactly at END
(R7, R28), the pointers are `i x CHANNELS` (R27), and the decoder's `rp` stays in the chunk region
(R207); after a decode call D_DSTLEN is WIDTH x HEIGHT x CHANNELS (R35). -/
def Obligations.StepKeepsRegistersSound : Prop :=
  ∀ s t : State, s.regWf → step s = .next t → t.regWf

/-- "for every slot k, cache[k] = (0,0,0,0) or hash(cache[k]) = k" at every step boundary of a call
(R149). -/
def Obligations.StepKeepsCacheKeyed : Prop :=
  ∀ s t : State, s.cacheWf → step s = .next t → t.cacheWf

/-- After reset both engines are in IDLE with ERR = 0 (R39), STATUS reads 0x00, nothing is under way, and
the three invariants hold. -/
def Obligations.ResetIsSound : Prop :=
  State.reset.enc.phase = .idle ∧ State.reset.enc.err = none ∧
  State.reset.dec.phase = .idle ∧ State.reset.dec.err = none ∧
  State.reset.enc.status = 0 ∧ State.reset.dec.status = 0 ∧
  State.reset.memWf ∧ State.reset.regWf ∧ State.reset.cacheWf ∧
  step State.reset = .next State.reset

/-! ## The host's side -/

/-- A read of STATUS: PHASE in bits 2:0, ERR in bits 5:3, bits 7:6 zero; the codes of R34; no other
code occurs, and ERR is nonzero exactly when PHASE is ERROR (R34). -/
def Obligations.HostReadsStatus : Prop :=
  ∀ (id : EngineId) (s : State), (s.engine id).errWf →
    ∃ v, hostRead id .status s = { s with heard := v :: s.heard } ∧ v < 64 ∧
      v % 8 = (match (s.engine id).phase with
        | .idle => 0 | .pixels => 1 | .atEnd => 2 | .done => 3 | .error => 4) ∧
      v / 8 = (match (s.engine id).err with
        | none => 0 | some .badMagic => 1 | some .truncated => 2 | some .corruptEndMarker => 3
        | some .invalidChannelCount => 4 | some .pixelBufferSizeMismatch => 5) ∧
      (v / 8 ≠ 0 ↔ v % 8 = 4)

/-- The host's register accesses: a write to a read-only register changes nothing, CTRL reads 0,
parameter writes and START are ignored during PIXELS and END, writing 0 to CTRL does nothing, and a
parameter written outside a call reads back and nothing else changes (R31, R32, R35). That a value wider
than the one-bit CTRL is judged by its bit 0 is the model's choice (log 12). -/
def Obligations.HostRegisterAccess : Prop :=
  ∀ (id : EngineId) (s : State) (r : Reg) (v : Nat),
    (r = .status ∨ r = .dstLen ∨
      id = .dec ∧ (r = .width ∨ r = .height ∨ r = .channels ∨ r = .colorspace) →
      hostWrite id r v s = .next s) ∧
    hostRead id .ctrl s = { s with heard := 0 :: s.heard } ∧
    ((s.engine id).phase = .pixels ∨ (s.engine id).phase = .atEnd → hostWrite id r v s = .next s) ∧
    (v % 2 = 0 → hostWrite id .ctrl v s = .next s) ∧
    (v % 2 = 1 → ¬ ((s.engine id).phase = .pixels ∨ (s.engine id).phase = .atEnd) →
      hostWrite id .ctrl v s = startMove id s) ∧
    (¬ ((s.engine id).phase = .pixels ∨ (s.engine id).phase = .atEnd) →
      ∃ t, hostWrite id .srcLen v s = .next t ∧
        t = s.setEngine id { s.engine id with srcLen := v } ∧
        hostRead id .srcLen t = { t with heard := v :: t.heard }) ∧
    (¬ (s.enc.phase = .pixels ∨ s.enc.phase = .atEnd) →
      (v < 2 ^ 32 → ∃ t, hostWrite .enc .width v s = .next t ∧
        t = { s with enc := { s.enc with width := t.enc.width } } ∧
        hostRead .enc .width t = { t with heard := v :: t.heard }) ∧
      (v < 2 ^ 32 → ∃ t, hostWrite .enc .height v s = .next t ∧
        t = { s with enc := { s.enc with height := t.enc.height } } ∧
        hostRead .enc .height t = { t with heard := v :: t.heard }) ∧
      (v < 2 ^ 8 → ∃ t, hostWrite .enc .channels v s = .next t ∧
        t = { s with enc := { s.enc with channels := t.enc.channels } } ∧
        hostRead .enc .channels t = { t with heard := v :: t.heard }) ∧
      (v < 2 ^ 8 → ∃ t, hostWrite .enc .colorspace v s = .next t ∧
        t = { s with enc := { s.enc with colorspace := t.enc.colorspace } } ∧
        hostRead .enc .colorspace t = { t with heard := v :: t.heard }))

/-- Results are void outside DONE: what the host's read of a result register or of a destination byte
returns then does not depend on what the engine holds there, whatever the free values are; in DONE the
register and the delivered bytes are returned (R35, R46, R261). That the void value is a free value of
the model is log 7. -/
def Obligations.ResultsAreVoidOutsideDone : Prop :=
  ∀ (id : EngineId) (s s' : State) (r : Reg) (off : Nat),
    (isResult id r = true → (s.engine id).phase ≠ .done → (s'.engine id).phase ≠ .done →
      (s'.engine id).fresh = (s.engine id).fresh →
      (hostRead id r s').heard.head? = (hostRead id r s).heard.head?) ∧
    ((s.engine id).phase ≠ .done → (s'.engine id).phase ≠ .done →
      (s'.engine id).fresh = (s.engine id).fresh →
      (hostReadDst id off s').heard.head? = (hostReadDst id off s).heard.head?) ∧
    ((s.engine id).phase = .done → hostRead id .dstLen s =
      { s with heard := (s.engine id).dstLen :: s.heard }) ∧
    (s.dec.phase = .done →
      hostRead .dec .width s = { s with heard := s.dec.width.toNat :: s.heard } ∧
      hostRead .dec .height s = { s with heard := s.dec.height.toNat :: s.heard } ∧
      hostRead .dec .channels s = { s with heard := s.dec.channels.toNat :: s.heard } ∧
      hostRead .dec .colorspace s = { s with heard := s.dec.colorspace.toNat :: s.heard }) ∧
    (∀ bytes, (s.engine id).delivers bytes → ∀ b, bytes[off]? = some b →
      hostReadDst id off s = { s with heard := b.toNat :: s.heard })

/-- The host has no access to `cur`, `prev`, `run`, `cache`, `i`, `rp`, `wp` or `N` (R40): whatever the
host does, START and reset among it, two states that differ only in those stay alike to the host. -/
def Obligations.HostCannotSeeHiddenState : Prop :=
  ∀ (op : HostOp) (s s' t : State), s.looksLike s' → hostMove op s = .next t →
    ∃ t', hostMove op s' = .next t' ∧ t.looksLike t'

/-- The host's other moves: placing bytes in a source buffer outside a call changes those bytes and
nothing else; during a call the model has no such move (93 U7); the reset input leaves PHASE = IDLE and
ERR = 0 and does not touch the other engine (R290). -/
def Obligations.HostPlacesAndResets : Prop :=
  ∀ (id : EngineId) (s : State) (off : Nat) (bytes : List Byte),
    (¬ ((s.engine id).phase = .pixels ∨ (s.engine id).phase = .atEnd) →
      ∃ m, hostMove (.placeSrc id off bytes) s =
          .next (s.setEngine id { s.engine id with src := m }) ∧
        ∀ x, Memory.read m x =
          if off ≤ x ∧ x < off + bytes.length then bytes[x - off]?
          else Memory.read (s.engine id).src x) ∧
    ((s.engine id).phase = .pixels ∨ (s.engine id).phase = .atEnd →
      hostMove (.placeSrc id off bytes) s = .refused (.sourceWriteDuringCall id)) ∧
    (∃ t, hostMove (.assertReset id) s = .next t ∧ (t.engine id).phase = .idle ∧
      (t.engine id).err = none ∧ ∀ id', id' ≠ id → t.engine id' = s.engine id')

/-! ## Whole-machine rules -/

/-- ENC and DEC share no state (R6, R20): a step or start step of one leaves the other, the agenda and
what was heard alone, and what it does depends on its own engine only. -/
def Obligations.EnginesShareNothing : Prop :=
  ∀ (id : EngineId) (f : EngineId → State → Host.Outcome State Fault Refusal),
    f = engineMove ∨ f = startMove →
    ∀ s t : State, f id s = .next t →
      (∀ id', id' ≠ id → t.engine id' = s.engine id') ∧ t.agenda = s.agenda ∧ t.heard = s.heard ∧
      ∀ s' : State, s'.engine id = s.engine id →
        ∃ t', f id s' = .next t' ∧ t'.engine id = t.engine id

/-- The order of a step of ENC and a step of DEC cannot be told: both orders reach the same states
(R6, R278). -/
def Obligations.EngineStepsCommute : Prop :=
  ∀ s u : State,
    (∃ t, engineMove .enc s = .next t ∧ engineMove .dec t = .next u) ↔
    (∃ t, engineMove .dec s = .next t ∧ engineMove .enc t = .next u)

/-- Which source bytes a decoder step reads: the start step offsets 0 to 13, a pixel step offsets from
`rp` on below `lim`, the end step the terminal eight. Changing any other byte changes nothing
(R61, R70, R225). -/
def Obligations.DecoderReadsOnlyItsWindow : Prop :=
  ∀ (s t : State) (m : Memory),
    let s' := s.setDec { s.dec with src := m }
    let t' := t.setDec { t.dec with src := m }
    (startMove .dec s = .next t →
      (∀ x, x < 14 → x < s.dec.srcLen → Memory.read m x = Memory.read s.dec.src x) →
      startMove .dec s' = .next t') ∧
    (s.dec.phase = .pixels → engineMove .dec s = .next t →
      (∀ x, s.dec.rp ≤ x → x < s.dec.srcLen - 8 → Memory.read m x = Memory.read s.dec.src x) →
      engineMove .dec s' = .next t') ∧
    (s.dec.phase = .atEnd → 8 ≤ s.dec.srcLen → engineMove .dec s = .next t →
      (∀ x, s.dec.srcLen - 8 ≤ x → x < s.dec.srcLen →
        Memory.read m x = Memory.read s.dec.src x) →
      engineMove .dec s' = .next t')

/-- No engine reads outside its buffer: from a sound state a step or start step of either engine answers
the same, but for that buffer, whatever stands in its source buffer at or beyond the length register
(R68, R70, R225). -/
def Obligations.NoReadOutsideTheBuffer : Prop :=
  ∀ (id : EngineId) (f : EngineId → State → Host.Outcome State Fault Refusal),
    f = engineMove ∨ f = startMove →
    ∀ (s t : State) (m : Memory), s.regWf → f id s = .next t →
      (∀ x, x < (s.engine id).srcLen → Memory.read m x = Memory.read (s.engine id).src x) →
      f id (s.setEngine id { s.engine id with src := m }) =
        .next (t.setEngine id { t.engine id with src := m })

/-- A call ends: from START, whatever the state it can be given in, one start step, N pixel steps and one
end step, N + 2 in all, leave the engine in DONE or ERROR; and an engine in PIXELS or END is there after
at most one step per remaining pixel and one more (R312). -/
def Obligations.EveryCallEnds : Prop :=
  (∀ (id : EngineId) (s : State),
    (s.engine id).phase = .idle ∨ (s.engine id).phase = .done ∨ (s.engine id).phase = .error →
    ∃ t u, hostMove (.writeReg id .ctrl 1) s = .next t ∧
      runAgenda s (.host (.writeReg id .ctrl 1) ::
        List.replicate ((t.engine id).n + 1) (.engine id)) = .next u ∧
      ((u.engine id).phase = .done ∨ (u.engine id).phase = .error)) ∧
  (∀ (id : EngineId) (s : State), s.regWf → (s.engine id).phase.running = true →
    ∃ t, runAgenda s (List.replicate ((s.engine id).n - (s.engine id).i + 1) (.engine id)) =
        .next t ∧
      ((t.engine id).phase = .done ∨ (t.engine id).phase = .error))

/-! ## Encoder and decoder together -/

/-- The execute rules invert the emit rules, pixel by pixel: when the decoder holds the encoder's `prev`
and cache and executes the chunk the encoder emits for a pixel that differs from `prev`, it produces
that pixel and both hold equal `prev` and cache afterwards (R224). -/
def Obligations.ExecuteInvertsEmit : Prop :=
  ∀ (s : State) (e : Engine) (p : Pixel), e.prev = s.dec.prev → e.cache = s.dec.cache →
    p ≠ e.prev →
    ∃ t, exec (if e.hits p then indexChunk (pixelHash p) else missChunk p e.prev) s = .next t ∧
      t.dec.cur = p ∧ t.dec.prev = (e.codePixel p).prev ∧ t.dec.cache = (e.codePixel p).cache

/-- The round trip: for any pixel buffer with 3 or 4 channels, an encode call delivers a stream and a
decode call of that stream delivers the header fields and the samples, from any states in which the two
engines can be started (R15, R224). -/
def Obligations.RoundTrip : Prop :=
  ∀ (s s' : State) (samples : List Byte) (w h : Word32) (c cs : Byte),
    s.enc.phase.running = false → s'.dec.phase.running = false → c = 3 ∨ c = 4 →
    samples.length = w.toNat * h.toNat * c.toNat →
    ∃ stream, Encodes s samples w h c cs stream ∧ Decodes s' stream w h c cs samples

/-- Lock-step: after the decoder's pixel step and the encoder's pixel step of the same number the two
engines hold equal `prev` and equal cache, all 64 slots (R150). -/
def Obligations.CachesInLockStep : Prop :=
  ∀ (s s' : State) (samples stream : List Byte) (w h : Word32) (c cs : Byte) (j : Nat) (t t' : State),
    s.enc.phase.running = false → s'.dec.phase.running = false →
    Encodes s samples w h c cs stream → j ≤ w.toNat * h.toNat →
    runAgenda s ((encodeAgenda samples w h c cs).take (7 + j)) = .next t →
    runAgenda s' ((decodeAgenda stream (w.toNat * h.toNat)).take (3 + j)) = .next t' →
    t'.dec.prev = t.enc.prev ∧ t'.dec.cache = t.enc.cache

/-- Every proper prefix of a stream the encoder produced is reported as Truncated (R223). -/
def Obligations.EveryPrefixIsTruncated : Prop :=
  ∀ (s s' : State) (samples stream : List Byte) (w h : Word32) (c cs : Byte) (k : Nat),
    s.enc.phase.running = false → s'.dec.phase.running = false →
    Encodes s samples w h c cs stream → k < stream.length →
    ∃ t, runAgenda s' (decodeAgenda (stream.take k) (w.toNat * h.toNat)) = .next t ∧
      t.dec.phase = .error ∧ t.dec.err = some .truncated

/-- The size of the output: at most 22 + 5 N bytes, at most 22 + 4 N with three channels (R176). -/
def Obligations.StreamSizeBound : Prop :=
  ∀ (s : State) (samples stream : List Byte) (w h : Word32) (c cs : Byte),
    s.enc.phase.running = false → Encodes s samples w h c cs stream →
    stream.length ≤ 22 + 5 * (w.toNat * h.toNat) ∧
    (c = 3 → stream.length ≤ 22 + 4 * (w.toNat * h.toNat))

/-- An image of N >= 1 pixels (0,0,0,255), of three or four channels, is ceil(N / 62) RUN chunks and
nothing else: every one but the last has field 61, the last has (N - 1) mod 62 (R177). -/
def Obligations.BlackImageIsRunsOnly : Prop :=
  ∀ (s : State) (w h : Word32) (c cs : Byte),
    s.enc.phase.running = false → c = 3 ∨ c = 4 → 0 < w.toNat * h.toNat →
    Encodes s (uniformSamples ⟨0, 0, 0, 255⟩ c.toNat (w.toNat * h.toNat)) w h c cs
      (encode (.header w h c cs) ++ runBytes (w.toNat * h.toNat) ++ [0, 0, 0, 0, 0, 0, 0, 1]) ∧
    (runBytes (w.toNat * h.toNat)).length = (w.toNat * h.toNat + 61) / 62

/-- An image of N >= 1 pixels all equal to p, where p is not (0,0,0,255), is one chunk that is no RUN for
the first pixel and then ceil((N - 1) / 62) RUN chunks, none when N = 1; the first chunk is INDEX 0 for
(0,0,0,0), which a fresh cache holds, else what the differences from (0,0,0,255) give (R177). -/
def Obligations.UniformImageIsOneChunkThenRuns : Prop :=
  ∀ (s : State) (p : Pixel) (w h : Word32) (c cs : Byte),
    s.enc.phase.running = false → c = 3 ∧ p.a = 255 ∨ c = 4 → p ≠ ⟨0, 0, 0, 255⟩ →
    0 < w.toNat * h.toNat →
    ∃ first : Instr, first.position = .chunk ∧ (∀ f, first ≠ .run f) ∧
      first = (if p = ⟨0, 0, 0, 0⟩ then .index 0 else missChunk p ⟨0, 0, 0, 255⟩) ∧
      Encodes s (uniformSamples p c.toNat (w.toNat * h.toNat)) w h c cs
        (encode (.header w h c cs) ++ encode first ++ runBytes (w.toNat * h.toNat - 1) ++
          [0, 0, 0, 0, 0, 0, 0, 1]) ∧
      (runBytes (w.toNat * h.toNat - 1)).length = (w.toNat * h.toNat - 1 + 61) / 62
end

