-- ==== Sys2Proof/Laws/State.lean ====
section
/-! SUPPORT. What each update of an engine or of the state does to each field, by rfl: no proof has to
unfold a record update. -/

namespace Sys2Proof.Machine

variable (e : Engine) (s : State)


/-! ### `Engine.raise` -/

@[simp] theorem Engine.raise_phase (k : ErrorKind) : (e.raise k).phase = .error := rfl
@[simp] theorem Engine.raise_err (k : ErrorKind) : (e.raise k).err = some k := rfl
@[simp] theorem Engine.raise_width (k : ErrorKind) : (e.raise k).width = e.width := rfl
@[simp] theorem Engine.raise_height (k : ErrorKind) : (e.raise k).height = e.height := rfl
@[simp] theorem Engine.raise_channels (k : ErrorKind) : (e.raise k).channels = e.channels := rfl
@[simp] theorem Engine.raise_colorspace (k : ErrorKind) : (e.raise k).colorspace = e.colorspace := rfl
@[simp] theorem Engine.raise_srcLen (k : ErrorKind) : (e.raise k).srcLen = e.srcLen := rfl
@[simp] theorem Engine.raise_dstLen (k : ErrorKind) : (e.raise k).dstLen = e.dstLen := rfl
@[simp] theorem Engine.raise_cur (k : ErrorKind) : (e.raise k).cur = e.cur := rfl
@[simp] theorem Engine.raise_prev (k : ErrorKind) : (e.raise k).prev = e.prev := rfl
@[simp] theorem Engine.raise_run (k : ErrorKind) : (e.raise k).run = e.run := rfl
@[simp] theorem Engine.raise_i (k : ErrorKind) : (e.raise k).i = e.i := rfl
@[simp] theorem Engine.raise_n (k : ErrorKind) : (e.raise k).n = e.n := rfl
@[simp] theorem Engine.raise_rp (k : ErrorKind) : (e.raise k).rp = e.rp := rfl
@[simp] theorem Engine.raise_wp (k : ErrorKind) : (e.raise k).wp = e.wp := rfl
@[simp] theorem Engine.raise_cache (k : ErrorKind) : (e.raise k).cache = e.cache := rfl
@[simp] theorem Engine.raise_src (k : ErrorKind) : (e.raise k).src = e.src := rfl
@[simp] theorem Engine.raise_dst (k : ErrorKind) : (e.raise k).dst = e.dst := rfl
@[simp] theorem Engine.raise_fresh (k : ErrorKind) : (e.raise k).fresh = e.fresh := rfl

/-! ### `Engine.advance` -/

@[simp] theorem Engine.advance_phase (len : Nat) : (e.advance len).phase = e.phase := rfl
@[simp] theorem Engine.advance_err (len : Nat) : (e.advance len).err = e.err := rfl
@[simp] theorem Engine.advance_width (len : Nat) : (e.advance len).width = e.width := rfl
@[simp] theorem Engine.advance_height (len : Nat) : (e.advance len).height = e.height := rfl
@[simp] theorem Engine.advance_channels (len : Nat) : (e.advance len).channels = e.channels := rfl
@[simp] theorem Engine.advance_colorspace (len : Nat) : (e.advance len).colorspace = e.colorspace := rfl
@[simp] theorem Engine.advance_srcLen (len : Nat) : (e.advance len).srcLen = e.srcLen := rfl
@[simp] theorem Engine.advance_dstLen (len : Nat) : (e.advance len).dstLen = e.dstLen := rfl
@[simp] theorem Engine.advance_cur (len : Nat) : (e.advance len).cur = e.cur := rfl
@[simp] theorem Engine.advance_prev (len : Nat) : (e.advance len).prev = e.prev := rfl
@[simp] theorem Engine.advance_run (len : Nat) : (e.advance len).run = e.run := rfl
@[simp] theorem Engine.advance_i (len : Nat) : (e.advance len).i = e.i := rfl
@[simp] theorem Engine.advance_n (len : Nat) : (e.advance len).n = e.n := rfl
@[simp] theorem Engine.advance_rp (len : Nat) : (e.advance len).rp = e.rp + len := rfl
@[simp] theorem Engine.advance_wp (len : Nat) : (e.advance len).wp = e.wp := rfl
@[simp] theorem Engine.advance_cache (len : Nat) : (e.advance len).cache = e.cache := rfl
@[simp] theorem Engine.advance_src (len : Nat) : (e.advance len).src = e.src := rfl
@[simp] theorem Engine.advance_dst (len : Nat) : (e.advance len).dst = e.dst := rfl
@[simp] theorem Engine.advance_fresh (len : Nat) : (e.advance len).fresh = e.fresh := rfl

/-! ### `Engine.remember` -/

@[simp] theorem Engine.remember_phase (p : Pixel) : (e.remember p).phase = e.phase := rfl
@[simp] theorem Engine.remember_err (p : Pixel) : (e.remember p).err = e.err := rfl
@[simp] theorem Engine.remember_width (p : Pixel) : (e.remember p).width = e.width := rfl
@[simp] theorem Engine.remember_height (p : Pixel) : (e.remember p).height = e.height := rfl
@[simp] theorem Engine.remember_channels (p : Pixel) : (e.remember p).channels = e.channels := rfl
@[simp] theorem Engine.remember_colorspace (p : Pixel) : (e.remember p).colorspace = e.colorspace := rfl
@[simp] theorem Engine.remember_srcLen (p : Pixel) : (e.remember p).srcLen = e.srcLen := rfl
@[simp] theorem Engine.remember_dstLen (p : Pixel) : (e.remember p).dstLen = e.dstLen := rfl
@[simp] theorem Engine.remember_cur (p : Pixel) : (e.remember p).cur = e.cur := rfl
@[simp] theorem Engine.remember_prev (p : Pixel) : (e.remember p).prev = e.prev := rfl
@[simp] theorem Engine.remember_run (p : Pixel) : (e.remember p).run = e.run := rfl
@[simp] theorem Engine.remember_i (p : Pixel) : (e.remember p).i = e.i := rfl
@[simp] theorem Engine.remember_n (p : Pixel) : (e.remember p).n = e.n := rfl
@[simp] theorem Engine.remember_rp (p : Pixel) : (e.remember p).rp = e.rp := rfl
@[simp] theorem Engine.remember_wp (p : Pixel) : (e.remember p).wp = e.wp := rfl
@[simp] theorem Engine.remember_cache (p : Pixel) : (e.remember p).cache = cacheStore e.cache (pixelHash p) p := rfl
@[simp] theorem Engine.remember_src (p : Pixel) : (e.remember p).src = e.src := rfl
@[simp] theorem Engine.remember_dst (p : Pixel) : (e.remember p).dst = e.dst := rfl
@[simp] theorem Engine.remember_fresh (p : Pixel) : (e.remember p).fresh = e.fresh := rfl

/-! ### `Engine.out` -/

@[simp] theorem Engine.out_phase (p : Pixel) : (e.out p).phase = e.phase := rfl
@[simp] theorem Engine.out_err (p : Pixel) : (e.out p).err = e.err := rfl
@[simp] theorem Engine.out_width (p : Pixel) : (e.out p).width = e.width := rfl
@[simp] theorem Engine.out_height (p : Pixel) : (e.out p).height = e.height := rfl
@[simp] theorem Engine.out_channels (p : Pixel) : (e.out p).channels = e.channels := rfl
@[simp] theorem Engine.out_colorspace (p : Pixel) : (e.out p).colorspace = e.colorspace := rfl
@[simp] theorem Engine.out_srcLen (p : Pixel) : (e.out p).srcLen = e.srcLen := rfl
@[simp] theorem Engine.out_dstLen (p : Pixel) : (e.out p).dstLen = e.dstLen := rfl
@[simp] theorem Engine.out_cur (p : Pixel) : (e.out p).cur = e.cur := rfl
@[simp] theorem Engine.out_prev (p : Pixel) : (e.out p).prev = e.prev := rfl
@[simp] theorem Engine.out_run (p : Pixel) : (e.out p).run = e.run := rfl
@[simp] theorem Engine.out_i (p : Pixel) : (e.out p).i = e.i := rfl
@[simp] theorem Engine.out_n (p : Pixel) : (e.out p).n = e.n := rfl
@[simp] theorem Engine.out_rp (p : Pixel) : (e.out p).rp = e.rp := rfl
@[simp] theorem Engine.out_wp (p : Pixel) : (e.out p).wp = e.wp + e.channels.toNat := rfl
@[simp] theorem Engine.out_cache (p : Pixel) : (e.out p).cache = e.cache := rfl
@[simp] theorem Engine.out_src (p : Pixel) : (e.out p).src = e.src := rfl
@[simp] theorem Engine.out_dst (p : Pixel) : (e.out p).dst = Memory.writeList e.dst e.wp ((samples p).take e.channels.toNat) := rfl
@[simp] theorem Engine.out_fresh (p : Pixel) : (e.out p).fresh = e.fresh := rfl

/-! ### `Engine.nextPixel` -/

@[simp] theorem Engine.nextPixel_phase : e.nextPixel.phase = if e.i + 1 = e.n then .atEnd else e.phase := rfl
@[simp] theorem Engine.nextPixel_err : e.nextPixel.err = e.err := rfl
@[simp] theorem Engine.nextPixel_width : e.nextPixel.width = e.width := rfl
@[simp] theorem Engine.nextPixel_height : e.nextPixel.height = e.height := rfl
@[simp] theorem Engine.nextPixel_channels : e.nextPixel.channels = e.channels := rfl
@[simp] theorem Engine.nextPixel_colorspace : e.nextPixel.colorspace = e.colorspace := rfl
@[simp] theorem Engine.nextPixel_srcLen : e.nextPixel.srcLen = e.srcLen := rfl
@[simp] theorem Engine.nextPixel_dstLen : e.nextPixel.dstLen = e.dstLen := rfl
@[simp] theorem Engine.nextPixel_cur : e.nextPixel.cur = e.cur := rfl
@[simp] theorem Engine.nextPixel_prev : e.nextPixel.prev = e.prev := rfl
@[simp] theorem Engine.nextPixel_run : e.nextPixel.run = e.run := rfl
@[simp] theorem Engine.nextPixel_i : e.nextPixel.i = e.i + 1 := rfl
@[simp] theorem Engine.nextPixel_n : e.nextPixel.n = e.n := rfl
@[simp] theorem Engine.nextPixel_rp : e.nextPixel.rp = e.rp := rfl
@[simp] theorem Engine.nextPixel_wp : e.nextPixel.wp = e.wp := rfl
@[simp] theorem Engine.nextPixel_cache : e.nextPixel.cache = e.cache := rfl
@[simp] theorem Engine.nextPixel_src : e.nextPixel.src = e.src := rfl
@[simp] theorem Engine.nextPixel_dst : e.nextPixel.dst = e.dst := rfl
@[simp] theorem Engine.nextPixel_fresh : e.nextPixel.fresh = e.fresh := rfl

/-! ### `Engine.produce` -/

@[simp] theorem Engine.produce_phase (p : Pixel) : (e.produce p).phase = if e.i + 1 = e.n then .atEnd else e.phase := rfl
@[simp] theorem Engine.produce_err (p : Pixel) : (e.produce p).err = e.err := rfl
@[simp] theorem Engine.produce_width (p : Pixel) : (e.produce p).width = e.width := rfl
@[simp] theorem Engine.produce_height (p : Pixel) : (e.produce p).height = e.height := rfl
@[simp] theorem Engine.produce_channels (p : Pixel) : (e.produce p).channels = e.channels := rfl
@[simp] theorem Engine.produce_colorspace (p : Pixel) : (e.produce p).colorspace = e.colorspace := rfl
@[simp] theorem Engine.produce_srcLen (p : Pixel) : (e.produce p).srcLen = e.srcLen := rfl
@[simp] theorem Engine.produce_dstLen (p : Pixel) : (e.produce p).dstLen = e.dstLen := rfl
@[simp] theorem Engine.produce_cur (p : Pixel) : (e.produce p).cur = p := rfl
@[simp] theorem Engine.produce_prev (p : Pixel) : (e.produce p).prev = p := rfl
@[simp] theorem Engine.produce_run (p : Pixel) : (e.produce p).run = e.run := rfl
@[simp] theorem Engine.produce_i (p : Pixel) : (e.produce p).i = e.i + 1 := rfl
@[simp] theorem Engine.produce_n (p : Pixel) : (e.produce p).n = e.n := rfl
@[simp] theorem Engine.produce_rp (p : Pixel) : (e.produce p).rp = e.rp := rfl
@[simp] theorem Engine.produce_wp (p : Pixel) : (e.produce p).wp = e.wp + e.channels.toNat := rfl
@[simp] theorem Engine.produce_cache (p : Pixel) : (e.produce p).cache = e.cache := rfl
@[simp] theorem Engine.produce_src (p : Pixel) : (e.produce p).src = e.src := rfl
@[simp] theorem Engine.produce_dst (p : Pixel) : (e.produce p).dst = Memory.writeList e.dst e.wp ((samples p).take e.channels.toNat) := rfl
@[simp] theorem Engine.produce_fresh (p : Pixel) : (e.produce p).fresh = e.fresh := rfl

/-! ### `Engine.produceCoded` -/

@[simp] theorem Engine.produceCoded_phase (len : Nat) (p : Pixel) : (e.produceCoded len p).phase = if e.i + 1 = e.n then .atEnd else e.phase := rfl
@[simp] theorem Engine.produceCoded_err (len : Nat) (p : Pixel) : (e.produceCoded len p).err = e.err := rfl
@[simp] theorem Engine.produceCoded_width (len : Nat) (p : Pixel) : (e.produceCoded len p).width = e.width := rfl
@[simp] theorem Engine.produceCoded_height (len : Nat) (p : Pixel) : (e.produceCoded len p).height = e.height := rfl
@[simp] theorem Engine.produceCoded_channels (len : Nat) (p : Pixel) : (e.produceCoded len p).channels = e.channels := rfl
@[simp] theorem Engine.produceCoded_colorspace (len : Nat) (p : Pixel) : (e.produceCoded len p).colorspace = e.colorspace := rfl
@[simp] theorem Engine.produceCoded_srcLen (len : Nat) (p : Pixel) : (e.produceCoded len p).srcLen = e.srcLen := rfl
@[simp] theorem Engine.produceCoded_dstLen (len : Nat) (p : Pixel) : (e.produceCoded len p).dstLen = e.dstLen := rfl
@[simp] theorem Engine.produceCoded_cur (len : Nat) (p : Pixel) : (e.produceCoded len p).cur = p := rfl
@[simp] theorem Engine.produceCoded_prev (len : Nat) (p : Pixel) : (e.produceCoded len p).prev = p := rfl
@[simp] theorem Engine.produceCoded_run (len : Nat) (p : Pixel) : (e.produceCoded len p).run = e.run := rfl
@[simp] theorem Engine.produceCoded_i (len : Nat) (p : Pixel) : (e.produceCoded len p).i = e.i + 1 := rfl
@[simp] theorem Engine.produceCoded_n (len : Nat) (p : Pixel) : (e.produceCoded len p).n = e.n := rfl
@[simp] theorem Engine.produceCoded_rp (len : Nat) (p : Pixel) : (e.produceCoded len p).rp = e.rp + len := rfl
@[simp] theorem Engine.produceCoded_wp (len : Nat) (p : Pixel) : (e.produceCoded len p).wp = e.wp + e.channels.toNat := rfl
@[simp] theorem Engine.produceCoded_cache (len : Nat) (p : Pixel) : (e.produceCoded len p).cache = cacheStore e.cache (pixelHash p) p := rfl
@[simp] theorem Engine.produceCoded_src (len : Nat) (p : Pixel) : (e.produceCoded len p).src = e.src := rfl
@[simp] theorem Engine.produceCoded_dst (len : Nat) (p : Pixel) : (e.produceCoded len p).dst = Memory.writeList e.dst e.wp ((samples p).take e.channels.toNat) := rfl
@[simp] theorem Engine.produceCoded_fresh (len : Nat) (p : Pixel) : (e.produceCoded len p).fresh = e.fresh := rfl

/-! ### `Engine.emitBytes` -/

@[simp] theorem Engine.emitBytes_phase (bs : List Byte) : (e.emitBytes bs).phase = e.phase := rfl
@[simp] theorem Engine.emitBytes_err (bs : List Byte) : (e.emitBytes bs).err = e.err := rfl
@[simp] theorem Engine.emitBytes_width (bs : List Byte) : (e.emitBytes bs).width = e.width := rfl
@[simp] theorem Engine.emitBytes_height (bs : List Byte) : (e.emitBytes bs).height = e.height := rfl
@[simp] theorem Engine.emitBytes_channels (bs : List Byte) : (e.emitBytes bs).channels = e.channels := rfl
@[simp] theorem Engine.emitBytes_colorspace (bs : List Byte) : (e.emitBytes bs).colorspace = e.colorspace := rfl
@[simp] theorem Engine.emitBytes_srcLen (bs : List Byte) : (e.emitBytes bs).srcLen = e.srcLen := rfl
@[simp] theorem Engine.emitBytes_dstLen (bs : List Byte) : (e.emitBytes bs).dstLen = e.dstLen := rfl
@[simp] theorem Engine.emitBytes_cur (bs : List Byte) : (e.emitBytes bs).cur = e.cur := rfl
@[simp] theorem Engine.emitBytes_prev (bs : List Byte) : (e.emitBytes bs).prev = e.prev := rfl
@[simp] theorem Engine.emitBytes_run (bs : List Byte) : (e.emitBytes bs).run = e.run := rfl
@[simp] theorem Engine.emitBytes_i (bs : List Byte) : (e.emitBytes bs).i = e.i := rfl
@[simp] theorem Engine.emitBytes_n (bs : List Byte) : (e.emitBytes bs).n = e.n := rfl
@[simp] theorem Engine.emitBytes_rp (bs : List Byte) : (e.emitBytes bs).rp = e.rp := rfl
@[simp] theorem Engine.emitBytes_wp (bs : List Byte) : (e.emitBytes bs).wp = e.wp + bs.length := rfl
@[simp] theorem Engine.emitBytes_cache (bs : List Byte) : (e.emitBytes bs).cache = e.cache := rfl
@[simp] theorem Engine.emitBytes_src (bs : List Byte) : (e.emitBytes bs).src = e.src := rfl
@[simp] theorem Engine.emitBytes_dst (bs : List Byte) : (e.emitBytes bs).dst = Memory.writeList e.dst e.wp bs := rfl
@[simp] theorem Engine.emitBytes_fresh (bs : List Byte) : (e.emitBytes bs).fresh = e.fresh := rfl

/-! ### `Engine.emit` -/

@[simp] theorem Engine.emit_phase (c : Instr) : (e.emit c).phase = e.phase := rfl
@[simp] theorem Engine.emit_err (c : Instr) : (e.emit c).err = e.err := rfl
@[simp] theorem Engine.emit_width (c : Instr) : (e.emit c).width = e.width := rfl
@[simp] theorem Engine.emit_height (c : Instr) : (e.emit c).height = e.height := rfl
@[simp] theorem Engine.emit_channels (c : Instr) : (e.emit c).channels = e.channels := rfl
@[simp] theorem Engine.emit_colorspace (c : Instr) : (e.emit c).colorspace = e.colorspace := rfl
@[simp] theorem Engine.emit_srcLen (c : Instr) : (e.emit c).srcLen = e.srcLen := rfl
@[simp] theorem Engine.emit_dstLen (c : Instr) : (e.emit c).dstLen = e.dstLen := rfl
@[simp] theorem Engine.emit_cur (c : Instr) : (e.emit c).cur = e.cur := rfl
@[simp] theorem Engine.emit_prev (c : Instr) : (e.emit c).prev = e.prev := rfl
@[simp] theorem Engine.emit_run (c : Instr) : (e.emit c).run = e.run := rfl
@[simp] theorem Engine.emit_i (c : Instr) : (e.emit c).i = e.i := rfl
@[simp] theorem Engine.emit_n (c : Instr) : (e.emit c).n = e.n := rfl
@[simp] theorem Engine.emit_rp (c : Instr) : (e.emit c).rp = e.rp := rfl
@[simp] theorem Engine.emit_wp (c : Instr) : (e.emit c).wp = e.wp + (encode c).length := rfl
@[simp] theorem Engine.emit_cache (c : Instr) : (e.emit c).cache = e.cache := rfl
@[simp] theorem Engine.emit_src (c : Instr) : (e.emit c).src = e.src := rfl
@[simp] theorem Engine.emit_dst (c : Instr) : (e.emit c).dst = Memory.writeList e.dst e.wp (encode c) := rfl
@[simp] theorem Engine.emit_fresh (c : Instr) : (e.emit c).fresh = e.fresh := rfl

/-! ### `Engine.flush` -/

@[simp] theorem Engine.flush_phase : e.flush.phase = e.phase := rfl
@[simp] theorem Engine.flush_err : e.flush.err = e.err := rfl
@[simp] theorem Engine.flush_width : e.flush.width = e.width := rfl
@[simp] theorem Engine.flush_height : e.flush.height = e.height := rfl
@[simp] theorem Engine.flush_channels : e.flush.channels = e.channels := rfl
@[simp] theorem Engine.flush_colorspace : e.flush.colorspace = e.colorspace := rfl
@[simp] theorem Engine.flush_srcLen : e.flush.srcLen = e.srcLen := rfl
@[simp] theorem Engine.flush_dstLen : e.flush.dstLen = e.dstLen := rfl
@[simp] theorem Engine.flush_cur : e.flush.cur = e.cur := rfl
@[simp] theorem Engine.flush_prev : e.flush.prev = e.prev := rfl
@[simp] theorem Engine.flush_run : e.flush.run = 0 := rfl
@[simp] theorem Engine.flush_i : e.flush.i = e.i := rfl
@[simp] theorem Engine.flush_n : e.flush.n = e.n := rfl
@[simp] theorem Engine.flush_rp : e.flush.rp = e.rp := rfl
@[simp] theorem Engine.flush_wp : e.flush.wp = e.wp + 1 := rfl
@[simp] theorem Engine.flush_cache : e.flush.cache = e.cache := rfl
@[simp] theorem Engine.flush_src : e.flush.src = e.src := rfl
@[simp] theorem Engine.flush_dst : e.flush.dst = Memory.writeList e.dst e.wp (encode (.run (e.run - 1))) := rfl
@[simp] theorem Engine.flush_fresh : e.flush.fresh = e.fresh := rfl

/-! ### `Engine.draw` -/

@[simp] theorem Engine.draw_phase : e.draw.phase = e.phase := rfl
@[simp] theorem Engine.draw_err : e.draw.err = e.err := rfl
@[simp] theorem Engine.draw_width : e.draw.width = e.width := rfl
@[simp] theorem Engine.draw_height : e.draw.height = e.height := rfl
@[simp] theorem Engine.draw_channels : e.draw.channels = e.channels := rfl
@[simp] theorem Engine.draw_colorspace : e.draw.colorspace = e.colorspace := rfl
@[simp] theorem Engine.draw_srcLen : e.draw.srcLen = e.srcLen := rfl
@[simp] theorem Engine.draw_dstLen : e.draw.dstLen = e.dstLen := rfl
@[simp] theorem Engine.draw_cur : e.draw.cur = e.cur := rfl
@[simp] theorem Engine.draw_prev : e.draw.prev = e.prev := rfl
@[simp] theorem Engine.draw_run : e.draw.run = e.run := rfl
@[simp] theorem Engine.draw_i : e.draw.i = e.i := rfl
@[simp] theorem Engine.draw_n : e.draw.n = e.n := rfl
@[simp] theorem Engine.draw_rp : e.draw.rp = e.rp := rfl
@[simp] theorem Engine.draw_wp : e.draw.wp = e.wp := rfl
@[simp] theorem Engine.draw_cache : e.draw.cache = e.cache := rfl
@[simp] theorem Engine.draw_src : e.draw.src = e.src := rfl
@[simp] theorem Engine.draw_dst : e.draw.dst = e.dst := rfl
@[simp] theorem Engine.draw_fresh : e.draw.fresh = e.fresh + 1 := rfl

/-! ### The two engines and the host's ear -/

@[simp] theorem State.setDec_dec (d : Engine) : (s.setDec d).dec = d := rfl
@[simp] theorem State.setDec_enc (d : Engine) : (s.setDec d).enc = s.enc := rfl
@[simp] theorem State.setDec_agenda (d : Engine) : (s.setDec d).agenda = s.agenda := rfl
@[simp] theorem State.setDec_heard (d : Engine) : (s.setDec d).heard = s.heard := rfl
@[simp] theorem State.setDec_setDec (d d' : Engine) : (s.setDec d).setDec d' = s.setDec d' := rfl
@[simp] theorem State.setDec_self : s.setDec s.dec = s := rfl
@[simp] theorem State.setEnc_enc (d : Engine) : (s.setEnc d).enc = d := rfl
@[simp] theorem State.setEnc_dec (d : Engine) : (s.setEnc d).dec = s.dec := rfl
@[simp] theorem State.setEnc_agenda (d : Engine) : (s.setEnc d).agenda = s.agenda := rfl
@[simp] theorem State.setEnc_heard (d : Engine) : (s.setEnc d).heard = s.heard := rfl
@[simp] theorem State.setEnc_setEnc (d d' : Engine) : (s.setEnc d).setEnc d' = s.setEnc d' := rfl
@[simp] theorem State.setEnc_self : s.setEnc s.enc = s := rfl
theorem State.setEnc_setDec (d d' : Engine) : (s.setDec d).setEnc d' = (s.setEnc d').setDec d := rfl
@[simp] theorem State.engine_enc : s.engine .enc = s.enc := rfl
@[simp] theorem State.engine_dec : s.engine .dec = s.dec := rfl
@[simp] theorem State.setEngine_enc (d : Engine) : s.setEngine .enc d = s.setEnc d := rfl
@[simp] theorem State.setEngine_dec (d : Engine) : s.setEngine .dec d = s.setDec d := rfl
@[simp] theorem State.hear_enc (v : Nat) : (s.hear v).enc = s.enc := rfl
@[simp] theorem State.hear_dec (v : Nat) : (s.hear v).dec = s.dec := rfl
@[simp] theorem State.hear_agenda (v : Nat) : (s.hear v).agenda = s.agenda := rfl
@[simp] theorem State.hear_heard (v : Nat) : (s.hear v).heard = v :: s.heard := rfl

/-- The engine of a name after an engine was replaced. -/
theorem State.engine_setEngine (id id' : EngineId) (d : Engine) :
    (s.setEngine id d).engine id' = if id' = id then d else s.engine id' := by
  cases id <;> cases id' <;> rfl

@[simp] theorem State.setEngine_agenda (id : EngineId) (d : Engine) :
    (s.setEngine id d).agenda = s.agenda := by cases id <;> rfl

@[simp] theorem State.setEngine_heard (id : EngineId) (d : Engine) :
    (s.setEngine id d).heard = s.heard := by cases id <;> rfl

end Sys2Proof.Machine
end

