-- ==== Sys2Proof/Laws/Cache.lean ====
section
/-! SUPPORT. The pixel cache and its hash. -/

namespace Sys2Proof.Machine

/-- The hash as a number (R140). -/
theorem pixelHash_toNat (p : Pixel) :
    (pixelHash p).toNat =
      (p.r.toNat * 3 + p.g.toNat * 5 + p.b.toNat * 7 + p.a.toNat * 11) % 64 := by
  simp [pixelHash, BitVec.toNat_ofNat]

/-- A store changes its own slot and no other (R144). -/
theorem cacheLookup_cacheStore (c : Cache) (k : Slot) (p : Pixel) (k' : Slot) :
    cacheLookup (cacheStore c k p) k' = if k' = k then p else cacheLookup c k' := by
  have hk : k.toNat = k'.toNat ↔ k' = k := by
    rw [eq_comm, BitVec.toNat_inj]
  simp only [cacheLookup, cacheStore, Vector.get_eq_getElem, Vector.getElem_set]
  simp only [hk]

@[simp] theorem cacheLookup_cacheStore_same (c : Cache) (k : Slot) (p : Pixel) :
    cacheLookup (cacheStore c k p) k = p := by simp [cacheLookup_cacheStore]

/-- Every slot of the cleared cache holds (0,0,0,0) (R146). -/
@[simp] theorem cacheLookup_cacheInit (k : Slot) :
    cacheLookup Config.cacheInit k = Config.slotInit := by
  simp [cacheLookup, Config.cacheInit, Vector.get_eq_getElem]

/-- Two caches with equal slots are equal. -/
theorem cache_ext {c c' : Cache} (h : ∀ k : Slot, cacheLookup c k = cacheLookup c' k) : c = c' := by
  refine Vector.ext fun j hj => ?_
  have hj' : (BitVec.ofNat 6 j).toNat = j := by
    simp only [BitVec.toNat_ofNat]; omega
  have := h (BitVec.ofNat 6 j)
  simpa only [cacheLookup, Vector.get_eq_getElem, hj'] using this

/-- A store of a pixel that already sits in its slot changes nothing (R148). -/
theorem cacheStore_lookup_self (c : Cache) (k : Slot) : cacheStore c k (cacheLookup c k) = c :=
  cache_ext fun k' => by rw [cacheLookup_cacheStore]; split_ifs with h <;> simp [h]

/-- A store at its own hash keeps every slot keyed (R149). -/
theorem remember_cacheWf {e : Engine} (h : e.cacheWf) (p : Pixel) : (e.remember p).cacheWf := by
  intro k
  simp only [Engine.remember_cache, cacheLookup_cacheStore]
  split_ifs with hk
  · exact .inr hk.symm
  · exact h k

/-- The cleared cache is keyed (R146, R149). -/
theorem cacheInit_cacheWf {e : Engine} (h : e.cache = Config.cacheInit) : e.cacheWf :=
  fun k => .inl (by rw [h, cacheLookup_cacheInit])

end Sys2Proof.Machine
end

