-- ==== Sys2Proof/Laws/Codec.lean ====
section
/-! SUPPORT. The encoder and the decoder of instructions: lengths, header words, bytes as numbers. -/

namespace Sys2Proof

/-! ### Header words -/

/-- The header word of four bytes as a number (R13). -/
theorem unbe32_toNat (b0 b1 b2 b3 : Byte) :
    (unbe32 b0 b1 b2 b3).toNat =
      b0.toNat * 2 ^ 24 + b1.toNat * 2 ^ 16 + b2.toNat * 2 ^ 8 + b3.toNat := by
  have := b0.isLt; have := b1.isLt; have := b2.isLt; have := b3.isLt
  rw [unbe32, BitVec.toNat_ofNat]; omega

/-- A field of a word as a number: `v[lo+w-1:lo]`. -/
theorem extract_eq {n : Nat} (v : BitVec n) (lo w : Nat) :
    v.extractLsb' lo w = BitVec.ofNat w (v.toNat / 2 ^ lo) := by
  rw [← BitVec.toNat_inj, BitVec.extractLsb'_toNat, BitVec.toNat_ofNat,
    Nat.shiftRight_eq_div_pow]

/-- The four bytes of a header word as numbers (R63). -/
theorem be32_eq (v : Word32) :
    be32 v = [BitVec.ofNat 8 (v.toNat / 2 ^ 24), BitVec.ofNat 8 (v.toNat / 2 ^ 16),
      BitVec.ofNat 8 (v.toNat / 2 ^ 8), BitVec.ofNat 8 v.toNat] := by
  simp only [be32, extract_eq, pow_zero, Nat.div_one]

/-- Parsing the bytes of a word gives the word. -/
theorem unbe32_be32 (v : Word32) :
    unbe32 (v.extractLsb' 24 8) (v.extractLsb' 16 8) (v.extractLsb' 8 8) (v.extractLsb' 0 8) = v := by
  have := v.isLt
  rw [← BitVec.toNat_inj, unbe32_toNat]
  simp only [BitVec.extractLsb'_toNat, Nat.shiftRight_eq_div_pow]
  omega

/-- The bytes of a parsed word are the bytes. -/
theorem be32_unbe32 (b0 b1 b2 b3 : Byte) : be32 (unbe32 b0 b1 b2 b3) = [b0, b1, b2, b3] := by
  have := b0.isLt; have := b1.isLt; have := b2.isLt; have := b3.isLt
  simp only [be32_eq, unbe32_toNat, List.cons.injEq, and_true, ← BitVec.toNat_inj,
    BitVec.toNat_ofNat]
  omega

/-! ### Bytes and their fields as numbers -/

theorem tagBits_toNat (b : Byte) : (tagBits b).toNat = b.toNat / 64 := by
  have := b.isLt
  rw [tagBits, BitVec.extractLsb'_toNat, Nat.shiftRight_eq_div_pow]; omega

theorem payload_eq (b : Byte) : payload b = BitVec.ofNat 6 (b.toNat % 64) := by
  rw [payload, ← BitVec.toNat_inj, BitVec.extractLsb'_toNat, BitVec.toNat_ofNat]
  simp

/-- The byte of format T6: tag, then payload (R93). -/
theorem t6_toNat (tag : BitVec 2) (k : BitVec 6) : (tag ++ k).toNat = tag.toNat * 64 + k.toNat := by
  have := k.isLt
  rw [BitVec.toNat_append, ← Nat.shiftLeft_add_eq_or_of_lt this, Nat.shiftLeft_eq]

theorem tagBits_t6 (tag : BitVec 2) (k : BitVec 6) : tagBits (tag ++ k) = tag := by
  have := k.isLt
  rw [← BitVec.toNat_inj, tagBits_toNat, t6_toNat]; omega

theorem payload_t6 (tag : BitVec 2) (k : BitVec 6) : payload (tag ++ k) = k := by
  have := k.isLt
  rw [payload_eq, ← BitVec.toNat_inj, t6_toNat, BitVec.toNat_ofNat]; omega

/-! ### The tag parser -/

/-- Everything the tag parser can do: the six rows of the tag-byte map, in order of classification
(R100, R101). -/
theorem decodeTag_cases (b : Byte) (rest : List Byte) :
    (b = Config.tagRgb ∧ chunkLength b = 4 ∧ decodeTag b rest =
      match rest with
      | r :: g :: bl :: rest' => .ok (.rgb r g bl, rest')
      | _ => .error .truncated) ∨
    (b = Config.tagRgba ∧ chunkLength b = 5 ∧ decodeTag b rest =
      match rest with
      | r :: g :: bl :: a :: rest' => .ok (.rgba r g bl a, rest')
      | _ => .error .truncated) ∨
    (b.toNat / 64 = 0 ∧ chunkLength b = 1 ∧
      decodeTag b rest = .ok (.index (payload b), rest)) ∨
    (b.toNat / 64 = 1 ∧ chunkLength b = 1 ∧ decodeTag b rest =
      .ok (.diff (b.extractLsb' 4 2) (b.extractLsb' 2 2) (b.extractLsb' 0 2), rest)) ∨
    (b.toNat / 64 = 2 ∧ chunkLength b = 2 ∧ decodeTag b rest =
      match rest with
      | b2 :: rest' => .ok (.luma (payload b) (b2.extractLsb' 4 4) (b2.extractLsb' 0 4), rest')
      | _ => .error .truncated) ∨
    (b.toNat / 64 = 3 ∧ b ≠ Config.tagRgb ∧ b ≠ Config.tagRgba ∧ chunkLength b = 1 ∧
      decodeTag b rest = .ok (.run (payload b), rest)) := by
  by_cases h1 : b = Config.tagRgb
  · exact .inl ⟨h1, by rw [chunkLength, if_pos h1], by
      rcases rest with _ | ⟨_, _ | ⟨_, _ | ⟨_, _⟩⟩⟩ <;> exact if_pos h1⟩
  by_cases h2 : b = Config.tagRgba
  · exact .inr (.inl ⟨h2, by rw [chunkLength, if_neg h1, if_pos h2],
      by rcases rest with _ | ⟨_, _ | ⟨_, _ | ⟨_, _ | ⟨_, _⟩⟩⟩⟩ <;>
          exact (if_neg h1).trans (if_pos h2)⟩)
  have tag (k : Nat) (hk : k < 4) : tagBits b = BitVec.ofNat 2 k ↔ b.toNat / 64 = k := by
    rw [← BitVec.toNat_inj, tagBits_toNat, BitVec.toNat_ofNat, Nat.mod_eq_of_lt hk]
  have t0 := tag 0 (by omega); have t1 := tag 1 (by omega); have t2 := tag 2 (by omega)
  have lt := b.isLt
  unfold chunkLength decodeTag
  rw [if_neg h1, if_neg h2, if_neg h1, if_neg h2]
  by_cases h3 : b.toNat / 64 = 0
  · rw [if_neg (mt t2.mp (by omega)), if_pos (t0.mpr h3)]
    exact .inr (.inr (.inl ⟨h3, rfl, rfl⟩))
  rw [if_neg (mt t0.mp h3)]
  by_cases h4 : b.toNat / 64 = 1
  · rw [if_neg (mt t2.mp (by omega)), if_pos (t1.mpr h4)]
    exact .inr (.inr (.inr (.inl ⟨h4, rfl, rfl⟩)))
  rw [if_neg (mt t1.mp h4)]
  by_cases h5 : b.toNat / 64 = 2
  · rw [if_pos (t2.mpr h5), if_pos (t2.mpr h5)]
    exact .inr (.inr (.inr (.inr (.inl ⟨h5, rfl, by rcases rest with _ | ⟨_, _⟩ <;> rfl⟩))))
  · rw [if_neg (mt t2.mp h5), if_neg (mt t2.mp h5)]
    exact .inr (.inr (.inr (.inr (.inr ⟨by omega, h1, h2, rfl, rfl⟩))))

/-- A chunk decodes from exactly the bytes its first byte asks for (R96, R100). -/
theorem decodeTag_exact (b : Byte) (rest : List Byte) (h : rest.length + 1 = chunkLength b) :
    ∃ i, decodeTag b rest = .ok (i, []) := by
  rcases decodeTag_cases b rest with
    ⟨-, hl, hd⟩ | ⟨-, hl, hd⟩ | ⟨-, hl, hd⟩ | ⟨-, hl, hd⟩ | ⟨-, hl, hd⟩ | ⟨-, -, -, hl, hd⟩ <;>
    rw [hl] at h <;> rw [hd]
  · match rest, h with | [r, g, bl], _ => exact ⟨_, rfl⟩
  · match rest, h with | [r, g, bl, a], _ => exact ⟨_, rfl⟩
  · match rest, h with | [], _ => exact ⟨_, rfl⟩
  · match rest, h with | [], _ => exact ⟨_, rfl⟩
  · match rest, h with | [b2], _ => exact ⟨_, rfl⟩
  · match rest, h with | [], _ => exact ⟨_, rfl⟩

/-- The length a first byte tells is 1, 2, 4 or 5, longer than 1 only for LUMA, RGB and RGBA (R96). -/
theorem chunkLength_cases (b : Byte) :
    chunkLength b = 1 ∨ (chunkLength b = 2 ∧ b.toNat / 64 = 2) ∨
      (chunkLength b = 4 ∧ b = Config.tagRgb) ∨ (chunkLength b = 5 ∧ b = Config.tagRgba) := by
  rcases decodeTag_cases b [] with
    ⟨h, hl, -⟩ | ⟨h, hl, -⟩ | ⟨-, hl, -⟩ | ⟨-, hl, -⟩ | ⟨h, hl, -⟩ | ⟨-, -, -, hl, -⟩ <;> simp_all

/-- What a chunk that decodes consumed: as many bytes as its first byte tells (R96). -/
theorem decodeTag_length {b : Byte} {rest rest' : List Byte} {i : Instr}
    (h : decodeTag b rest = .ok (i, rest')) :
    rest'.length + chunkLength b = rest.length + 1 := by
  rcases decodeTag_cases b rest with
    ⟨-, hl, hd⟩ | ⟨-, hl, hd⟩ | ⟨-, hl, hd⟩ | ⟨-, hl, hd⟩ | ⟨-, hl, hd⟩ | ⟨-, -, -, hl, hd⟩ <;>
    rw [hd] at h <;> rw [hl]
  · split at h <;> cases h; simp
  · split at h <;> cases h; simp
  · cases h; rfl
  · cases h; rfl
  · split at h <;> cases h; simp
  · cases h; rfl

/-- A chunk that the tag parser reads is well-formed, belongs to the chunk region and is as long as its
first byte tells (R96, R100). -/
theorem decodeTag_sound {b : Byte} {rest rest' : List Byte} {i : Instr}
    (h : decodeTag b rest = .ok (i, rest')) :
    i.position = .chunk ∧ i.WellFormed = true ∧ i.length = chunkLength b := by
  rcases decodeTag_cases b rest with
    ⟨-, hl, hd⟩ | ⟨-, hl, hd⟩ | ⟨-, hl, hd⟩ | ⟨-, hl, hd⟩ | ⟨-, hl, hd⟩ | ⟨h3, h1, h2, hl, hd⟩ <;>
    rw [hd] at h <;> rw [hl]
  · split at h <;> cases h; exact ⟨rfl, rfl, rfl⟩
  · split at h <;> cases h; exact ⟨rfl, rfl, rfl⟩
  · cases h; exact ⟨rfl, rfl, rfl⟩
  · cases h; exact ⟨rfl, rfl, rfl⟩
  · split at h <;> cases h; exact ⟨rfl, rfl, rfl⟩
  · cases h
    refine ⟨rfl, ?_, rfl⟩
    have e1 : b.toNat ≠ 254 := fun h => h1 (BitVec.eq_of_toNat_eq h)
    have e2 : b.toNat ≠ 255 := fun h => h2 (BitVec.eq_of_toNat_eq h)
    have := b.isLt
    have : b.toNat % 64 % 2 ^ 6 ≤ 61 := by omega
    rw [payload_eq]
    exact decide_eq_true this

/-- A byte list that decodes whole at a chunk position is one well-formed chunk of that length. -/
theorem decode_chunk_sound {bytes : List Byte} {i : Instr} (h : decode .chunk bytes = .ok (i, [])) :
    i.position = .chunk ∧ i.WellFormed = true ∧ i.length = bytes.length := by
  cases bytes with
  | nil => cases h
  | cons b rest =>
    have h' : decodeTag b rest = .ok (i, []) := h
    obtain ⟨h1, h2, h3⟩ := decodeTag_sound h'
    have := decodeTag_length h'
    exact ⟨h1, h2, by rw [h3]; simpa using this⟩

end Sys2Proof
end

