-- ==== Sys2Proof/Laws/Memory.lean ====
section
/-! SUPPORT. Buffers: read after write, the canonical form, and lists of bytes. -/

namespace Sys2Proof.Machine.Memory

@[simp] theorem read_nil (off : Nat) : read [] off = none := rfl

theorem read_cons (k : Nat) (v : Byte) (m : Memory) (off : Nat) :
    read ((k, v) :: m) off = if off = k then some v else read m off := rfl

/-- A write changes what its own offset reads as, and nothing else. -/
theorem read_write (m : Memory) (off : Nat) (b : Byte) (x : Nat) :
    read (write m off b) x = if x = off then some b else read m x := by
  induction m with
  | nil => simp [write, read_cons]
  | cons c m ih =>
    obtain ⟨k, v⟩ := c
    by_cases h1 : off < k
    · rw [write, if_pos h1, read_cons]
    by_cases h2 : off = k
    · subst h2
      rw [write, if_neg h1, if_pos rfl]
      simp only [read_cons]
      split_ifs <;> rfl
    · rw [write, if_neg h1, if_neg h2]
      simp only [read_cons, ih]
      by_cases h3 : x = k
      · rw [if_pos h3, if_neg (by omega), if_pos h3]
      · rw [if_neg h3, if_neg h3]

@[simp] theorem read_write_same (m : Memory) (off : Nat) (b : Byte) :
    read (write m off b) off = some b := by simp [read_write]

theorem read_write_other (m : Memory) {off x : Nat} (b : Byte) (h : x ≠ off) :
    read (write m off b) x = read m x := by simp [read_write, h]

/-- The offsets a write leaves listed: the old ones and its own. -/
theorem mem_write {m : Memory} {off : Nat} {b : Byte} {c : Host.Cell} (h : c ∈ write m off b) :
    c = (off, b) ∨ c ∈ m := by
  induction m with
  | nil => simpa [write] using h
  | cons d m ih =>
    obtain ⟨k, v⟩ := d
    unfold write at h
    split_ifs at h with h1 h2 <;> simp only [List.mem_cons] at h ⊢ <;> tauto

/-- A write keeps the canonical form. -/
theorem write_wf {m : Memory} (h : Memory.wf m) (off : Nat) (b : Byte) :
    Memory.wf (write m off b) := by
  induction m with
  | nil => simp [write, Memory.wf]
  | cons d m ih =>
    obtain ⟨k, v⟩ := d
    obtain ⟨hd, hm⟩ := List.pairwise_cons.mp h
    unfold write
    split_ifs with h1 h2
    · refine List.pairwise_cons.mpr ⟨fun x hx => ?_, h⟩
      rcases List.mem_cons.mp hx with rfl | hx
      · exact h1
      · exact lt_trans h1 (hd x hx)
    · subst h2; exact List.pairwise_cons.mpr ⟨hd, hm⟩
    · refine List.pairwise_cons.mpr ⟨fun x hx => ?_, ih hm⟩
      rcases mem_write hx with rfl | hx
      · show k < off; omega
      · exact hd x hx

/-- Writing a list of bytes keeps the canonical form. -/
theorem writeList_wf {m : Memory} (h : Memory.wf m) (off : Nat) (bs : List Byte) :
    Memory.wf (writeList m off bs) := by
  induction bs generalizing m off with
  | nil => exact h
  | cons b bs ih => exact ih (write_wf h off b) (off + 1)

/-- What an offset reads as after a list of bytes was written. -/
theorem read_writeList (m : Memory) (off : Nat) (bs : List Byte) (x : Nat) :
    read (writeList m off bs) x =
      if off ≤ x ∧ x < off + bs.length then bs[x - off]? else read m x := by
  induction bs generalizing m off with
  | nil => simp [writeList, show ¬ (off ≤ x ∧ x < off) by omega]
  | cons b bs ih =>
    simp only [writeList, ih, read_write, List.length_cons]
    by_cases hx : x = off
    · subst hx; simp
    · by_cases h1 : off + 1 ≤ x ∧ x < off + 1 + bs.length
      · rw [if_pos h1, if_pos (by omega), show x - off = (x - (off + 1)) + 1 by omega,
          List.getElem?_cons_succ]
      · rw [if_neg h1, if_neg hx, if_neg (by omega)]

/-- Offsets outside the written bytes read as before. -/
theorem read_writeList_outside (m : Memory) {off : Nat} {bs : List Byte} {x : Nat}
    (h : x < off ∨ off + bs.length ≤ x) : read (writeList m off bs) x = read m x := by
  rw [read_writeList, if_neg (by omega)]

/-- Writing two lists one after the other is writing their concatenation. -/
theorem writeList_append (m : Memory) (off : Nat) (bs cs : List Byte) :
    writeList m off (bs ++ cs) = writeList (writeList m off bs) (off + bs.length) cs := by
  induction bs generalizing m off with
  | nil => rfl
  | cons b bs ih =>
    simp only [List.cons_append, writeList, ih, List.length_cons]
    congr 1; omega

@[simp] theorem readList_zero (m : Memory) (off : Nat) : readList m off 0 = some [] := rfl

/-- A list of bytes is read exactly when each of its bytes is. -/
theorem readList_eq_some {m : Memory} {off n : Nat} {bs : List Byte} :
    readList m off n = some bs ↔ bs.length = n ∧ ∀ j, j < n → read m (off + j) = bs[j]? := by
  induction n generalizing off bs with
  | zero =>
    simp only [readList_zero, Option.some.injEq, Nat.not_lt_zero, false_implies, implies_true,
      and_true]
    exact ⟨fun h => by simp [← h], fun h => (List.length_eq_zero_iff.mp h).symm⟩
  | succ n ih =>
    unfold readList
    constructor
    · intro h
      split at h
      · rename_i b tail hb ht
        cases h
        obtain ⟨hl, hr⟩ := ih.mp ht
        refine ⟨by simp [hl], fun j hj => ?_⟩
        cases j with
        | zero => simpa using hb
        | succ j => rw [List.getElem?_cons_succ, ← hr j (by omega)]; congr 1; omega
      · cases h
    · rintro ⟨hl, hr⟩
      cases bs with
      | nil => simp at hl
      | cons b tail =>
        have h0 : read m off = some b := by simpa using hr 0 (by omega)
        have ht : readList m (off + 1) n = some tail := by
          refine ih.mpr ⟨by simpa using hl, fun j hj => ?_⟩
          have := hr (j + 1) (by omega)
          rw [List.getElem?_cons_succ] at this
          rw [← this]; congr 1; omega
        rw [h0, ht]

/-- A list just written reads back. -/
theorem readList_writeList (m : Memory) (off : Nat) (bs : List Byte) :
    readList (writeList m off bs) off bs.length = some bs := by
  refine readList_eq_some.mpr ⟨rfl, fun j hj => ?_⟩
  rw [read_writeList, if_pos (by omega), Nat.add_sub_cancel_left]

/-- Two buffers that agree on a range read the same list there. -/
theorem readList_congr {m m' : Memory} {off n : Nat}
    (h : ∀ x, off ≤ x → x < off + n → read m x = read m' x) :
    readList m off n = readList m' off n := by
  induction n generalizing off with
  | zero => rfl
  | succ n ih =>
    unfold readList
    rw [h off (by omega) (by omega), ih fun x h1 h2 => h x (by omega) (by omega)]

/-- If every byte of a range is written, the range reads as some list. -/
theorem readList_isSome {m : Memory} {off n : Nat}
    (h : ∀ x, off ≤ x → x < off + n → (read m x).isSome = true) :
    ∃ bs, readList m off n = some bs := by
  induction n generalizing off with
  | zero => exact ⟨[], rfl⟩
  | succ n ih =>
    obtain ⟨b, hb⟩ := Option.isSome_iff_exists.mp (h off (by omega) (by omega))
    obtain ⟨bs, hbs⟩ := ih (off := off + 1) fun x h1 h2 => h x (by omega) (by omega)
    exact ⟨b :: bs, by unfold readList; rw [hb, hbs]⟩

/-- A range read in two parts. -/
theorem readList_add {m : Memory} {off n k : Nat} {bs cs : List Byte}
    (h1 : readList m off n = some bs) (h2 : readList m (off + n) k = some cs) :
    readList m off (n + k) = some (bs ++ cs) := by
  obtain ⟨l1, r1⟩ := readList_eq_some.mp h1
  obtain ⟨l2, r2⟩ := readList_eq_some.mp h2
  refine readList_eq_some.mpr ⟨by simp [l1, l2], fun j hj => ?_⟩
  by_cases hjn : j < n
  · rw [r1 j hjn, List.getElem?_append_left (by omega)]
  · rw [List.getElem?_append_right (by omega), l1, ← r2 (j - n) (by omega)]; congr 1; omega

/-- The buffers of the reset state are in canonical form. -/
theorem reset_memWf : State.reset.memWf := by decide

end Sys2Proof.Machine.Memory

namespace Sys2Proof.Machine

/-! ### What an engine reads of its source buffer -/

/-- A byte that has been written is read. -/
theorem srcByte_of_read {e : Engine} {off : Nat} {b : Byte} (id : EngineId)
    (h : Memory.read e.src off = some b) : e.srcByte id off = b := by
  unfold Engine.srcByte; rw [h]; rfl

/-- Buffers that agree at an offset are read alike there. -/
theorem srcByte_congr {e e' : Engine} (id : EngineId) {off : Nat}
    (h : Memory.read e'.src off = Memory.read e.src off) : e'.srcByte id off = e.srcByte id off := by
  unfold Engine.srcByte; rw [h]

@[simp] theorem srcBytes_length (e : Engine) (id : EngineId) (off n : Nat) :
    (e.srcBytes id off n).length = n := by
  induction n generalizing off with
  | zero => rfl
  | succ n ih => simp [Engine.srcBytes, ih]

/-- The bytes read, one by one. -/
theorem srcBytes_getElem? (e : Engine) (id : EngineId) {off n j : Nat} (h : j < n) :
    (e.srcBytes id off n)[j]? = some (e.srcByte id (off + j)) := by
  induction n generalizing off j with
  | zero => omega
  | succ n ih =>
    cases j with
    | zero => rfl
    | succ j =>
      show (e.srcBytes id (off + 1) n)[j]? = _
      rw [ih (by omega)]; congr 2; omega

/-- Buffers that agree on a range are read alike there. -/
theorem srcBytes_congr {e e' : Engine} (id : EngineId) {off n : Nat}
    (h : ∀ x, off ≤ x → x < off + n → Memory.read e'.src x = Memory.read e.src x) :
    e'.srcBytes id off n = e.srcBytes id off n := by
  induction n generalizing off with
  | zero => rfl
  | succ n ih =>
    show e'.srcByte id off :: _ = e.srcByte id off :: _
    rw [srcByte_congr id (h off le_rfl (by omega)), ih fun x h1 h2 => h x (by omega) (by omega)]

/-- A range that has been written is read as it was written. -/
theorem srcBytes_of_readList {e : Engine} (id : EngineId) {off n : Nat} {bs : List Byte}
    (h : Memory.readList e.src off n = some bs) : e.srcBytes id off n = bs := by
  obtain ⟨hlen, hr⟩ := Memory.readList_eq_some.mp h
  refine List.ext_getElem? fun j => ?_
  by_cases hj : j < n
  · rw [srcBytes_getElem? e id hj, ← hr j hj]
    cases hb : Memory.read e.src (off + j) with
    | none => rw [hr j hj, List.getElem?_eq_none_iff] at hb; omega
    | some b => rw [srcByte_of_read id hb]
  · rw [List.getElem?_eq_none (by simp; omega), List.getElem?_eq_none (by omega)]

/-- A shorter read is the beginning of a longer one. -/
theorem srcBytes_take (e : Engine) (id : EngineId) {off n k : Nat} (h : k ≤ n) :
    (e.srcBytes id off n).take k = e.srcBytes id off k := by
  refine List.ext_getElem? fun j => ?_
  by_cases hj : j < k
  · rw [List.getElem?_take_of_lt hj, srcBytes_getElem? e id (by omega), srcBytes_getElem? e id hj]
  · rw [List.getElem?_eq_none (by simp; omega), List.getElem?_eq_none (by simp; omega)]

end Sys2Proof.Machine
end

