-- ==== Sys2Proof/Laws/Fetch.lean ====
section
/-! SUPPORT. What the three fetches of the decoder can find, said once. -/

namespace Sys2Proof.Machine

/-- Everything a chunk fetch can do (R207): no tag byte left below `lim`; a tag byte whose payload would
cross `lim`; or the instruction that the bytes at `rp` decode to. -/
theorem fetchChunk_cases (e : Engine) :
    (e.lim < e.rp + 1 ∧ e.fetchChunk = .raises .truncated 0) ∨
    (e.rp + 1 ≤ e.lim ∧ e.lim < e.rp + chunkLength (e.srcByte .dec e.rp) ∧
      e.fetchChunk = .raises .truncated 1) ∨
    (∃ bytes i, e.rp + bytes.length ≤ e.lim ∧ 0 < bytes.length ∧
      e.srcBytes .dec e.rp bytes.length = bytes ∧ decode .chunk bytes = .ok (i, []) ∧
      e.fetchChunk = .instr i) := by
  unfold Engine.fetchChunk
  by_cases h1 : e.rp + 1 > e.lim
  · exact .inl ⟨h1, by rw [if_pos h1]⟩
  rw [if_neg h1]
  dsimp only
  by_cases h2 : e.rp + chunkLength (e.srcByte .dec e.rp) > e.lim
  · exact .inr (.inl ⟨by omega, h2, by rw [if_pos h2]⟩)
  rw [if_neg h2]
  generalize hn : chunkLength (e.srcByte .dec e.rp) = n at h2
  have hpos : 1 ≤ n := by
    rcases chunkLength_cases (e.srcByte .dec e.rp) with h | h | h | h <;> omega
  obtain ⟨k, rfl⟩ : ∃ k, n = k + 1 := ⟨n - 1, by omega⟩
  obtain ⟨i, hi⟩ := decodeTag_exact (e.srcByte .dec e.rp) (e.srcBytes .dec (e.rp + 1) k)
    (by rw [srcBytes_length, hn])
  have hi' : decode .chunk (e.srcBytes .dec e.rp (k + 1)) = .ok (i, []) := hi
  exact .inr (.inr ⟨e.srcBytes .dec e.rp (k + 1), i, by rw [srcBytes_length]; omega, by simp,
    by rw [srcBytes_length], hi', by simp only [fetchedOf, hi']⟩)

/-- A chunk whose bytes stand at `rp` below `lim` is what the fetch finds. -/
theorem fetchChunk_of_decode {e : Engine} {bytes : List Byte} {i : Instr}
    (hroom : e.rp + bytes.length ≤ e.lim)
    (hread : e.srcBytes .dec e.rp bytes.length = bytes)
    (hdec : decode .chunk bytes = .ok (i, [])) : e.fetchChunk = .instr i := by
  cases bytes with
  | nil => cases hdec
  | cons b rest =>
    have hb : e.srcByte .dec e.rp = b := (List.cons.inj hread).1
    have hlen := decodeTag_length (show decodeTag b rest = .ok (i, []) from hdec)
    simp only [List.length_nil, Nat.zero_add] at hlen
    have hlen' : (b :: rest).length = chunkLength b := by simp [hlen]
    rw [hlen'] at hread hroom
    unfold Engine.fetchChunk
    rw [if_neg (by omega), hb]
    dsimp only
    rw [if_neg (by omega), hread]
    simp only [fetchedOf, hdec]

/-- A tag byte below `lim` whose payload would cross `lim` (R207). -/
theorem fetchChunk_cut {e : Engine} (h1 : e.rp + 1 ≤ e.lim)
    (h2 : e.lim < e.rp + chunkLength (e.srcByte .dec e.rp)) :
    e.fetchChunk = .raises .truncated 1 := by
  unfold Engine.fetchChunk
  rw [if_neg (by omega)]
  exact if_pos h2

/-- Fourteen bytes that begin with the magic decode to a HEADER. -/
theorem decodeHeader_of_magic {bytes : List Byte} (hlen : bytes.length = 14)
    (h : bytes.take 4 = Config.magic) :
    ∃ w h c cs, decode .header bytes = .ok (.header w h c cs, []) := by
  show ∃ w h c cs, decodeHeader bytes = .ok (.header w h c cs, [])
  unfold decodeHeader
  rw [if_neg (by simp [h])]
  match bytes, hlen with
  | [_, _, _, _, w0, w1, w2, w3, h0, h1, h2, h3, c, cs], _ => exact ⟨_, _, _, _, rfl⟩

/-- Everything a header fetch can do (R121). -/
theorem fetchHeader_cases (e : Engine) :
    (e.srcLen < 4 ∧ e.fetchHeader = .raises .truncated 0) ∨
    (4 ≤ e.srcLen ∧ e.srcBytes .dec 0 4 ≠ Config.magic ∧ e.fetchHeader = .raises .badMagic 0) ∨
    (4 ≤ e.srcLen ∧ e.srcLen < 14 ∧ e.srcBytes .dec 0 4 = Config.magic ∧
      e.fetchHeader = .raises .truncated 0) ∨
    (∃ w h c cs, 14 ≤ e.srcLen ∧ e.srcBytes .dec 0 4 = Config.magic ∧
      decode .header (e.srcBytes .dec 0 14) = .ok (.header w h c cs, []) ∧
      e.fetchHeader = .instr (.header w h c cs)) := by
  unfold Engine.fetchHeader
  by_cases h1 : e.srcLen < 4
  · exact .inl ⟨h1, by rw [if_pos h1]⟩
  rw [if_neg h1]
  by_cases h2 : e.srcBytes .dec 0 4 = Config.magic
  · rw [if_neg (not_not.mpr h2)]
    by_cases h3 : e.srcLen < 14
    · exact .inr (.inr (.inl ⟨by omega, h3, h2, by rw [if_pos h3]⟩))
    · obtain ⟨w, h, c, cs, hd⟩ := decodeHeader_of_magic (srcBytes_length e .dec 0 14)
        ((srcBytes_take e .dec (by omega)).trans h2)
      rw [if_neg h3]
      exact .inr (.inr (.inr ⟨w, h, c, cs, by omega, h2, hd, by simp only [fetchedOf, hd]⟩))
  · rw [if_pos h2]
    exact .inr (.inl ⟨by omega, h2, rfl⟩)

/-- Everything the fetch of the end step can do (R222). -/
theorem fetchTrailer_cases (e : Engine) :
    (e.srcBytes .dec e.lim 8 ≠ Config.endMarker ∧
      e.fetchTrailer = .raises .corruptEndMarker 0) ∨
    (e.srcBytes .dec e.lim 8 = Config.endMarker ∧ e.fetchTrailer = .instr .endMarker) := by
  show _ ∧ fetchedOf .trailer (e.srcBytes .dec e.lim 8) = _ ∨
    _ ∧ fetchedOf .trailer (e.srcBytes .dec e.lim 8) = _
  have htake : (e.srcBytes .dec e.lim 8).take 8 = e.srcBytes .dec e.lim 8 :=
    List.take_of_length_le (by simp)
  generalize e.srcBytes .dec e.lim 8 = bytes at htake ⊢
  by_cases h : bytes = Config.endMarker
  · subst h; exact .inr ⟨rfl, rfl⟩
  · have hd : decode .trailer bytes = .error .corruptEndMarker := by
      show decodeTrailer bytes = _
      unfold decodeTrailer
      rw [if_neg (by rw [htake]; exact h)]
    exact .inl ⟨h, by simp only [fetchedOf, hd, rejectError]⟩

end Sys2Proof.Machine
end

