-- ==== Sys2Proof/Laws/Moves.lean ====
section
/-! SUPPORT. What each move can do, said once: inversion lemmas that later proofs cite instead of unfolding
the step. -/

namespace Sys2Proof.Machine

/-! ### Instructions -/

/-- Executing an instruction always gives a next state, in which only the decoder differs. -/
theorem exec_next (i : Instr) (s : State) : ∃ d, exec i s = .next (s.setDec d) := by
  cases i with
  | header w h c cs =>
    show ∃ d, execHeader w h c cs s = _
    unfold execHeader
    split_ifs <;> exact ⟨_, rfl⟩
  | _ => exact ⟨_, rfl⟩

/-- What a chunk leaves of the decoder: a pixel step on some pixel, some pixels still owed, and either
the cache as it was or the pixel stored at its hash (R204, R216). -/
theorem exec_chunk {i : Instr} (h : i.position = .chunk) (s : State) :
    ∃ p run, exec i s = .next (s.setDec
        (Engine.produce { s.dec.advance i.length with run := run } p)) ∨
      (run = s.dec.run ∧ exec i s = .next (s.setDec (s.dec.produceCoded i.length p))) := by
  cases i with
  | header => cases h
  | endMarker => cases h
  | index k => exact ⟨_, s.dec.run, .inl rfl⟩
  | run runf => exact ⟨_, runf, .inl rfl⟩
  | _ => exact ⟨_, s.dec.run, .inr ⟨rfl, rfl⟩⟩

/-- HEADER, executed (R201). -/
theorem exec_header_cases (w h : Word32) (c cs : Byte) (s : State) :
    (validChannels c = false ∧
      exec (.header w h c cs) s = .next (s.setDec (s.dec.raise .invalidChannelCount))) ∨
    (validChannels c = true ∧ s.dec.srcLen < 22 ∧
      exec (.header w h c cs) s = .next (s.setDec (s.dec.raise .truncated))) ∨
    (validChannels c = true ∧ 22 ≤ s.dec.srcLen ∧
      exec (.header w h c cs) s = .next (s.setDec (Engine.beginCall
        { s.dec with width := w, height := h, channels := c, colorspace := cs }
        .dec (w.toNat * h.toNat) 14))) := by
  show _ ∧ execHeader w h c cs s = _ ∨ _ ∧ _ ∧ execHeader w h c cs s = _ ∨
    _ ∧ _ ∧ execHeader w h c cs s = _
  unfold execHeader
  cases hc : validChannels c with
  | false => exact .inl ⟨rfl, rfl⟩
  | true =>
    by_cases hl : s.dec.srcLen < 22
    · exact .inr (.inl ⟨rfl, hl, by simp [Config.headerLen, Config.endLen, hl]⟩)
    · exact .inr (.inr ⟨rfl, by omega, by simp [Config.headerLen, Config.endLen, hl]⟩)

/-! ### Steps of the engines -/

/-- An idle, finished or failed decoder does nothing. -/
theorem decMove_rest {s : State} (h : s.dec.phase.running = false) : decMove s = .next s := by
  unfold decMove
  cases hp : s.dec.phase <;> simp_all [Phase.running]

/-- A pixel step with a pending run (R206). -/
theorem decMove_run {s : State} (h : s.dec.phase = .pixels) (hr : s.dec.run ≠ 0) :
    decMove s = .next (s.setDec s.dec.expandRun) := by
  unfold decMove; simp only [h]; rw [if_pos hr]

/-- A pixel step with no pending run (R204). -/
theorem decMove_chunk {s : State} (h : s.dec.phase = .pixels) (hr : s.dec.run = 0) :
    decMove s = runFetched s.dec.fetchChunk s := by
  unfold decMove; simp [h, hr]

/-- The end step (R222). -/
theorem decMove_end {s : State} (h : s.dec.phase = .atEnd) :
    decMove s = runFetched s.dec.fetchTrailer s := by
  unfold decMove; simp [h]

/-- An idle, finished or failed encoder does nothing. -/
theorem encMove_rest {s : State} (h : s.enc.phase.running = false) : encMove s = .next s := by
  unfold encMove
  cases hp : s.enc.phase <;> simp_all [Phase.running]

/-- A pixel step of the encoder (R164). -/
theorem encMove_pixel {s : State} (h : s.enc.phase = .pixels) :
    encMove s = .next (s.setEnc (s.enc.encodePixel s.enc.fetchPixel)) := by
  unfold encMove; simp [h]

/-- The end step of the encoder (R175). -/
theorem encMove_end {s : State} (h : s.enc.phase = .atEnd) :
    encMove s = .next (s.setEnc s.enc.encEnd) := by
  unfold encMove; simp [h]

/-- Everything a step of the decoder that answers a next state can do. -/
theorem decMove_cases {s t : State} (h : decMove s = .next t) :
    (s.dec.phase.running = false ∧ t = s) ∨
    (s.dec.phase = .pixels ∧ s.dec.run ≠ 0 ∧ t = s.setDec s.dec.expandRun) ∨
    (s.dec.phase = .pixels ∧ s.dec.run = 0 ∧ s.dec.lim < s.dec.rp + 1 ∧
      t = s.setDec (s.dec.raise .truncated)) ∨
    (s.dec.phase = .pixels ∧ s.dec.run = 0 ∧ s.dec.rp + 1 ≤ s.dec.lim ∧
      s.dec.lim < s.dec.rp + chunkLength (s.dec.srcByte .dec s.dec.rp) ∧
      t = s.setDec ((s.dec.advance 1).raise .truncated)) ∨
    (s.dec.phase = .pixels ∧ s.dec.run = 0 ∧ ∃ bytes i,
      s.dec.rp + bytes.length ≤ s.dec.lim ∧
      s.dec.srcBytes .dec s.dec.rp bytes.length = bytes ∧
      decode .chunk bytes = .ok (i, []) ∧ exec i s = .next t) ∨
    (s.dec.phase = .atEnd ∧ t = s.setDec (s.dec.raise .corruptEndMarker)) ∨
    (s.dec.phase = .atEnd ∧ t = s.setDec { s.dec with dstLen := s.dec.wp, phase := .done }) := by
  by_cases hr : s.dec.phase.running = false
  · rw [decMove_rest hr] at h; cases h; exact .inl ⟨hr, rfl⟩
  right
  cases hp : s.dec.phase with
  | idle => simp [hp, Phase.running] at hr
  | done => simp [hp, Phase.running] at hr
  | error => simp [hp, Phase.running] at hr
  | pixels =>
    by_cases hrun : s.dec.run = 0
    · rw [decMove_chunk hp hrun] at h
      rcases fetchChunk_cases s.dec with ⟨h1, hf⟩ | ⟨h1, h2, hf⟩ | ⟨bytes, i, h1, -, h2, h3, hf⟩ <;>
        rw [hf] at h
      · cases h; exact .inr (.inl ⟨rfl, hrun, h1, rfl⟩)
      · cases h; exact .inr (.inr (.inl ⟨rfl, hrun, h1, h2, rfl⟩))
      · exact .inr (.inr (.inr (.inl ⟨rfl, hrun, bytes, i, h1, h2, h3, h⟩)))
    · rw [decMove_run hp hrun] at h; cases h; exact .inl ⟨rfl, hrun, rfl⟩
  | atEnd =>
    rw [decMove_end hp] at h
    rcases fetchTrailer_cases s.dec with ⟨-, hf⟩ | ⟨-, hf⟩ <;> rw [hf] at h <;> cases h
    · exact .inr (.inr (.inr (.inr (.inl ⟨rfl, rfl⟩))))
    · exact .inr (.inr (.inr (.inr (.inr ⟨rfl, rfl⟩))))

/-- Everything a start step of the decoder that answers a next state can do (R201). -/
theorem decStart_cases {s t : State} (h : decStart s = .next t) :
    (∃ k, (k = .badMagic ∨ k = .truncated ∨ k = .invalidChannelCount) ∧
      t = s.setDec (s.dec.raise k)) ∨
    (∃ w h c cs, 22 ≤ s.dec.srcLen ∧ validChannels c = true ∧
      decode .header (s.dec.srcBytes .dec 0 14) = .ok (.header w h c cs, []) ∧
      t = s.setDec (Engine.beginCall
        { s.dec with width := w, height := h, channels := c, colorspace := cs }
        .dec (w.toNat * h.toNat) 14)) := by
  unfold decStart at h
  rcases fetchHeader_cases s.dec with ⟨-, hf⟩ | ⟨-, -, hf⟩ | ⟨-, -, -, hf⟩ |
    ⟨w, ht, c, cs, -, -, hd, hf⟩ <;> rw [hf] at h
  · cases h; exact .inl ⟨_, .inr (.inl rfl), rfl⟩
  · cases h; exact .inl ⟨_, .inl rfl, rfl⟩
  · cases h; exact .inl ⟨_, .inr (.inl rfl), rfl⟩
  · change exec (.header w ht c cs) s = .next t at h
    rcases exec_header_cases w ht c cs s with ⟨-, he⟩ | ⟨-, -, he⟩ | ⟨hc, hl, he⟩ <;>
      rw [he] at h <;> cases h
    · exact .inl ⟨_, .inr (.inr rfl), rfl⟩
    · exact .inl ⟨_, .inr (.inl rfl), rfl⟩
    · exact .inr ⟨w, ht, c, cs, hl, hc, hd, rfl⟩

/-- Everything a start step of the encoder can do (R161). -/
theorem encStart_cases (e : Engine) :
    (validChannels e.channels = false ∧ e.encStart = e.raise .invalidChannelCount) ∨
    (validChannels e.channels = true ∧
      e.srcLen ≠ e.width.toNat * e.height.toNat * e.channels.toNat ∧
      e.encStart = Engine.raise { e with n := e.width.toNat * e.height.toNat }
        .pixelBufferSizeMismatch) ∨
    (validChannels e.channels = true ∧
      e.srcLen = e.width.toNat * e.height.toNat * e.channels.toNat ∧
      e.encStart = (e.beginCall .enc (e.width.toNat * e.height.toNat) 0).emit
        (.header e.width e.height e.channels e.colorspace)) := by
  unfold Engine.encStart
  cases hc : validChannels e.channels with
  | false => exact .inl ⟨rfl, rfl⟩
  | true =>
    by_cases hl : e.srcLen = e.width.toNat * e.height.toNat * e.channels.toNat
    · exact .inr (.inr ⟨rfl, hl, by simp [hl]⟩)
    · exact .inr (.inl ⟨rfl, hl, by simp [hl]⟩)

/-- Everything a step of the encoder that answers a next state can do. -/
theorem encMove_cases {s t : State} (h : encMove s = .next t) :
    (s.enc.phase.running = false ∧ t = s) ∨
    (s.enc.phase = .pixels ∧ t = s.setEnc (s.enc.encodePixel s.enc.fetchPixel)) ∨
    (s.enc.phase = .atEnd ∧ t = s.setEnc s.enc.encEnd) := by
  by_cases hr : s.enc.phase.running = false
  · rw [encMove_rest hr] at h; cases h; exact .inl ⟨hr, rfl⟩
  right
  cases hp : s.enc.phase with
  | idle => simp [hp, Phase.running] at hr
  | done => simp [hp, Phase.running] at hr
  | error => simp [hp, Phase.running] at hr
  | pixels => rw [encMove_pixel hp] at h; cases h; exact .inl ⟨rfl, rfl⟩
  | atEnd => rw [encMove_end hp] at h; cases h; exact .inr ⟨rfl, rfl⟩

/-- The pixel of a three-channel fetch (R163). -/
theorem fetchPixel_three {e : Engine} {r g b : Byte} (hc : e.channels = 3)
    (h : e.srcBytes .enc e.rp 3 = [r, g, b]) : e.fetchPixel = ⟨r, g, b, 255⟩ := by
  simp only [Engine.srcBytes, List.cons.injEq, and_true] at h
  obtain ⟨h0, h1, h2⟩ := h
  unfold Engine.fetchPixel
  rw [if_neg (by rw [hc]; decide), h0, h1, h2]; rfl

/-- The pixel of a four-channel fetch (R163). -/
theorem fetchPixel_four {e : Engine} {r g b a : Byte} (hc : e.channels = 4)
    (h : e.srcBytes .enc e.rp 4 = [r, g, b, a]) : e.fetchPixel = ⟨r, g, b, a⟩ := by
  simp only [Engine.srcBytes, List.cons.injEq, and_true] at h
  obtain ⟨h0, h1, h2, h3⟩ := h
  unfold Engine.fetchPixel
  rw [if_pos hc, h0, h1, h2, h3]

/-! ### Moves in general -/

/-- Running what was fetched always gives a next state, in which only the decoder differs. -/
theorem runFetched_next (f : Fetched) (s : State) : ∃ d, runFetched f s = .next (s.setDec d) := by
  cases f with
  | instr i => exact exec_next i s
  | raises k taken => exact ⟨_, rfl⟩

/-- A step of an engine always gives a next state (R250). -/
theorem engineMove_total (id : EngineId) (s : State) : ∃ t, engineMove id s = .next t := by
  cases id with
  | enc =>
    show ∃ t, encMove s = .next t
    unfold encMove; split <;> exact ⟨_, rfl⟩
  | dec =>
    show ∃ t, decMove s = .next t
    have (f : Fetched) : ∃ t, runFetched f s = .next t := (runFetched_next f s).imp' _ fun _ => id
    unfold decMove
    split
    · split_ifs
      · exact ⟨_, rfl⟩
      · exact this _
    · exact this _
    all_goals exact ⟨_, rfl⟩

/-- A start step of an engine always gives a next state (R250). -/
theorem startMove_total (id : EngineId) (s : State) : ∃ t, startMove id s = .next t := by
  cases id with
  | enc => exact ⟨_, rfl⟩
  | dec => exact (runFetched_next _ s).imp' _ fun _ => id

/-- The part of a state that belongs to the core's surroundings only changes by host reads. -/
theorem engineMove_next {id : EngineId} {s t : State} (h : engineMove id s = .next t) :
    ∃ e, t = s.setEngine id e := by
  cases id with
  | enc =>
    rcases encMove_cases h with ⟨-, rfl⟩ | ⟨-, rfl⟩ | ⟨-, rfl⟩
    · exact ⟨t.enc, rfl⟩
    · exact ⟨_, rfl⟩
    · exact ⟨_, rfl⟩
  | dec =>
    rcases decMove_cases h with ⟨-, rfl⟩ | ⟨-, -, rfl⟩ | ⟨-, -, -, rfl⟩ | ⟨-, -, -, -, rfl⟩ |
      ⟨-, -, bytes, i, -, -, -, he⟩ | ⟨-, rfl⟩ | ⟨-, rfl⟩
    · exact ⟨t.dec, rfl⟩
    · exact ⟨_, rfl⟩
    · exact ⟨_, rfl⟩
    · exact ⟨_, rfl⟩
    · obtain ⟨d, hd⟩ := exec_next i s
      rw [hd] at he; cases he; exact ⟨d, rfl⟩
    · exact ⟨_, rfl⟩
    · exact ⟨_, rfl⟩

/-- A start step changes its own engine only. -/
theorem startMove_next {id : EngineId} {s t : State} (h : startMove id s = .next t) :
    ∃ e, t = s.setEngine id e := by
  cases id with
  | enc => cases h; exact ⟨_, rfl⟩
  | dec =>
    rcases decStart_cases h with ⟨k, -, rfl⟩ | ⟨w, ht, c, cs, -, -, -, rfl⟩ <;>
      exact ⟨_, rfl⟩

/-- Everything a host write that answers a next state can do (R31, R32, R35). -/
theorem hostWrite_cases {id : EngineId} {r : Reg} {v : Nat} {s t : State}
    (h : hostWrite id r v s = .next t) :
    t = s ∨
    (r = .ctrl ∧ v % 2 = 1 ∧ (s.engine id).phase.running = false ∧ startMove id s = .next t) ∨
    (writable id r = true ∧ (s.engine id).phase.running = false ∧
      t = s.setEngine id ((s.engine id).setReg r v)) := by
  unfold hostWrite at h
  split at h
  · split_ifs at h with hc
    · exact .inr (.inl ⟨rfl, hc.1, by simpa [Engine.startable] using hc.2, h⟩)
    · cases h; exact .inl rfl
  · split_ifs at h with hc
    · cases h; exact .inr (.inr ⟨hc.1, by simpa using hc.2, rfl⟩)
    · cases h; exact .inl rfl

/-- Everything a host move that answers a next state can do: a start step; or a change of one engine
and of what was heard. -/
theorem hostMove_cases {op : HostOp} {s t : State} (h : hostMove op s = .next t) :
    t = s ∨
    (∃ id v, op = .writeReg id .ctrl v ∧ v % 2 = 1 ∧ (s.engine id).phase.running = false ∧
      startMove id s = .next t) ∨
    (∃ id r v, op = .writeReg id r v ∧ writable id r = true ∧
      (s.engine id).phase.running = false ∧ t = s.setEngine id ((s.engine id).setReg r v)) ∨
    (∃ id v, t = s.hear v ∨ t = (s.setEngine id (s.engine id).draw).hear v) ∨
    (∃ id off bytes, op = .placeSrc id off bytes ∧ (s.engine id).phase.running = false ∧
      t = s.setEngine id
        { s.engine id with src := Memory.writeList (s.engine id).src off bytes }) ∨
    (∃ id, op = .assertReset id ∧ t = s.setEngine id ((s.engine id).assertReset id)) := by
  cases op with
  | writeReg id r v =>
    rcases hostWrite_cases h with rfl | ⟨rfl, hv, hp, hs⟩ | ⟨hw, hp, rfl⟩
    · exact .inl rfl
    · exact .inr (.inl ⟨id, v, rfl, hv, hp, hs⟩)
    · exact .inr (.inr (.inl ⟨id, r, v, rfl, hw, hp, rfl⟩))
  | readReg id r =>
    cases h
    simp only [hostRead]
    split_ifs
    · exact .inr (.inr (.inr (.inl ⟨id, _, .inr rfl⟩)))
    · exact .inr (.inr (.inr (.inl ⟨id, _, .inl rfl⟩)))
  | readDst id off =>
    cases h
    unfold hostReadDst
    dsimp only
    split
    · exact .inr (.inr (.inr (.inl ⟨id, _, .inl rfl⟩)))
    · exact .inr (.inr (.inr (.inl ⟨id, _, .inr rfl⟩)))
  | placeSrc id off bytes =>
    change hostPlace id off bytes s = _ at h
    unfold hostPlace at h
    dsimp only at h
    split_ifs at h with hp
    cases h
    exact .inr (.inr (.inr (.inr (.inl ⟨id, off, bytes, rfl, by simpa using hp, rfl⟩))))
  | assertReset id =>
    cases h; exact .inr (.inr (.inr (.inr (.inr ⟨id, rfl, rfl⟩))))

/-- No move touches the agenda. -/
theorem runMove_agenda {m : Move} {s t : State} (h : runMove m s = .next t) :
    t.agenda = s.agenda := by
  cases m with
  | engine id => obtain ⟨e, rfl⟩ := engineMove_next h; simp
  | host op =>
    rcases hostMove_cases h with rfl | ⟨id, v, -, -, -, hs⟩ | ⟨id, r, v, -, -, -, rfl⟩ |
      ⟨id, v, rfl | rfl⟩ | ⟨id, off, bytes, -, -, rfl⟩ | ⟨id, -, rfl⟩
    · rfl
    · obtain ⟨e, rfl⟩ := startMove_next hs; simp
    all_goals simp

/-- Everything a step that answers a next state can do. -/
theorem step_cases {s t : State} (h : step s = .next t) :
    (∃ m rest, s.agenda = m :: rest ∧ runMove m { s with agenda := rest } = .next t) ∨
    (s.agenda = [] ∧ ((∃ id, engineMove id s = .next t) ∨ t = s)) := by
  unfold step at h
  cases ha : s.agenda with
  | nil =>
    simp only [ha] at h
    refine .inr ⟨rfl, ?_⟩
    unfold selfMove at h
    split_ifs at h
    · exact .inl ⟨.dec, h⟩
    · exact .inl ⟨.enc, h⟩
    · cases h; exact .inr rfl
  | cons m rest => simp only [ha] at h; exact .inl ⟨m, rest, rfl, h⟩

/-! ### Running an agenda -/

@[simp] theorem runAgenda_nil (s : State) : runAgenda s [] = .next { s with agenda := [] } := rfl

/-- What was on the agenda before does not matter. -/
@[simp] theorem runAgenda_agenda (s : State) (a l : List Move) :
    runAgenda { s with agenda := a } l = runAgenda s l := rfl

/-- An agenda is run move by move. -/
theorem runAgenda_cons {s t : State} {m : Move} {rest : List Move}
    (h : runMove m { s with agenda := rest } = .next t) :
    runAgenda s (m :: rest) = runAgenda t rest := by
  have ht : t.agenda = rest := runMove_agenda h
  have hs : step { s with agenda := m :: rest } = .next t := h
  have ht' : ({ t with agenda := rest } : State) = t := by rw [← ht]
  have hs' : Sys2Proof.core.step { s with agenda := m :: rest } = .next t := hs
  simp only [runAgenda, List.length_cons, Host.Core.run]
  rw [hs', ht']

/-! ### The agenda does not matter to a move of an engine -/

/-- Executing an instruction does not look at the agenda. -/
theorem exec_withAgenda {i : Instr} {s t : State} (a : List Move) (h : exec i s = .next t) :
    exec i { s with agenda := a } = .next { t with agenda := a } := by
  cases i with
  | header w ht c cs =>
    rcases exec_header_cases w ht c cs s with ⟨h1, he⟩ | ⟨h1, h2, he⟩ | ⟨h1, h2, he⟩ <;>
      rcases exec_header_cases w ht c cs { s with agenda := a } with
        ⟨g1, ge⟩ | ⟨g1, g2, ge⟩ | ⟨g1, g2, ge⟩ <;>
      first
      | (rw [he] at h; cases h; rw [ge]; rfl)
      | exact absurd (h1.symm.trans g1) (by decide)
      | (exfalso; have g : s.dec.srcLen < 22 := g2; omega)
      | (exfalso; have g : 22 ≤ s.dec.srcLen := g2; omega)
  | _ => cases h; rfl

/-- Running what was fetched does not look at the agenda. -/
theorem runFetched_withAgenda {f : Fetched} {s t : State} (a : List Move)
    (h : runFetched f s = .next t) :
    runFetched f { s with agenda := a } = .next { t with agenda := a } := by
  cases f with
  | instr i => exact exec_withAgenda a h
  | raises k taken => cases h; rfl

/-- A step of an engine does not look at the agenda. -/
theorem engineMove_withAgenda {id : EngineId} {s t : State} (a : List Move)
    (h : engineMove id s = .next t) :
    engineMove id { s with agenda := a } = .next { t with agenda := a } := by
  cases id with
  | enc =>
    rcases encMove_cases h with ⟨hp, rfl⟩ | ⟨hp, rfl⟩ | ⟨hp, rfl⟩
    · exact encMove_rest (by exact hp)
    · exact encMove_pixel (by exact hp)
    · exact encMove_end (by exact hp)
  | dec =>
    change decMove s = .next t at h
    change decMove { s with agenda := a } = _
    by_cases hr : s.dec.phase.running = false
    · rw [decMove_rest hr] at h; cases h; exact decMove_rest (by exact hr)
    cases hp : s.dec.phase with
    | idle => simp [hp, Phase.running] at hr
    | done => simp [hp, Phase.running] at hr
    | error => simp [hp, Phase.running] at hr
    | pixels =>
      by_cases hrun : s.dec.run = 0
      · rw [decMove_chunk hp hrun] at h
        rw [decMove_chunk (by exact hp) (by exact hrun)]
        exact runFetched_withAgenda a h
      · rw [decMove_run hp hrun] at h; cases h
        exact decMove_run (by exact hp) (by exact hrun)
    | atEnd =>
      rw [decMove_end hp] at h
      rw [decMove_end (by exact hp)]
      exact runFetched_withAgenda a h

/-- A start step does not look at the agenda. -/
theorem startMove_withAgenda {id : EngineId} {s t : State} (a : List Move)
    (h : startMove id s = .next t) :
    startMove id { s with agenda := a } = .next { t with agenda := a } := by
  cases id with
  | enc => cases h; rfl
  | dec => exact runFetched_withAgenda a h

/-- One engine step, then the rest of an agenda. -/
theorem runAgenda_engine_cons {id : EngineId} {s t : State} (rest : List Move)
    (h : engineMove id s = .next t) :
    runAgenda s (.engine id :: rest) = runAgenda t rest := by
  have h' : runMove (.engine id) { s with agenda := rest } = .next { t with agenda := rest } :=
    engineMove_withAgenda rest h
  rw [runAgenda_cons h']
  exact runAgenda_agenda t rest rest

/-! ### The encoder's pixel step -/

/-- A pixel equal to `prev` extends the run (R164 case 1, R165). -/
theorem encodePixel_extends {e : Engine} {p : Pixel} (h : p = e.prev) :
    e.encodePixel p =
      (Engine.extendRun { e with cur := p, rp := e.rp + e.channels.toNat }).nextPixel := by
  unfold Engine.encodePixel; dsimp only; rw [if_pos h]

/-- A pixel other than `prev` is coded (R164 cases 2 to 6). -/
theorem encodePixel_codes {e : Engine} {p : Pixel} (h : p ≠ e.prev) :
    e.encodePixel p =
      (Engine.codePixel { e with cur := p, rp := e.rp + e.channels.toNat } p).nextPixel := by
  unfold Engine.encodePixel; dsimp only; rw [if_neg h]

end Sys2Proof.Machine
end

