-- ==== Sys2Proof/Laws/PerInstr.lean ====
section
/-! SUPPORT. Facts about every instruction, one lemma per constructor (LAWS.json). -/

/-! The family `EncodeLength`: the encoding of an instruction has the length of its format (R91). -/

namespace Sys2Proof.Laws.EncodeLength

/-- The encoding of `i` has the length of its format. -/
def Statement (i : Instr) : Prop := (encode i).length = i.length

theorem rgb (r g b : Byte) : Statement (.rgb r g b) := rfl
theorem rgba (r g b a : Byte) : Statement (.rgba r g b a) := rfl
theorem index (k : Slot) : Statement (.index k) := rfl
theorem diff (fr fg fb : BitVec 2) : Statement (.diff fr fg fb) := rfl
theorem luma (fdg : BitVec 6) (frg fbg : BitVec 4) : Statement (.luma fdg frg fbg) := rfl
theorem run (runf : BitVec 6) : Statement (.run runf) := rfl
theorem header (width height : Word32) (channels colorspace : Byte) :
    Statement (.header width height channels colorspace) := rfl
theorem endMarker : Statement .endMarker := rfl

end Sys2Proof.Laws.EncodeLength
end

