-- ==== Sys2Proof/Tests/Slice0.lean ====
section
/-! SUPPORT. The model's own tests. Expected results come from spec/30_encoding.md and from the hand
calculations of spec/95_test_vectors.md; the section or vector is named at each test. The witnesses at the
end meet the hypotheses of the statements in Obligations.lean. -/

namespace Sys2Proof.Machine.Tests

/-! ## Small states -/

/-- A decoder in PIXELS, no pending run, three channels, fresh cache and `prev`, two pixels to come, with
`bytes` at offset 14 and room for the marker after them. -/
def chunkAt (bytes : List Byte) : Engine :=
  { Engine.reset with
    phase := .pixels
    channels := 3
    width := 2
    height := 1
    srcLen := 14 + bytes.length + 8
    n := 2
    rp := 14
    prev := Config.prevInit
    cache := Config.cacheInit
    src := Memory.writeList [] 14 bytes }

/-- A decoder in END whose terminal eight bytes are `bytes`. -/
def trailerAt (bytes : List Byte) : Engine :=
  { chunkAt [] with
    phase := .atEnd
    i := 2
    wp := 6
    src := Memory.writeList [] 14 bytes }

/-- An engine before a call whose source buffer holds `bytes`, and nothing else. -/
def sourceOf (bytes : List Byte) : Engine :=
  { Engine.reset with srcLen := bytes.length, src := Memory.writeList [] 0 bytes }

/-- An encoder in PIXELS with `n` pixels, `prev` and source bytes as given. -/
def pixelAt (channels : Byte) (n : Nat) (prev : Pixel) (bytes : List Byte) : Engine :=
  { Engine.reset with
    phase := .pixels
    channels := channels
    width := BitVec.ofNat 32 n
    height := 1
    srcLen := n * channels.toNat
    n := n
    wp := 14
    prev := prev
    cache := Config.cacheInit
    src := Memory.writeList [] 0 bytes }

/-- The reset state with this decoder. -/
def withDec (d : Engine) : State := { State.reset with dec := d }

/-- The reset state with this encoder. -/
def withEnc (e : Engine) : State := { State.reset with enc := e }

/-- What a test looks at after a step: a value of the next state, none if there is no next state. -/
def after {α : Type} (f : State → α) : Host.Outcome State Fault Refusal → Option α
  | .next t => some (f t)
  | .fault _ => none
  | .refused _ => none

/-- The header of section 3, row 1: 2 by 1, three channels, colorspace 0. -/
def header213 : List Byte := [0x71, 0x6F, 0x69, 0x66, 0, 0, 0, 2, 0, 0, 0, 1, 3, 0]

/-- The 22 bytes of a header of no pixels and the marker (program Z0). -/
def z0 : List Byte :=
  [0x71, 0x6F, 0x69, 0x66, 0, 0, 0, 0, 0, 0, 0, 5, 4, 0] ++ [0, 0, 0, 0, 0, 0, 0, 1]

/-! ## Well-formedness (R93, R101) -/

theorem test_runField61_isWellFormed : (Instr.run 61).WellFormed = true := by decide
theorem test_runField62_isIllFormed : (Instr.run 62).WellFormed = false := by decide
theorem test_runField63_isIllFormed : (Instr.run 63).WellFormed = false := by decide

/-! ## Decoding of words written out from 30_encoding.md -/

theorem test_decode_rgb : decode .chunk [0b11111110, 0b00000001, 0b10000000, 0b11111111] =
    .ok (.rgb 1 128 255, []) := by decide
theorem test_decode_rgba : decode .chunk [0b11111111, 0b00000001, 0b00000010, 0b00000011, 0b00000100] =
    .ok (.rgba 1 2 3 4, []) := by decide
theorem test_decode_index : decode .chunk [0b00111111] = .ok (.index 63, []) := by decide
theorem test_decode_diff : decode .chunk [0b01110110] = .ok (.diff 3 1 2, []) := by decide
theorem test_decode_luma : decode .chunk [0b10101010, 0b00111111] = .ok (.luma 42 3 15, []) := by decide
theorem test_decode_run : decode .chunk [0b11111101] = .ok (.run 61, []) := by decide
theorem test_decode_header :
    decode .header [0x71, 0x6F, 0x69, 0x66, 1, 2, 3, 4, 0xA0, 0xB0, 0xC0, 0xD0, 4, 1] =
      .ok (.header 0x01020304 0xA0B0C0D0 4 1, []) := by decide
theorem test_decode_end : decode .trailer [0, 0, 0, 0, 0, 0, 0, 1] = .ok (.endMarker, []) := by decide
theorem test_decode_badMagic : decode .header [0x51, 0x4F, 0x49, 0x46] = .error .badMagic := by decide
theorem test_decode_wrongMarker :
    decode .trailer [0, 0, 0, 0, 0, 0, 1, 0] = .error .corruptEndMarker := by decide
theorem test_decode_rgbCut : decode .chunk [0xFE, 1, 2] = .error .truncated := by decide

/-! ## Words of the opcode table -/

theorem test_tableWord_luma : decodeTableWord 16 0xAA3F = some (.luma 42 3 15) := by decide
theorem test_tableWord_rgba : decodeTableWord 40 0xFF01020304 = some (.rgba 1 2 3 4) := by decide
theorem test_tableWord_end : decodeTableWord 64 0x0000000000000001 = some .endMarker := by decide
theorem test_tableWord_header :
    decodeTableWord 112 0x716F6966000000020000000103FF = some (.header 2 1 3 0xFF) := by decide

theorem test_fetchWord_chunkRuns : after (fun t => (t.dec.cur, t.dec.i))
    (step (State.reset.withFetchWord 32 0xFEC86432)) = some (⟨0xC8, 0x64, 0x32, 0⟩, 1) := by decide
theorem test_fetchWord_headerRuns : after (fun t => (t.dec.phase, t.dec.width, t.dec.rp))
    (step (State.reset.withFetchWord 112 0x716F6966000000020000000103FF)) =
      some (.pixels, 2, 14) := by decide
theorem test_fetchWord_endRuns : after (fun t => t.dec.phase)
    (step (State.reset.withFetchWord 64 1)) = some .done := by decide

/-! ## Hash (section 2) -/

theorem test_hash_alphaWeight : pixelHash ⟨0, 0, 0, 1⟩ = 11 := by decide
theorem test_hash_order : pixelHash ⟨200, 100, 50, 128⟩ = 42 := by decide

/-! ## The decoder, one step -/

-- P2, pixel 4: alpha of RGB is the previous pixel's
theorem test_rgb_takesAlphaOfPrev : after (fun t => (t.dec.cur, cacheLookup t.dec.cache 31, t.dec.rp))
    (step (withDec (chunkAt [0xFE, 0xC8, 0x64, 0x32]))) =
      some (⟨200, 100, 50, 255⟩, ⟨200, 100, 50, 255⟩, 18) := by decide
-- E11: the payload would cross lim
theorem test_rgb_cutShort : after (fun t => (t.dec.err, t.dec.rp))
    (step (withDec (chunkAt [0xFE, 1, 2]))) = some (some .truncated, 15) := by decide
-- D9: an RGBA chunk in a three-channel stream gives three samples and keeps its alpha inside
theorem test_rgba_inThreeChannels :
    after (fun t => (t.dec.prev, Memory.readList t.dec.dst 0 3, t.dec.wp))
      (step (withDec (chunkAt [0xFF, 1, 2, 3, 9]))) =
        some (⟨1, 2, 3, 9⟩, some [1, 2, 3], 3) := by decide
-- B1
theorem test_rgba_stored : after (fun t => cacheLookup t.dec.cache 14)
    (step (withDec (chunkAt [0xFF, 1, 2, 3, 4]))) = some ⟨1, 2, 3, 4⟩ := by decide
-- D5: INDEX of a never-written slot
theorem test_index_freshSlot : after (fun t => (t.dec.cur, t.dec.rp))
    (step (withDec (chunkAt [0x05]))) = some (⟨0, 0, 0, 0⟩, 15) := by decide
-- D11: INDEX does not store; a slot read is the slot's own content
theorem test_index_readsItsSlot : after (fun t => (t.dec.cur, cacheLookup t.dec.cache 53))
    (exec (.index 11) (withDec { chunkAt [] with
      cache := cacheStore Config.cacheInit 11 ⟨10, 10, 10, 255⟩ })) =
        some (⟨10, 10, 10, 255⟩, ⟨0, 0, 0, 0⟩) := by decide
-- D1: DIFF of -2 from 0 wraps
theorem test_diff_wraps : after (fun t => (t.dec.cur, cacheLookup t.dec.cache 23))
    (step (withDec (chunkAt [0x40]))) =
      some (⟨254, 254, 254, 255⟩, ⟨254, 254, 254, 255⟩) := by decide
-- section 4: fields 3, 1, 2
theorem test_diff_fieldOrder : after (fun t => t.dec.cur)
    (step (withDec { chunkAt [0x76] with prev := ⟨10, 10, 10, 255⟩ })) =
      some ⟨11, 9, 10, 255⟩ := by decide
-- D3: LUMA with every field 0 wraps
theorem test_luma_wraps : after (fun t => (t.dec.cur, t.dec.rp))
    (step (withDec (chunkAt [0x80, 0x00]))) = some (⟨216, 224, 216, 255⟩, 16) := by decide
-- section 4: mixed signs, (100,100,100) to (105,110,117) is AA 3F
theorem test_luma_fieldOrder : after (fun t => t.dec.cur)
    (step (withDec { chunkAt [0xAA, 0x3F] with prev := ⟨100, 100, 100, 255⟩ })) =
      some ⟨105, 110, 117, 255⟩ := by decide
-- D10: C1 repeats prev and owes one pixel; no store (slot 53 stays clear)
theorem test_run_owesTheRest :
    after (fun t => (t.dec.run, t.dec.rp, t.dec.cur, cacheLookup t.dec.cache 53))
      (step (withDec (chunkAt [0xC1]))) =
        some (1, 15, ⟨0, 0, 0, 255⟩, ⟨0, 0, 0, 0⟩) := by decide
-- D10: a pixel step with a pending run reads no byte
theorem test_run_expands : after (fun t => (t.dec.run, t.dec.rp, t.dec.phase))
    (step (withDec { chunkAt [] with run := 1, i := 1 })) = some (0, 14, .atEnd) := by decide
-- E7: the channel test comes before the length test
theorem test_header_channelsFirst : after (fun t => t.dec.err)
    (exec (.header 1 1 5 0) (withDec { Engine.reset with srcLen := 14 })) =
      some (some .invalidChannelCount) := by decide
-- P1: the start step
theorem test_header_starts : after (fun t => (t.dec.n, t.dec.rp, t.dec.prev, t.dec.phase))
    (exec (.header 2 1 3 0) (withDec { Engine.reset with srcLen := 25 })) =
      some (2, 14, ⟨0, 0, 0, 255⟩, .pixels) := by decide
-- P1: the end step
theorem test_end_delivers : after (fun t => (t.dec.phase, t.dec.dstLen))
    (step (withDec (trailerAt [0, 0, 0, 0, 0, 0, 0, 1]))) = some (.done, 6) := by decide
-- E15: the 01 in the wrong place
theorem test_end_wrongPlace : after (fun t => (t.dec.phase, t.dec.err))
    (step (withDec (trailerAt [0, 0, 0, 0, 0, 0, 1, 0]))) =
      some (.error, some .corruptEndMarker) := by decide
-- E3: "qoig"
theorem test_start_badMagic : after (fun t => t.dec.status)
    (startMove .dec (withDec (sourceOf [0x71, 0x6F, 0x69, 0x67]))) = some 0x0C := by decide

/-! ## The encoder, one step (section 4) -/

/-- What the encoder emits for one pixel, from a fresh cache. -/
def emitted (run : BitVec 6) (prev cur : Pixel) : Option (List Byte) :=
  let e := { pixelAt 4 9 prev [] with run := run }.encodePixel cur
  Memory.readList e.dst 14 (e.wp - 14)

theorem test_emit_chunks :
    emitted 0 ⟨0, 0, 0, 255⟩ ⟨0, 0, 0, 0⟩ = some [0x00] ∧
    emitted 0 ⟨10, 10, 10, 255⟩ ⟨11, 9, 10, 255⟩ = some [0x76] ∧
    emitted 0 ⟨100, 100, 100, 255⟩ ⟨105, 110, 117, 255⟩ = some [0xAA, 0x3F] ∧
    emitted 0 ⟨255, 255, 255, 255⟩ ⟨0, 0, 0, 255⟩ = some [0xFE, 0, 0, 0] ∧
    emitted 0 ⟨5, 5, 5, 7⟩ ⟨5, 5, 5, 8⟩ = some [0xFF, 5, 5, 5, 8] := by decide
-- section 4, flush bytes
theorem test_emit_runs :
    emitted 61 ⟨5, 5, 5, 7⟩ ⟨5, 5, 5, 7⟩ = some [0xFD] ∧
    emitted 3 ⟨5, 5, 5, 7⟩ ⟨5, 5, 5, 7⟩ = some [] := by decide
-- P2, pixel 2: the pending run is flushed first
theorem test_emit_flushesFirst :
    emitted 2 ⟨0, 0, 0, 255⟩ ⟨10, 10, 10, 255⟩ = some [0xC1, 0xAA, 0x88] := by decide
theorem test_emit_header : after (fun t => (Memory.readList t.enc.dst 0 14, t.enc.phase))
    (startMove .enc (withEnc
      { Engine.reset with width := 2, height := 1, channels := 3, srcLen := 6 })) =
        some (some header213, .pixels) := by decide
theorem test_emit_end : after (fun t => (Memory.readList t.enc.dst 14 8, t.enc.dstLen))
    (step (withEnc { pixelAt 4 0 Config.prevInit [] with phase := .atEnd })) =
      some (some [0, 0, 0, 0, 0, 0, 0, 1], 22) := by decide
-- X7: the size is compared exactly
theorem test_start_sizeIsExact : after (fun t => t.enc.status)
    (startMove .enc (withEnc
      { Engine.reset with width := 65536, height := 65536, channels := 4, srcLen := 0 })) =
        some 0x2C := by decide

/-! ## Buffers -/

theorem test_write_keepsOrder : Memory.write [(3, 7), (9, 8)] 5 1 = [(3, 7), (5, 1), (9, 8)] := by
  decide
theorem test_read_unwritten : Memory.read [(3, 7)] 4 = none := by decide

/-! ## Witnesses: concrete states and operands that meet the hypotheses of each statement, one clause
after the other, at the ends of the ranges -/

/-- The 25 bytes of program P1. -/
def p1 : List Byte := header213 ++ [0xAA, 0x88, 0xC0] ++ [0, 0, 0, 0, 0, 0, 0, 1]

/-- A decoder before a call with program P1's stream. -/
def p1Source : State := withDec (sourceOf p1)

/-- An encoder before a call with program P1's samples. -/
def p1Encoder : State :=
  withEnc { sourceOf [10, 10, 10, 10, 10, 10] with width := 2, height := 1, channels := 3 }

/-- An engine in ERROR. -/
def failed : Engine := Engine.reset.raise .truncated

theorem witness_DecodeUndoesEncode :
    (Instr.run 61).WellFormed = true ∧ (Instr.header 0 0xFFFFFFFF 7 255).WellFormed = true := by decide

theorem witness_EncodeUndoesDecode : decode .chunk [0xFD, 9] = .ok (.run 61, [9]) := by decide

theorem witness_TagByteMapHasNoHole :
    (0x00 : Byte).toNat ≤ 0x3F ∧ (0x3F : Byte).toNat ≤ 0x3F ∧
    (0x40 ≤ (0x40 : Byte).toNat ∧ (0x40 : Byte).toNat ≤ 0x7F) ∧
    (0x40 ≤ (0x7F : Byte).toNat ∧ (0x7F : Byte).toNat ≤ 0x7F) ∧
    (0x80 ≤ (0x80 : Byte).toNat ∧ (0x80 : Byte).toNat ≤ 0xBF) ∧
    (0x80 ≤ (0xBF : Byte).toNat ∧ (0xBF : Byte).toNat ≤ 0xBF) ∧
    (0xC0 ≤ (0xC0 : Byte).toNat ∧ (0xC0 : Byte).toNat ≤ 0xFD) ∧
    (0xC0 ≤ (0xFD : Byte).toNat ∧ (0xFD : Byte).toNat ≤ 0xFD) ∧
    (0xFE : Byte).toNat = 0xFE ∧ (0xFF : Byte).toNat = 0xFF := by decide

theorem witness_HashDoesNotDependOnWidth : 6 ≤ 6 ∧ 6 ≤ 32 := by decide

theorem witness_HashValuesAndCollisions :
    let p : Pixel := ⟨128, 0, 0, 255⟩
    let q : Pixel := ⟨64, 64, 64, 255⟩
    p.r.toNat % 64 = q.r.toNat % 64 ∧ p.g.toNat % 64 = q.g.toNat % 64 ∧
      p.b.toNat % 64 = q.b.toNat % 64 ∧ p.a.toNat % 64 = q.a.toNat % 64 ∧ p ≠ q := by decide

theorem witness_StepIsOneMove :
    ({ State.reset with agenda := [.engine .enc] }).agenda = .engine .enc :: [] ∧
    ((withDec (chunkAt [])).agenda = [] ∧ (withDec (chunkAt [])).dec.phase = .pixels) ∧
    ((withEnc (pixelAt 3 1 Config.prevInit [])).agenda = [] ∧
      ¬ ((withEnc (pixelAt 3 1 Config.prevInit [])).dec.phase = .pixels ∨
        (withEnc (pixelAt 3 1 Config.prevInit [])).dec.phase = .atEnd) ∧
      (withEnc (pixelAt 3 1 Config.prevInit [])).enc.phase = .pixels) ∧
    (State.reset.agenda = [] ∧
      ¬ (State.reset.dec.phase = .pixels ∨ State.reset.dec.phase = .atEnd) ∧
      ¬ (State.reset.enc.phase = .pixels ∨ State.reset.enc.phase = .atEnd)) := by decide

theorem witness_WrittenBytesReadAsWritten :
    Memory.readList (sourceOf [7, 8]).src 0 2 = some [7, 8] ∧
    (3 ≤ 3 ∧ 3 < 3 + ([9] : List Byte).length) ∧ ¬ (3 ≤ 4 ∧ 4 < 3 + ([9] : List Byte).length) := by
  decide

-- both outcomes occur; an engine that reads a byte nothing has written goes on
theorem witness_StepAlwaysAnswers :
    (∃ t, step (withEnc (pixelAt 3 1 Config.prevInit [])) = .next t) ∧
    step { withDec (chunkAt []) with agenda := [.host (.placeSrc .dec 0 [1])] } =
      .refused (.sourceWriteDuringCall .dec) :=
  ⟨⟨_, rfl⟩, rfl⟩

theorem witness_StepRunsTheDecodedChunk :
    let s := withDec (chunkAt [0xAA, 0x88])
    s.dec.phase = .pixels ∧ s.dec.run = 0 ∧ s.dec.rp + 2 ≤ s.dec.srcLen - 8 ∧
      s.dec.srcBytes .dec s.dec.rp 2 = [0xAA, 0x88] ∧
      decode .chunk [0xAA, 0x88] = .ok (.luma 42 8 8, []) ∧ s.agenda = [] ∧
      ({ s with agenda := [.engine .dec] }).agenda = .engine .dec :: [] := by decide

theorem witness_StartRunsTheDecodedHeader :
    let s := { p1Source with agenda := [.host (.writeReg .dec .ctrl 1)] }
    s.agenda = .host (.writeReg .dec .ctrl 1) :: [] ∧ 1 % 2 = 1 ∧ s.dec.phase = .idle ∧
      14 ≤ s.dec.srcLen ∧ s.dec.srcBytes .dec 0 14 = header213 ∧
      decode .header header213 = .ok (.header 2 1 3 0, []) := by decide

theorem witness_StepRunsTheDecodedEndMarker :
    let s := withDec (trailerAt [0, 0, 0, 0, 0, 0, 0, 1])
    s.dec.phase = .atEnd ∧
      s.dec.srcBytes .dec (s.dec.srcLen - 8) 8 = [0, 0, 0, 0, 0, 0, 0, 1] ∧
      decode .trailer [0, 0, 0, 0, 0, 0, 0, 1] = .ok (.endMarker, []) ∧ s.agenda = [] ∧
      ({ s with agenda := [.engine .dec] }).agenda = .engine .dec :: [] := by decide

-- RunsAt and CutShort
theorem witness_RgbResult :
    (let s := withDec (chunkAt [0xFE, 1, 2, 3])
     s.dec.phase = .pixels ∧ s.dec.run = 0 ∧ s.dec.rp + 4 = s.dec.srcLen - 8 ∧
       s.dec.srcBytes .dec s.dec.rp 4 = [0xFE, 1, 2, 3]) ∧
    (let s := withDec (chunkAt [0xFE, 1, 2])
     s.dec.phase = .pixels ∧ s.dec.run = 0 ∧ s.dec.rp + 1 ≤ s.dec.srcLen - 8 ∧
       s.dec.srcByte .dec s.dec.rp = 0xFE ∧ s.dec.srcLen - 8 < s.dec.rp + 4) := by decide

theorem witness_RgbaResult :
    (let s := withDec (chunkAt [0xFF, 1, 2, 3, 4])
     s.dec.phase = .pixels ∧ s.dec.run = 0 ∧ s.dec.rp + 5 = s.dec.srcLen - 8 ∧
       s.dec.srcBytes .dec s.dec.rp 5 = [0xFF, 1, 2, 3, 4]) ∧
    (let s := withDec (chunkAt [0xFF])
     s.dec.phase = .pixels ∧ s.dec.run = 0 ∧ s.dec.rp + 1 = s.dec.srcLen - 8 ∧
       s.dec.srcByte .dec s.dec.rp = 0xFF ∧ s.dec.srcLen - 8 < s.dec.rp + 5) := by decide

theorem witness_IndexResult :
    let s := withDec (chunkAt [0x3F])
    (0x3F : Byte).toNat / 64 = 0 ∧ s.dec.phase = .pixels ∧ s.dec.run = 0 ∧
      s.dec.rp + 1 = s.dec.srcLen - 8 ∧ s.dec.srcBytes .dec s.dec.rp 1 = [0x3F] := by decide

theorem witness_DiffResult :
    (let s := withDec (chunkAt [0x40])
     ((254 : Byte).toNat : Int) = ((s.dec.prev.r.toNat : Int) + ((0 : BitVec 2).toNat - 2)) % 256 ∧
     ((1 : Byte).toNat : Int) = ((s.dec.prev.g.toNat : Int) + ((3 : BitVec 2).toNat - 2)) % 256 ∧
     ((0 : Byte).toNat : Int) = ((s.dec.prev.b.toNat : Int) + ((2 : BitVec 2).toNat - 2)) % 256) ∧
    (let s := withDec (chunkAt [0x7F])
     (0x7F : Byte).toNat / 64 = 1 ∧ s.dec.phase = .pixels ∧ s.dec.run = 0 ∧
       s.dec.rp + 1 = s.dec.srcLen - 8 ∧ s.dec.srcBytes .dec s.dec.rp 1 = [0x7F]) := by
  decide

theorem witness_LumaResult :
    (let s := withDec (chunkAt [0x80, 0x00])
     ((216 : Byte).toNat : Int) = ((s.dec.prev.r.toNat : Int) + ((0 : BitVec 4).toNat - 8) +
       ((0 : BitVec 6).toNat - 32)) % 256 ∧
     ((224 : Byte).toNat : Int) = ((s.dec.prev.g.toNat : Int) + ((0 : BitVec 6).toNat - 32)) % 256 ∧
     ((231 : Byte).toNat : Int) = ((s.dec.prev.b.toNat : Int) + ((15 : BitVec 4).toNat - 8) +
       ((0 : BitVec 6).toNat - 32)) % 256) ∧
    (let s := withDec (chunkAt [0xBF, 0xFF])
     (0xBF : Byte).toNat / 64 = 2 ∧ s.dec.phase = .pixels ∧ s.dec.run = 0 ∧
       s.dec.rp + 2 = s.dec.srcLen - 8 ∧
       s.dec.srcBytes .dec s.dec.rp 2 = [0xBF, 0xFF]) ∧
    (let s := withDec (chunkAt [0x80])
     (0x80 : Byte).toNat / 64 = 2 ∧ s.dec.phase = .pixels ∧ s.dec.run = 0 ∧
       s.dec.rp + 1 = s.dec.srcLen - 8 ∧ s.dec.srcByte .dec s.dec.rp = 0x80 ∧
       s.dec.srcLen - 8 < s.dec.rp + 2) := by decide

theorem witness_RunResult :
    (let s := withDec { chunkAt [0xFD] with n := 62 }
     s.dec.phase = .pixels ∧ s.dec.i + (61 : BitVec 6).toNat + 1 ≤ s.dec.n ∧ s.dec.channels = 3) ∧
    (let s := withDec { chunkAt [0xC0] with n := 1, channels := 4 }
     s.dec.phase = .pixels ∧ s.dec.i + (0 : BitVec 6).toNat + 1 ≤ s.dec.n ∧ s.dec.channels = 4) ∧
    (let s := withDec (chunkAt [0xC0])
     0xC0 ≤ (0xC0 : Byte).toNat ∧ (0xC0 : Byte).toNat ≤ 0xFD ∧ s.dec.phase = .pixels ∧
       s.dec.run = 0 ∧ s.dec.rp + 1 = s.dec.srcLen - 8 ∧
       s.dec.srcBytes .dec s.dec.rp 1 = [0xC0]) ∧
    (let s := withDec (chunkAt [0xFD])
     0xC0 ≤ (0xFD : Byte).toNat ∧ (0xFD : Byte).toNat ≤ 0xFD ∧ s.dec.phase = .pixels ∧
       s.dec.run = 0 ∧ s.dec.rp + 1 = s.dec.srcLen - 8 ∧
       s.dec.srcBytes .dec s.dec.rp 1 = [0xFD]) := by decide

theorem witness_HeaderResult :
    ¬ ((2 : Byte) = 3 ∨ (2 : Byte) = 4) ∧ ¬ ((5 : Byte) = 3 ∨ (5 : Byte) = 4) ∧
    (((3 : Byte) = 3 ∨ (3 : Byte) = 4) ∧
      (withDec { Engine.reset with srcLen := 21 }).dec.srcLen < 22) ∧
    (((4 : Byte) = 3 ∨ (4 : Byte) = 4) ∧
      22 ≤ (withDec { Engine.reset with srcLen := 22 }).dec.srcLen) := by decide

theorem witness_EndMarkerResult :
    (let s := withDec (trailerAt [0, 0, 0, 0, 0, 0, 0, 1])
     s.dec.phase = .atEnd ∧
       s.dec.srcBytes .dec (s.dec.srcLen - 8) 8 = [0, 0, 0, 0, 0, 0, 0, 1]) ∧
    (let s := withDec (trailerAt [0, 0, 0, 0, 0, 0, 1, 0])
     s.dec.phase = .atEnd ∧
       s.dec.srcBytes .dec (s.dec.srcLen - 8) 8 ≠ [0, 0, 0, 0, 0, 0, 0, 1]) := by decide

theorem witness_PendingRunStep :
    (let s := withDec { chunkAt [] with run := 1 }
     s.dec.phase = .pixels ∧ s.dec.run ≠ 0) ∧
    (let s := withDec { chunkAt [] with run := 61 }
     s.dec.phase = .pixels ∧ s.dec.run ≠ 0) := by decide

theorem witness_HeaderParseOrder :
    (withDec (sourceOf [0x71, 0x6F, 0x69])).dec.srcLen < 4 ∧
    (let s := withDec (sourceOf [0x71, 0x6F, 0x69, 0x67])
     4 ≤ s.dec.srcLen ∧ s.dec.srcBytes .dec 0 4 = [0x71, 0x6F, 0x69, 0x67] ∧
       ¬ ((0x71 : Byte) = 0x71 ∧ (0x6F : Byte) = 0x6F ∧ (0x69 : Byte) = 0x69 ∧
         (0x67 : Byte) = 0x66)) ∧
    (let s := withDec (sourceOf [0x71, 0x6F, 0x69, 0x66])
     4 ≤ s.dec.srcLen ∧ s.dec.srcLen < 14 ∧
       s.dec.srcBytes .dec 0 4 = [0x71, 0x6F, 0x69, 0x66]) ∧
    (let s := withDec (sourceOf (header213.take 13))
     4 ≤ s.dec.srcLen ∧ s.dec.srcLen < 14 ∧
       s.dec.srcBytes .dec 0 4 = [0x71, 0x6F, 0x69, 0x66]) ∧
    (let s := withDec (sourceOf header213)
     14 ≤ s.dec.srcLen ∧ s.dec.srcBytes .dec 0 14 = header213 ∧
       (2 : Word32).toNat = (0 : Byte).toNat * 2 ^ 24 + (0 : Byte).toNat * 2 ^ 16 +
         (0 : Byte).toNat * 2 ^ 8 + (2 : Byte).toNat) := by decide

theorem witness_NoTagByteLeftIsTruncated :
    let s := withDec (chunkAt [])
    s.dec.phase = .pixels ∧ s.dec.run = 0 ∧ s.dec.srcLen - 8 < s.dec.rp + 1 := by decide

theorem witness_RaiseChangesOnlyStatus :
    (∃ t, startMove .enc State.reset = .next t ∧ (t.engine .enc).phase = .error) ∧
    (∃ t, startMove .enc (withEnc { p1Encoder.enc with srcLen := 5 }) = .next t ∧
      (t.engine .enc).phase = .error ∧ (t.engine .enc).n = 2) ∧
    (∃ t, engineMove .dec (withDec (chunkAt [])) = .next t ∧ (t.engine .dec).phase = .error ∧
      ((withDec (chunkAt [])).engine .dec).phase ≠ .error ∧ (t.engine .dec).rp = 14) ∧
    (∃ t, engineMove .dec (withDec (chunkAt [0x80])) = .next t ∧ (t.engine .dec).phase = .error ∧
      ((withDec (chunkAt [0x80])).engine .dec).phase ≠ .error ∧ (t.engine .dec).rp = 15) ∧
    ((withDec failed).engine .dec).phase = .error :=
  ⟨⟨_, rfl, rfl⟩, ⟨_, rfl, rfl, rfl⟩, ⟨_, rfl, rfl, by decide, rfl⟩, ⟨_, rfl, rfl, by decide, rfl⟩,
    rfl⟩

theorem witness_ErrorsDoNotNest :
    (∃ t, ((withDec failed).engine .dec).phase = .error ∧
      runMove (.engine .dec) (withDec failed) = .next t ∧
      Move.engine .dec ≠ .host (.assertReset .dec) ∧
      ∀ v, Move.engine .dec ≠ .host (.writeReg .dec .ctrl v)) ∧
    (∃ t, startMove .enc (withEnc { failed with channels := 3 }) = .next t ∧
      (t.engine .enc).phase ≠ .error) :=
  ⟨⟨_, rfl, rfl, by decide, fun _ => nofun⟩, ⟨_, rfl, by decide⟩⟩

theorem witness_WhichStepRaisesWhichError :
    (∃ t, startMove .enc State.reset = .next t ∧ t.enc.err = some .invalidChannelCount) ∧
    (∃ t, engineMove .enc State.reset = .next t ∧ State.reset.enc.err = none) ∧
    (∃ t, startMove .dec State.reset = .next t ∧ t.dec.err = some .truncated) ∧
    (∃ t, engineMove .dec (withDec (chunkAt [0x80])) = .next t ∧
      (withDec (chunkAt [0x80])).dec.err = none ∧ t.dec.err = some .truncated) ∧
    (∃ t, engineMove .dec (withDec (trailerAt [0, 0, 0, 0, 0, 0, 0, 0])) = .next t ∧
      (withDec (trailerAt [0, 0, 0, 0, 0, 0, 0, 0])).dec.err = none ∧
      t.dec.err = some .corruptEndMarker) :=
  ⟨⟨_, rfl, rfl⟩, ⟨_, rfl, rfl⟩, ⟨_, rfl, rfl⟩, ⟨_, rfl, rfl, rfl⟩, ⟨_, rfl, rfl, rfl⟩⟩

theorem witness_StartOfCallValues :
    (∃ t, startMove .dec p1Source = .next t ∧ (t.engine .dec).phase ≠ .error) ∧
    (∃ t, startMove .enc p1Encoder = .next t ∧ (t.engine .enc).phase ≠ .error) ∧
    (∃ t, startMove .enc State.reset = .next t ∧ (t.engine .enc).phase = .error) :=
  ⟨⟨_, rfl, by decide⟩, ⟨_, rfl, by decide⟩, ⟨_, rfl, rfl⟩⟩

theorem witness_StartForgetsThePast :
    (∃ t, ((withDec { p1Source.dec with run := 5, prev := ⟨9, 9, 9, 9⟩ }).engine .dec).src =
        (p1Source.engine .dec).src ∧
      ((withDec { p1Source.dec with run := 5, prev := ⟨9, 9, 9, 9⟩ }).engine .dec).srcLen =
        (p1Source.engine .dec).srcLen ∧
      startMove .dec p1Source = .next t ∧ (t.engine .dec).phase ≠ .error) ∧
    (∃ t, (withEnc { p1Encoder.enc with run := 5 }).enc.width = p1Encoder.enc.width ∧
      (withEnc { p1Encoder.enc with run := 5 }).enc.height = p1Encoder.enc.height ∧
      (withEnc { p1Encoder.enc with run := 5 }).enc.channels = p1Encoder.enc.channels ∧
      (withEnc { p1Encoder.enc with run := 5 }).enc.colorspace = p1Encoder.enc.colorspace ∧
      (withEnc { p1Encoder.enc with run := 5 }).enc.src = p1Encoder.enc.src ∧
      (withEnc { p1Encoder.enc with run := 5 }).enc.srcLen = p1Encoder.enc.srcLen ∧
      startMove .enc p1Encoder = .next t ∧ (t.engine .enc).phase ≠ .error) :=
  ⟨⟨_, rfl, rfl, rfl, by decide⟩, ⟨_, rfl, rfl, rfl, rfl, rfl, rfl, rfl, by decide⟩⟩

theorem witness_EncoderStart :
    State.reset.enc.phase = .idle ∧ (withEnc failed).enc.phase = .error ∧
    ¬ (State.reset.enc.channels = 3 ∨ State.reset.enc.channels = 4) ∧
    (let e := { p1Encoder.enc with srcLen := 5 }
     (e.channels = 3 ∨ e.channels = 4) ∧
       e.srcLen ≠ e.width.toNat * e.height.toNat * e.channels.toNat) ∧
    (let e := p1Encoder.enc
     (e.channels = 3 ∨ e.channels = 4) ∧
       e.srcLen = e.width.toNat * e.height.toNat * e.channels.toNat) := by decide

theorem witness_EncoderFetchesThePixel :
    (let e := pixelAt 3 1 Config.prevInit [1, 2, 3]
     e.phase = .pixels ∧ e.channels = 3 ∧ e.srcBytes .enc e.rp 3 = [1, 2, 3]) ∧
    (let e := pixelAt 4 1 Config.prevInit [1, 2, 3, 4]
     e.phase = .pixels ∧ e.channels = 4 ∧ e.srcBytes .enc e.rp 4 = [1, 2, 3, 4]) := by
  decide

-- the run reaches 62; the last pixel; neither
theorem witness_EncoderExtendsRun :
    (let e := { pixelAt 3 99 ⟨1, 2, 3, 255⟩ [1, 2, 3] with run := 61 }
     e.phase = .pixels ∧ e.run ≤ 61 ∧ e.fetchPixel = ⟨1, 2, 3, 255⟩ ∧
       e.prev = ⟨1, 2, 3, 255⟩ ∧ e.run.toNat + 1 = 62) ∧
    (let e := pixelAt 3 1 ⟨1, 2, 3, 255⟩ [1, 2, 3]
     e.phase = .pixels ∧ e.run ≤ 61 ∧ e.fetchPixel = ⟨1, 2, 3, 255⟩ ∧
       e.prev = ⟨1, 2, 3, 255⟩ ∧ e.i + 1 = e.n) ∧
    (let e := { pixelAt 3 2 ⟨1, 2, 3, 255⟩ [1, 2, 3] with run := 60 }
     e.phase = .pixels ∧ e.run ≤ 61 ∧ e.fetchPixel = ⟨1, 2, 3, 255⟩ ∧
       e.prev = ⟨1, 2, 3, 255⟩ ∧ ¬ (e.run.toNat + 1 = 62 ∨ e.i + 1 = e.n)) := by decide

/-- The hypotheses of EncoderCodesPixel for one pixel, and the class it falls in: hit, alpha kept,
small, medium. -/
def codes (prev p : Pixel) (hit keeps small medium : Bool) : Bool :=
  let e := { pixelAt 4 9 prev (samples p) with run := 61 }
  e.phase = .pixels && e.run ≤ 61 && e.fetchPixel = p && p ≠ e.prev && e.hits p = hit &&
    (p.a = prev.a) = keeps && (differences p prev).small = small &&
    (differences p prev).medium = medium

theorem witness_EncoderCodesPixel :
    codes ⟨0, 0, 0, 255⟩ ⟨0, 0, 0, 0⟩ true false true true = true ∧
    codes ⟨100, 100, 100, 255⟩ ⟨98, 98, 98, 255⟩ false true true true = true ∧
    codes ⟨100, 100, 100, 255⟩ ⟨101, 101, 101, 255⟩ false true true true = true ∧
    codes ⟨100, 100, 100, 255⟩ ⟨60, 68, 60, 255⟩ false true false true = true ∧
    codes ⟨100, 100, 100, 255⟩ ⟨138, 131, 138, 255⟩ false true false true = true ∧
    codes ⟨100, 100, 100, 255⟩ ⟨67, 67, 67, 255⟩ false true false false = true ∧
    codes ⟨5, 5, 5, 7⟩ ⟨5, 5, 5, 8⟩ false false true true = true := by decide

theorem witness_EncoderEnd :
    (withEnc { pixelAt 3 0 Config.prevInit [] with phase := .atEnd }).enc.phase = .atEnd ∧
    (withEnc { pixelAt 3 0 Config.prevInit [] with phase := .atEnd }).regWf := by decide

theorem witness_DifferencesAreExact :
    (differences ⟨98, 101, 98, 0⟩ ⟨100, 100, 100, 0⟩).small = true ∧
    (differences ⟨60, 68, 60, 0⟩ ⟨100, 100, 100, 0⟩).medium = true := by decide

theorem witness_EncoderChunkChoice :
    ((⟨1, 0, 0, 255⟩ : Pixel) ≠ ⟨0, 0, 0, 255⟩ ∧ (255 : Byte) = 255) ∧
    ((⟨0, 0, 0, 254⟩ : Pixel) ≠ ⟨0, 0, 0, 255⟩ ∧ (254 : Byte) ≠ 255) := by decide

theorem witness_ThreeChannelsNeverEmitRgba :
    (∃ t, (withEnc (pixelAt 3 1 Config.prevInit [1, 2, 3])).enc.opaquePrev ∧
      step (withEnc (pixelAt 3 1 Config.prevInit [1, 2, 3])) = .next t) ∧
    (let e := pixelAt 3 1 Config.prevInit [1, 2, 3]
     e.opaquePrev ∧ e.phase = .pixels ∧ e.channels = 3 ∧ e.fetchPixel = ⟨1, 2, 3, 255⟩ ∧
       (⟨1, 2, 3, 255⟩ : Pixel) ≠ e.prev) :=
  ⟨⟨_, by decide, rfl⟩, by decide⟩

theorem witness_StepKeepsBufferForm :
    ∃ t, (withDec (chunkAt [0xFE, 1, 2, 3])).memWf ∧
      step (withDec (chunkAt [0xFE, 1, 2, 3])) = .next t :=
  ⟨_, by decide, rfl⟩

theorem witness_StepKeepsRegistersSound :
    (∃ t, (withDec (chunkAt [0xC1])).regWf ∧ step (withDec (chunkAt [0xC1])) = .next t) ∧
    (∃ t, (withEnc (pixelAt 3 1 Config.prevInit [1, 2, 3])).regWf ∧
      step (withEnc (pixelAt 3 1 Config.prevInit [1, 2, 3])) = .next t) :=
  ⟨⟨_, by decide, rfl⟩, ⟨_, by decide, rfl⟩⟩

theorem witness_StepKeepsCacheKeyed :
    ∃ t, (withDec (chunkAt [0xFE, 1, 2, 3])).cacheWf ∧
      step (withDec (chunkAt [0xFE, 1, 2, 3])) = .next t :=
  ⟨_, by decide, rfl⟩

theorem witness_HostReadsStatus :
    ((withDec failed).engine .dec).errWf ∧ ((withDec (chunkAt [])).engine .dec).errWf ∧
    (State.reset.engine .enc).errWf := by decide

theorem witness_HostRegisterAccess :
    (Reg.status = .status ∨ Reg.status = .dstLen ∨
      EngineId.dec = .dec ∧ (Reg.status = .width ∨ Reg.status = .height ∨ Reg.status = .channels ∨
        Reg.status = .colorspace)) ∧
    ((withDec (chunkAt [])).engine .dec).phase = .pixels ∧ 0 % 2 = 0 ∧
    (1 % 2 = 1 ∧ ¬ ((State.reset.engine .enc).phase = .pixels ∨
      (State.reset.engine .enc).phase = .atEnd)) ∧
    ¬ (State.reset.enc.phase = .pixels ∨ State.reset.enc.phase = .atEnd) ∧
    2 ^ 32 - 1 < 2 ^ 32 ∧ 2 ^ 8 - 1 < 2 ^ 8 := by decide

theorem witness_ResultsAreVoidOutsideDone :
    (isResult .dec .width = true ∧ ((withDec failed).engine .dec).phase ≠ .done ∧
      ((withDec { failed with width := 7 }).engine .dec).phase ≠ .done ∧
      ((withDec { failed with width := 7 }).engine .dec).fresh =
        ((withDec failed).engine .dec).fresh) ∧
    (let s := withDec { Engine.reset with phase := .done, dstLen := 1, dst := [(0, 9)] }
     s.dec.phase = .done ∧ (s.engine .dec).phase = .done ∧ (s.engine .dec).delivers [9] ∧
       ([9] : List Byte)[0]? = some 9) := by decide

theorem witness_HostCannotSeeHiddenState :
    ∃ t, p1Source.looksLike (withDec { p1Source.dec with run := 5, prev := ⟨9, 9, 9, 9⟩, rp := 3 }) ∧
      hostMove (.writeReg .dec .ctrl 1) p1Source = .next t :=
  ⟨_, ⟨rfl, rfl, rfl, rfl⟩, rfl⟩

theorem witness_HostPlacesAndResets :
    ¬ ((State.reset.engine .enc).phase = .pixels ∨ (State.reset.engine .enc).phase = .atEnd) ∧
    ((withDec (chunkAt [])).engine .dec).phase = .pixels ∧ EngineId.enc ≠ .dec := by decide

theorem witness_EnginesShareNothing :
    (∃ t, engineMove .dec (withDec (chunkAt [0xC0])) = .next t ∧
      ({ withDec (chunkAt [0xC0]) with heard := [5] }).engine .dec =
        (withDec (chunkAt [0xC0])).engine .dec) ∧
    (∃ t, startMove .dec p1Source = .next t ∧
      ({ p1Source with heard := [5] }).engine .dec = p1Source.engine .dec) :=
  ⟨⟨_, rfl, rfl⟩, ⟨_, rfl, rfl⟩⟩

/-- Both engines in PIXELS. -/
def bothRunning : State :=
  { withEnc (pixelAt 3 1 Config.prevInit [1, 2, 3]) with dec := chunkAt [0xC0] }

theorem witness_EngineStepsCommute :
    (∃ t u, engineMove .enc bothRunning = .next t ∧ engineMove .dec t = .next u) ∧
    (∃ t u, engineMove .dec bothRunning = .next t ∧ engineMove .enc t = .next u) :=
  ⟨⟨_, _, rfl, rfl⟩, ⟨_, _, rfl, rfl⟩⟩

/-- Two buffers read the same on a range. -/
def sameOn (m m' : Memory) (lo hi : Nat) : Bool :=
  (List.range hi).all fun x => decide (x < lo) || decide (Memory.read m x = Memory.read m' x)

theorem witness_DecoderReadsOnlyItsWindow :
    (∃ t, startMove .dec p1Source = .next t ∧
      sameOn (Memory.write p1Source.dec.src 14 0) p1Source.dec.src 0 14 = true) ∧
    (∃ t, (withDec (chunkAt [0xC0])).dec.phase = .pixels ∧
      engineMove .dec (withDec (chunkAt [0xC0])) = .next t ∧
      sameOn (Memory.write (chunkAt [0xC0]).src 13 0) (chunkAt [0xC0]).src 14 15 = true) ∧
    (∃ t, (withDec (trailerAt [0, 0, 0, 0, 0, 0, 0, 1])).dec.phase = .atEnd ∧
      8 ≤ (trailerAt [0, 0, 0, 0, 0, 0, 0, 1]).srcLen ∧
      engineMove .dec (withDec (trailerAt [0, 0, 0, 0, 0, 0, 0, 1])) = .next t ∧
      sameOn (Memory.write (trailerAt [0, 0, 0, 0, 0, 0, 0, 1]).src 13 0)
        (trailerAt [0, 0, 0, 0, 0, 0, 0, 1]).src 14 22 = true) :=
  ⟨⟨_, rfl, by decide⟩, ⟨_, rfl, rfl, by decide⟩, ⟨_, rfl, by decide, rfl, by decide⟩⟩

theorem witness_NoReadOutsideTheBuffer :
    (∃ t, bothRunning.regWf ∧ engineMove .enc bothRunning = .next t ∧
      sameOn (Memory.write bothRunning.enc.src 3 9) bothRunning.enc.src 0 3 = true) ∧
    (∃ t, bothRunning.regWf ∧ engineMove .dec bothRunning = .next t ∧
      sameOn (Memory.write bothRunning.dec.src 23 9) bothRunning.dec.src 0 23 = true) ∧
    (∃ t, p1Source.regWf ∧ startMove .dec p1Source = .next t ∧
      sameOn (Memory.write p1Source.dec.src 25 9) p1Source.dec.src 0 25 = true) :=
  ⟨⟨_, by decide, rfl, by decide⟩, ⟨_, by decide, rfl, by decide⟩, ⟨_, by decide, rfl, by decide⟩⟩

theorem witness_EveryCallEnds :
    ((p1Source.engine .dec).phase = .idle ∧ (p1Encoder.engine .enc).phase = .idle ∧
      ((withDec failed).engine .dec).phase = .error) ∧
    (bothRunning.regWf ∧ (bothRunning.engine .enc).phase.running = true ∧
      (bothRunning.engine .dec).phase.running = true) :=
  ⟨⟨rfl, rfl, rfl⟩, by decide, rfl, rfl⟩

theorem witness_ExecuteInvertsEmit :
    (chunkAt []).prev = (withDec (chunkAt [])).dec.prev ∧
    (chunkAt []).cache = (withDec (chunkAt [])).dec.cache ∧
    (⟨0, 0, 0, 0⟩ : Pixel) ≠ (chunkAt []).prev ∧ (⟨10, 10, 10, 255⟩ : Pixel) ≠ (chunkAt []).prev := by
  decide

theorem witness_RoundTrip :
    State.reset.enc.phase.running = false ∧ State.reset.dec.phase.running = false ∧
    ((3 : Byte) = 3 ∨ (3 : Byte) = 4) ∧ ((4 : Byte) = 3 ∨ (4 : Byte) = 4) ∧
    ([10, 10, 10, 10, 10, 10] : List Byte).length =
      (2 : Word32).toNat * (1 : Word32).toNat * (3 : Byte).toNat ∧
    ([] : List Byte).length = (0 : Word32).toNat * (5 : Word32).toNat * (4 : Byte).toNat := by decide

-- program Z0
theorem encodes_z0 : Encodes State.reset [] 0 5 4 0 z0 :=
  ⟨_, rfl, by decide⟩

/-- The 27 bytes of program B1: one pixel, (1,2,3,4), an RGBA chunk. -/
def b1 : List Byte :=
  [0x71, 0x6F, 0x69, 0x66, 0, 0, 0, 1, 0, 0, 0, 1, 4, 0] ++ [0xFF, 1, 2, 3, 4] ++
    [0, 0, 0, 0, 0, 0, 0, 1]

-- program B1
theorem encodes_b1 : Encodes State.reset [1, 2, 3, 4] 1 1 4 0 b1 :=
  ⟨_, rfl, by decide⟩

-- before the first pixel step and after the last
theorem witness_CachesInLockStep :
    State.reset.enc.phase.running = false ∧ State.reset.dec.phase.running = false ∧
    Encodes State.reset [1, 2, 3, 4] 1 1 4 0 b1 ∧ 0 ≤ (1 : Word32).toNat * (1 : Word32).toNat ∧
    1 ≤ (1 : Word32).toNat * (1 : Word32).toNat ∧
    (∃ t, runAgenda State.reset ((encodeAgenda [1, 2, 3, 4] 1 1 4 0).take (7 + 0)) = .next t) ∧
    (∃ t', runAgenda State.reset ((decodeAgenda b1 1).take (3 + 0)) = .next t') ∧
    (∃ t, runAgenda State.reset ((encodeAgenda [1, 2, 3, 4] 1 1 4 0).take (7 + 1)) = .next t ∧
      t.enc.i = 1 ∧ cacheLookup t.enc.cache 14 = ⟨1, 2, 3, 4⟩) ∧
    (∃ t', runAgenda State.reset ((decodeAgenda b1 1).take (3 + 1)) = .next t' ∧
      t'.dec.i = 1 ∧ cacheLookup t'.dec.cache 14 = ⟨1, 2, 3, 4⟩) :=
  ⟨rfl, rfl, encodes_b1, by decide, by decide, ⟨_, rfl⟩, ⟨_, rfl⟩, ⟨_, rfl, rfl, by decide⟩,
    ⟨_, rfl, rfl, by decide⟩⟩

-- prefixes shorter than 22 bytes, of 22, and one byte short of the whole
theorem witness_EveryPrefixIsTruncated :
    State.reset.enc.phase.running = false ∧ State.reset.dec.phase.running = false ∧
    Encodes State.reset [1, 2, 3, 4] 1 1 4 0 b1 ∧ 0 < b1.length ∧ 21 < b1.length ∧
    22 < b1.length ∧ 26 < b1.length ∧ ¬ 27 < b1.length :=
  ⟨rfl, rfl, encodes_b1, by decide, by decide, by decide, by decide, by decide⟩

theorem witness_StreamSizeBound :
    State.reset.enc.phase.running = false ∧ Encodes State.reset [] 0 5 4 0 z0 :=
  ⟨rfl, encodes_z0⟩

theorem witness_BlackImageIsRunsOnly :
    State.reset.enc.phase.running = false ∧ ((3 : Byte) = 3 ∨ (3 : Byte) = 4) ∧
    ((4 : Byte) = 3 ∨ (4 : Byte) = 4) ∧ 0 < (1 : Word32).toNat * (1 : Word32).toNat ∧
    0 < (62 : Word32).toNat * (1 : Word32).toNat := by decide

theorem witness_UniformImageIsOneChunkThenRuns :
    State.reset.enc.phase.running = false ∧
    ((3 : Byte) = 3 ∧ (⟨10, 10, 10, 255⟩ : Pixel).a = 255 ∨ (3 : Byte) = 4) ∧
    ((4 : Byte) = 3 ∧ (⟨0, 0, 0, 0⟩ : Pixel).a = 255 ∨ (4 : Byte) = 4) ∧
    (⟨10, 10, 10, 255⟩ : Pixel) ≠ ⟨0, 0, 0, 255⟩ ∧ (⟨0, 0, 0, 0⟩ : Pixel) ≠ ⟨0, 0, 0, 255⟩ ∧
    0 < (1 : Word32).toNat * (1 : Word32).toNat := by decide

-- section 5, N = 1, 62, 63, 125
theorem test_runBytes :
    runBytes 0 = [] ∧ runBytes 1 = [0xC0] ∧ runBytes 62 = [0xFD] ∧ runBytes 63 = [0xFD, 0xC0] ∧
    runBytes 125 = [0xFD, 0xFD, 0xC0] := by decide

end Sys2Proof.Machine.Tests
end

/-! ## The pixel step of the encoder, field by field -/

namespace Sys2Proof.Machine

/-- What a pixel step of the encoder leaves, but for what it emits: `cur`, `prev`, the pointers, `i` and
PHASE are given, and only `run`, the cache and the destination are left to the case of R164. -/
theorem Engine.encodePixel_frame (e : Engine) (p : Pixel) :
    e.encodePixel p = { e with
      cur := p
      prev := p
      run := (e.encodePixel p).run
      i := e.i + 1
      phase := if e.i + 1 = e.n then .atEnd else e.phase
      rp := e.rp + e.channels.toNat
      wp := (e.encodePixel p).wp
      cache := (e.encodePixel p).cache
      dst := (e.encodePixel p).dst } := by
  by_cases h : p = e.prev
  · subst h
    rw [encodePixel_extends rfl]
    unfold Engine.extendRun
    dsimp only
    split <;> rfl
  · rw [encodePixel_codes h]
    unfold Engine.codePixel
    dsimp only
    split <;> split <;> rfl

section
variable (e : Engine) (p : Pixel)

@[simp] theorem Engine.encodePixel_phase :
    (e.encodePixel p).phase = if e.i + 1 = e.n then .atEnd else e.phase := by
  rw [e.encodePixel_frame]
@[simp] theorem Engine.encodePixel_err : (e.encodePixel p).err = e.err := by
  rw [e.encodePixel_frame]
@[simp] theorem Engine.encodePixel_width : (e.encodePixel p).width = e.width := by
  rw [e.encodePixel_frame]
@[simp] theorem Engine.encodePixel_height : (e.encodePixel p).height = e.height := by
  rw [e.encodePixel_frame]
@[simp] theorem Engine.encodePixel_channels : (e.encodePixel p).channels = e.channels := by
  rw [e.encodePixel_frame]
@[simp] theorem Engine.encodePixel_srcLen : (e.encodePixel p).srcLen = e.srcLen := by
  rw [e.encodePixel_frame]
@[simp] theorem Engine.encodePixel_src : (e.encodePixel p).src = e.src := by
  rw [e.encodePixel_frame]
@[simp] theorem Engine.encodePixel_prev : (e.encodePixel p).prev = p := by
  rw [e.encodePixel_frame]
@[simp] theorem Engine.encodePixel_i : (e.encodePixel p).i = e.i + 1 := by
  rw [e.encodePixel_frame]
@[simp] theorem Engine.encodePixel_n : (e.encodePixel p).n = e.n := by
  rw [e.encodePixel_frame]
@[simp] theorem Engine.encodePixel_rp : (e.encodePixel p).rp = e.rp + e.channels.toNat := by
  rw [e.encodePixel_frame]

end

/-- The two outcomes of a run continuation (R165): the run goes on below 62, or it is flushed. -/
theorem Engine.extendRun_cases (e : Engine) :
    (e.run + 1 ≠ Config.maxRun ∧ e.i + 1 ≠ e.n ∧ e.extendRun = { e with run := e.run + 1 }) ∨
    e.extendRun = Engine.flush { e with run := e.run + 1 } := by
  unfold Engine.extendRun
  dsimp only
  split_ifs with h
  · exact .inr rfl
  · rw [not_or] at h
    exact .inl ⟨h.1, by simpa [Engine.atLast] using h.2, rfl⟩

/-- The encoder with no run pending: a pending run is flushed (R164, before cases 2 to 6). -/
def Engine.settled (e : Engine) : Engine := if e.run ≠ 0 then e.flush else e

theorem Engine.settled_of_run {e : Engine} (h : e.run ≠ 0) : e.settled = e.flush := if_pos h

theorem Engine.settled_of_no_run {e : Engine} (h : e.run = 0) : e.settled = e :=
  if_neg (not_not.mpr h)

@[simp] theorem Engine.settled_run (e : Engine) : e.settled.run = 0 := by
  by_cases h : e.run = 0
  · rw [settled_of_no_run h, h]
  · rw [settled_of_run h, flush_run]

@[simp] theorem Engine.settled_prev (e : Engine) : e.settled.prev = e.prev := by
  by_cases h : e.run = 0
  · rw [settled_of_no_run h]
  · rw [settled_of_run h, flush_prev]

@[simp] theorem Engine.settled_cache (e : Engine) : e.settled.cache = e.cache := by
  by_cases h : e.run = 0
  · rw [settled_of_no_run h]
  · rw [settled_of_run h, flush_cache]

/-- The length of the output does not shrink when a run is flushed. -/
theorem Engine.le_settled_wp (e : Engine) : e.wp ≤ e.settled.wp := by
  by_cases h : e.run = 0
  · rw [settled_of_no_run h]
  · rw [settled_of_run h, flush_wp]; exact Nat.le_succ _

/-- The chunk of a pixel other than `prev`: INDEX on a hit, else the chunk of the miss (R164 cases 2
to 6). -/
def Engine.chunkFor (e : Engine) (p : Pixel) : Instr :=
  if e.hits p then indexChunk (pixelHash p) else missChunk p e.prev

/-- Cases 2 to 6 of the tag selector as one emission: the pending run is flushed, the chunk is emitted,
`prev` becomes the pixel, and the pixel is stored on a miss (R164, R173, R174). -/
theorem Engine.codePixel_eq (e : Engine) (p : Pixel) :
    e.codePixel p = { e.settled.emit (e.chunkFor p) with
      prev := p
      cache := if e.hits p then e.cache else cacheStore e.cache (pixelHash p) p } := by
  have hhits : e.settled.hits p = e.hits p := by unfold hits; rw [settled_cache]
  have hcode : e.codePixel p = { (if e.settled.hits p then e.settled.emit (indexChunk (pixelHash p))
      else (e.settled.emit (missChunk p e.settled.prev)).remember p : Engine) with prev := p } := rfl
  rw [hcode, hhits, settled_prev]
  unfold chunkFor
  split_ifs <;> rw [← e.settled_cache] <;> rfl

end Sys2Proof.Machine

/-! ## What a chunk means: the pixel it gives and what it leaves to code against -/

namespace Sys2Proof.Machine

/-- What chunks are coded against, the same in both engines: `prev` and the cache (R150, R224). -/
structure Context where
  prev : Pixel
  cache : Cache

/-- The context of an engine. -/
def Engine.context (e : Engine) : Context := ⟨e.prev, e.cache⟩

/-- The context at the start of a call (R45). -/
def Context.start : Context := ⟨Config.prevInit, Config.cacheInit⟩

/-- The pixel a chunk stands for (R210 to R215). -/
def Context.pixel (x : Context) : Instr → Pixel
  | .rgb r g b => ⟨r, g, b, x.prev.a⟩
  | .rgba r g b a => ⟨r, g, b, a⟩
  | .index k => cacheLookup x.cache k
  | .diff fr fg fb => shifted x.prev (unbias fr Config.diffBias) (unbias fg Config.diffBias)
      (unbias fb Config.diffBias)
  | .luma fdg frg fbg => shifted x.prev
      (unbias frg Config.lumaCrossBias + unbias fdg Config.lumaGreenBias)
      (unbias fdg Config.lumaGreenBias)
      (unbias fbg Config.lumaCrossBias + unbias fdg Config.lumaGreenBias)
  | _ => x.prev

/-- Whether a chunk's pixel is stored: all but INDEX and RUN (R147, R216). -/
def storesPixel : Instr → Bool
  | .index _ => false
  | .run _ => false
  | _ => true

/-- The pixels a chunk leaves owed: those of a RUN after its first (R215). -/
def owed : Instr → BitVec 6
  | .run runf => runf
  | _ => 0

/-- The context after a chunk. -/
def Context.after (x : Context) (i : Instr) : Context where
  prev := x.pixel i
  cache := if storesPixel i then cacheStore x.cache (pixelHash (x.pixel i)) (x.pixel i) else x.cache

theorem zero_le_runFieldMax : (0 : BitVec 6) ≤ Config.runFieldMax := by decide

/-- A chunk that has an encoding owes at most 61 pixels (R93, R101). -/
theorem owed_le {i : Instr} (h : i.WellFormed = true) : owed i ≤ Config.runFieldMax := by
  cases i with
  | run runf => exact of_decide_eq_true h
  | _ => exact zero_le_runFieldMax

/-- Executing a chunk with no run pending: its bytes are taken, its pixel is produced, and the owed
pixels and the cache are those the chunk says (R204). -/
theorem exec_chunk_eq {i : Instr} {s : State} (h : i.position = .chunk) (hrun : s.dec.run = 0) :
    exec i s = .next (s.setDec (Engine.produce { s.dec with
        rp := s.dec.rp + i.length
        run := owed i
        cache := (s.dec.context.after i).cache } (s.dec.context.pixel i))) := by
  cases i with
  | header => cases h
  | endMarker => cases h
  | run => rfl
  | _ => simp only [owed, ← hrun]; rfl

end Sys2Proof.Machine

/-! ## Sound registers -/

namespace Sys2Proof.Machine

/-- The registers of one engine are sound: its part of `State.regWf`. -/
def Engine.Sound : EngineId → Engine → Prop
  | .enc, e => e.errWf ∧ encWf e
  | .dec, d => d.errWf ∧ decWf d ∧ decDoneWf d

/-- The registers of the core are sound when those of each engine are. -/
theorem regWf_iff (s : State) : s.regWf ↔ ∀ id, Engine.Sound id (s.engine id) := by
  constructor
  · rintro ⟨he, hd, hencWf, hdecWf, hdone⟩ (_ | _)
    · exact ⟨he, hencWf⟩
    · exact ⟨hd, hdecWf, hdone⟩
  · intro h
    obtain ⟨he, hencWf⟩ := h .enc
    obtain ⟨hd, hdecWf, hdone⟩ := h .dec
    exact ⟨he, hd, hencWf, hdecWf, hdone⟩

/-- A sound engine in a call has no error (R34). -/
theorem Engine.Sound.err_none {id : EngineId} {e : Engine} (h : Engine.Sound id e)
    (hrun : e.phase.running = true) : e.err = none := by
  have herr : e.errWf := by cases id; exacts [h.1, h.1]
  by_contra hne
  rw [herr.mp hne] at hrun; cases hrun

/-- The registers of a sound encoder in a call. -/
theorem Engine.Sound.encCall {e : Engine} (h : Engine.Sound .enc e)
    (hrun : e.phase.running = true) :
    e.callWf ∧ e.n = e.width.toNat * e.height.toNat ∧ e.srcLen = e.n * e.channels.toNat ∧
    e.rp = e.i * e.channels.toNat ∧ Config.headerLen ≤ e.wp ∧ (e.phase = .atEnd → e.run = 0) :=
  h.2 hrun

/-- The registers of a sound decoder in a call. -/
theorem Engine.Sound.decCall {d : Engine} (h : Engine.Sound .dec d)
    (hrun : d.phase.running = true) :
    d.callWf ∧ d.n = d.width.toNat * d.height.toNat ∧
    Config.headerLen + Config.endLen ≤ d.srcLen ∧
    d.wp = d.i * d.channels.toNat ∧ Config.headerLen ≤ d.rp ∧ d.rp ≤ d.lim :=
  h.2.1 hrun

/-- The counters of a sound engine in a call (R7, R25, R27). -/
theorem Engine.Sound.call {id : EngineId} {e : Engine} (h : Engine.Sound id e)
    (hrun : e.phase.running = true) : e.callWf := by
  cases id with
  | enc => exact (h.encCall hrun).1
  | dec => exact (h.decCall hrun).1

/-- Replacing one engine by a sound one keeps the registers of the core sound. -/
theorem regWf_setEngine {s : State} {id : EngineId} {e : Engine} (h : s.regWf)
    (he : Engine.Sound id e) : (s.setEngine id e).regWf := by
  rw [regWf_iff] at h ⊢
  intro id'
  rw [State.engine_setEngine]
  split_ifs with hid
  · rw [hid]; exact he
  · exact h id'

/-- No error outside ERROR (R34). -/
theorem errWf_of_none {e : Engine} (herr : e.err = none) (hp : e.phase ≠ .error) : e.errWf := by
  simp [Engine.errWf, herr, hp]

/-- An engine that is in no call and has no result to show is sound when its ERR is. -/
theorem sound_of_stopped {id : EngineId} {e : Engine} (herr : e.errWf)
    (hrun : e.phase.running = false) (hdone : e.phase ≠ .done) : Engine.Sound id e := by
  cases id with
  | enc => exact ⟨herr, fun h => absurd h (by simp [hrun])⟩
  | dec => exact ⟨herr, fun h => absurd h (by simp [hrun]), fun h => absurd h hdone⟩

/-- An engine that has raised an error is sound (R34). -/
theorem sound_raise (id : EngineId) (e : Engine) (k : ErrorKind) : Engine.Sound id (e.raise k) :=
  sound_of_stopped (by simp [Engine.errWf]) rfl (by simp)

/-- A start step that begins a call raises no error (R45). -/
theorem beginCall_phase_ne_error (e : Engine) (id : EngineId) (n rp : Nat) :
    (e.beginCall id n rp).phase ≠ .error := by
  show (if 0 < n then Phase.pixels else Phase.atEnd) ≠ .error
  split_ifs <;> simp

/-- PHASE and ERR after a start step without error agree (R34, R45). -/
theorem beginCall_errWf (e : Engine) (id : EngineId) (n rp : Nat) : (e.beginCall id n rp).errWf :=
  errWf_of_none rfl (beginCall_phase_ne_error e id n rp)

/-- The counters of a call that begins (R7, R45). -/
theorem beginCall_callWf {e : Engine} (id : EngineId) (n rp : Nat)
    (hc : validChannels e.channels = true) : (e.beginCall id n rp).callWf := by
  refine ⟨zero_le_runFieldMax, hc, fun h => ?_, fun h => ?_⟩ <;>
    change (if 0 < n then Phase.pixels else Phase.atEnd) = _ at h
  · show 0 < n
    by_contra h0
    rw [if_neg h0] at h; cases h
  · show 0 = n
    by_contra h0
    rw [if_pos (by omega)] at h; cases h

/-! ### The encoder -/

/-- The encoder's start step leaves it sound, whatever stood before (R161). -/
theorem sound_encStart (e : Engine) : Engine.Sound .enc e.encStart := by
  rcases encStart_cases e with ⟨-, h⟩ | ⟨-, -, h⟩ | ⟨hc, hlen, h⟩ <;> rw [h]
  · exact sound_raise _ _ _
  · exact sound_raise _ _ _
  · exact ⟨beginCall_errWf e .enc _ 0, fun _ => ⟨beginCall_callWf .enc _ 0 hc, rfl, hlen,
      (Nat.zero_mul _).symm, le_refl 14, fun _ => rfl⟩⟩

/-- The run after a pixel step: one more, below 62 and not at the last pixel, or none (R165). -/
theorem encodePixel_run_cases (e : Engine) (p : Pixel) :
    (e.run + 1 ≠ Config.maxRun ∧ e.i + 1 ≠ e.n ∧ (e.encodePixel p).run = e.run + 1) ∨
    (e.encodePixel p).run = 0 := by
  by_cases h : p = e.prev
  · rw [encodePixel_extends h]
    rcases Engine.extendRun_cases { e with cur := p, rp := e.rp + e.channels.toNat } with
      ⟨h1, h2, hx⟩ | hx <;> rw [hx]
    · exact .inl ⟨h1, h2, rfl⟩
    · exact .inr rfl
  · rw [encodePixel_codes h, Engine.codePixel_eq]
    exact .inr (Engine.settled_run _)

/-- A pixel step does not take back output. -/
theorem le_encodePixel_wp (e : Engine) (p : Pixel) : e.wp ≤ (e.encodePixel p).wp := by
  by_cases h : p = e.prev
  · rw [encodePixel_extends h]
    rcases Engine.extendRun_cases { e with cur := p, rp := e.rp + e.channels.toNat } with
      ⟨-, -, hx⟩ | hx <;> rw [hx]
    · exact le_rfl
    · exact Nat.le_succ _
  · rw [encodePixel_codes h, Engine.codePixel_eq]
    exact (Engine.le_settled_wp { e with cur := p, rp := e.rp + e.channels.toNat }).trans
      (Nat.le_add_right _ _)

/-- A pixel step keeps the encoder sound (R164). -/
theorem sound_encodePixel {e : Engine} (h : Engine.Sound .enc e) (hp : e.phase = .pixels)
    (p : Pixel) : Engine.Sound .enc (e.encodePixel p) := by
  have hrunning : e.phase.running = true := by rw [hp]; rfl
  obtain ⟨⟨hrun, hc, hi, -⟩, hn, hlen, hrp, hwp, -⟩ := h.encCall hrunning
  have hi := hi hp
  have hnone := h.err_none hrunning
  refine ⟨?_, fun _ => ⟨⟨?_, by simpa using hc, fun h => ?_, fun h => ?_⟩, by simpa using hn,
    by simpa using hlen, ?_, hwp.trans (le_encodePixel_wp e p), fun h => ?_⟩⟩
  · refine errWf_of_none (by simpa using hnone) ?_
    rw [Engine.encodePixel_phase, hp]
    split_ifs <;> simp
  · rcases encodePixel_run_cases e p with ⟨h1, -, hr⟩ | hr <;> rw [hr]
    · simp only [Config.maxRun, Config.runFieldMax] at *
      bv_omega
    · exact zero_le_runFieldMax
  · simp only [Engine.encodePixel_phase, Engine.encodePixel_i, Engine.encodePixel_n, hp] at h ⊢
    split_ifs at h
    omega
  · simp only [Engine.encodePixel_phase, Engine.encodePixel_i, Engine.encodePixel_n, hp] at h ⊢
    by_contra hne
    rw [if_neg hne] at h; cases h
  · rw [Engine.encodePixel_rp, Engine.encodePixel_i, Engine.encodePixel_channels, hrp,
      Nat.succ_mul]
  · rcases encodePixel_run_cases e p with ⟨-, h2, -⟩ | hr
    · rw [Engine.encodePixel_phase, if_neg h2, hp] at h; cases h
    · exact hr

/-- The end step leaves the encoder sound (R175). -/
theorem sound_encEnd {e : Engine} (h : Engine.Sound .enc e) (hp : e.phase = .atEnd) :
    Engine.Sound .enc e.encEnd := by
  have hnone := h.err_none (by rw [hp]; rfl)
  exact ⟨errWf_of_none hnone (by simp [Engine.encEnd]), fun h => by cases h⟩

/-! ### The decoder -/

/-- The decoder's start step leaves it sound, whatever stood before (R201). -/
theorem sound_decStart {s t : State} (h : decStart s = .next t) : Engine.Sound .dec t.dec := by
  rcases decStart_cases h with ⟨k, -, rfl⟩ | ⟨w, ht, c, cs, hl, hc, -, rfl⟩
  · exact sound_raise _ _ _
  · refine ⟨beginCall_errWf _ .dec _ 14, fun _ => ⟨beginCall_callWf .dec _ 14 hc, rfl, hl,
      (Nat.zero_mul _).symm, le_refl 14, ?_⟩, fun h => ?_⟩
    · show 14 ≤ s.dec.srcLen - 8
      omega
    · change (if 0 < w.toNat * ht.toNat then Phase.pixels else Phase.atEnd) = .done at h
      split_ifs at h

/-- A pixel step keeps the decoder sound when it leaves `run` at most 61 and `rp` in the chunk region
(R204). -/
theorem sound_produce {d : Engine} (h : Engine.Sound .dec d) (hp : d.phase = .pixels)
    {r : Nat} {run : BitVec 6} (hrun : run ≤ Config.runFieldMax) (hr : d.rp ≤ r) (hlim : r ≤ d.lim)
    (c : Cache) (p : Pixel) :
    Engine.Sound .dec (Engine.produce { d with rp := r, run := run, cache := c } p) := by
  have hrunning : d.phase.running = true := by rw [hp]; rfl
  obtain ⟨⟨-, hc, hi, -⟩, hn, hlen, hwp, hrp, -⟩ := h.decCall hrunning
  have hi := hi hp
  have hnone := h.err_none hrunning
  refine ⟨?_, fun _ => ⟨⟨hrun, hc, fun h => ?_, fun h => ?_⟩, hn, hlen, ?_, hrp.trans hr, hlim⟩,
    fun h => ?_⟩
  · refine errWf_of_none hnone ?_
    rw [Engine.produce_phase, hp]
    split_ifs <;> simp
  · simp only [Engine.produce_phase, Engine.produce_i, Engine.produce_n, hp] at h ⊢
    split_ifs at h
    omega
  · simp only [Engine.produce_phase, Engine.produce_i, Engine.produce_n, hp] at h ⊢
    by_contra hne
    rw [if_neg hne] at h; cases h
  · simp only [Engine.produce_wp, Engine.produce_i, Engine.produce_channels, hwp, Nat.succ_mul]
  · simp only [Engine.produce_phase, hp] at h
    split_ifs at h

/-- A step of the decoder keeps it sound (R204, R207, R222). -/
theorem sound_decMove {s t : State} (h : Engine.Sound .dec s.dec) (hm : decMove s = .next t) :
    Engine.Sound .dec t.dec := by
  rcases decMove_cases hm with ⟨-, rfl⟩ | ⟨hp, hrun, rfl⟩ | ⟨-, -, -, rfl⟩ | ⟨-, -, -, -, rfl⟩ |
    ⟨hp, hrun, bytes, i, hroom, -, hdec, he⟩ | ⟨-, rfl⟩ | ⟨hp, rfl⟩
  · exact h
  · obtain ⟨⟨hle, -⟩, -, -, -, -, hlim⟩ := h.decCall (by rw [hp]; rfl)
    refine sound_produce h hp ?_ le_rfl hlim s.dec.cache s.dec.prev
    simp only [Config.runFieldMax] at *
    bv_omega
  · exact sound_raise _ _ _
  · exact sound_raise _ _ _
  · obtain ⟨hpos, hwf, hlen⟩ := decode_chunk_sound hdec
    rw [exec_chunk_eq hpos hrun] at he
    cases he
    exact sound_produce h hp (owed_le hwf) (Nat.le_add_right _ _) (by rw [hlen]; exact hroom) _ _
  · exact sound_raise _ _ _
  · have hrunning : s.dec.phase.running = true := by rw [hp]; rfl
    obtain ⟨⟨-, hc, -, hi⟩, hn, -, hwp, -⟩ := h.decCall hrunning
    have hnone := h.err_none hrunning
    refine ⟨errWf_of_none hnone (by simp), ?_, fun _ => ⟨hc, ?_⟩⟩
    · exact fun h => by cases h
    · show s.dec.wp = s.dec.width.toNat * s.dec.height.toNat * s.dec.channels.toNat
      rw [hwp, hi hp, hn]

/-! ### Every move -/

/-- A step of an engine keeps the registers sound. -/
theorem regWf_engineMove {id : EngineId} {s t : State} (h : s.regWf)
    (hm : engineMove id s = .next t) : t.regWf := by
  have hs := (regWf_iff s).mp h id
  cases id with
  | enc =>
    rcases encMove_cases hm with ⟨-, rfl⟩ | ⟨hp, rfl⟩ | ⟨hp, rfl⟩
    · exact h
    · exact regWf_setEngine (id := .enc) h (sound_encodePixel hs hp _)
    · exact regWf_setEngine (id := .enc) h (sound_encEnd hs hp)
  | dec =>
    obtain ⟨d, rfl⟩ := engineMove_next hm
    exact regWf_setEngine h (sound_decMove hs hm)

/-- A start step keeps the registers sound. -/
theorem regWf_startMove {id : EngineId} {s t : State} (h : s.regWf)
    (hm : startMove id s = .next t) : t.regWf := by
  obtain ⟨e, rfl⟩ := startMove_next hm
  cases id with
  | enc => cases hm; exact regWf_setEngine (id := .enc) h (sound_encStart s.enc)
  | dec => exact regWf_setEngine h (sound_decStart hm)

/-- A parameter written outside a call keeps the engine sound: no result register is writable
(R32, R35). -/
theorem sound_setReg {id : EngineId} {e : Engine} {r : Reg} (v : Nat) (h : Engine.Sound id e)
    (hw : writable id r = true) (hp : e.phase.running = false) :
    Engine.Sound id (e.setReg r v) := by
  have hphase : (e.setReg r v).phase = e.phase := by cases r <;> rfl
  have herr : (e.setReg r v).err = e.err := by cases r <;> rfl
  cases id with
  | enc =>
    obtain ⟨herrWf, -⟩ := h
    exact ⟨by rw [Engine.errWf, hphase, herr]; exact herrWf,
      fun hr => absurd hr (by simp [hphase, hp])⟩
  | dec =>
    obtain ⟨herrWf, -, hdone⟩ := h
    obtain rfl : r = .srcLen := by cases r with
      | srcLen => rfl
      | _ => cases hw
    exact ⟨herrWf, fun hr => absurd hr (by simp [hphase, hp]), hdone⟩

/-- A move of the host keeps the registers sound. -/
theorem regWf_hostMove {op : HostOp} {s t : State} (h : s.regWf) (hm : hostMove op s = .next t) :
    t.regWf := by
  have hs := (regWf_iff s).mp h
  have draw (id : EngineId) : (s.setEngine id (s.engine id).draw).regWf :=
    regWf_setEngine h (by cases id; exacts [hs .enc, hs .dec])
  rcases hostMove_cases hm with rfl | ⟨id, v, -, -, -, hst⟩ | ⟨id, r, v, -, hw, hp, rfl⟩ |
    ⟨id, v, rfl | rfl⟩ | ⟨id, off, bytes, -, -, rfl⟩ | ⟨id, -, rfl⟩
  · exact h
  · exact regWf_startMove h hst
  · exact regWf_setEngine h (sound_setReg v (hs id) hw hp)
  · exact h
  · exact draw id
  · exact regWf_setEngine h (by cases id; exacts [hs .enc, hs .dec])
  · exact regWf_setEngine h
      (sound_of_stopped (errWf_of_none rfl (by simp [Engine.assertReset])) rfl
        (by simp [Engine.assertReset]))

/-- Settles O37: `Engine.Sound` is kept by every move of every agent. -/
theorem stepKeepsRegistersSound : Obligations.StepKeepsRegistersSound := by
  intro s t h hstep
  rcases step_cases hstep with ⟨m, rest, -, hm⟩ | ⟨-, ⟨id, hm⟩ | rfl⟩
  · have h' : ({ s with agenda := rest } : State).regWf := h
    cases m with
    | host op => exact regWf_hostMove h' hm
    | engine id => exact regWf_engineMove h' hm
  · exact regWf_engineMove h hm
  · exact h

end Sys2Proof.Machine

/-! ## Moves of one engine see and change that engine only -/

namespace Sys2Proof.Machine

/-- The engine just replaced. -/
@[simp] theorem State.engine_setEngine_self (s : State) (id : EngineId) (e : Engine) :
    (s.setEngine id e).engine id = e := by rw [State.engine_setEngine, if_pos rfl]

/-- A move that always answers, changes the engine `id` only, and leaves of it what depends on that
engine alone (R6, R20). -/
def OwnEngineOnly (id : EngineId) (f : State → Host.Outcome State Fault Refusal) : Prop :=
  ∀ s s' : State, s'.engine id = s.engine id →
    ∃ e, f s = .next (s.setEngine id e) ∧ f s' = .next (s'.setEngine id e)

/-- Executing an instruction concerns the decoder only. -/
theorem exec_ownEngineOnly (i : Instr) : OwnEngineOnly .dec (exec i) := by
  rintro ⟨enc, dec, agenda, heard⟩ ⟨enc', dec', agenda', heard'⟩ (rfl : dec' = dec)
  cases i with
  | header w h c cs =>
    simp only [exec, execHeader]
    split_ifs <;> exact ⟨_, rfl, rfl⟩
  | _ => exact ⟨_, rfl, rfl⟩

/-- Running what was fetched concerns the decoder only. -/
theorem runFetched_ownEngineOnly (f : Fetched) : OwnEngineOnly .dec (runFetched f) := by
  cases f with
  | instr i => exact exec_ownEngineOnly i
  | raises k taken =>
    rintro ⟨enc, dec, agenda, heard⟩ ⟨enc', dec', agenda', heard'⟩ (rfl : dec' = dec)
    exact ⟨_, rfl, rfl⟩

/-- A step of an engine concerns that engine only. -/
theorem engineMove_ownEngineOnly (id : EngineId) : OwnEngineOnly id (engineMove id) := by
  intro s s' h
  cases id with
  | enc =>
    change s'.enc = s.enc at h
    cases hp : s.enc.phase with
    | pixels => exact ⟨_, encMove_pixel hp, by rw [← h]; exact encMove_pixel (h ▸ hp)⟩
    | atEnd => exact ⟨_, encMove_end hp, by rw [← h]; exact encMove_end (h ▸ hp)⟩
    | _ => exact ⟨s.enc, encMove_rest (by rw [hp]; rfl),
        by rw [← h]; exact encMove_rest (by rw [h, hp]; rfl)⟩
  | dec =>
    change s'.dec = s.dec at h
    show ∃ d, decMove s = _ ∧ decMove s' = _
    cases hp : s.dec.phase with
    | pixels =>
      by_cases hrun : s.dec.run = 0
      · rw [decMove_chunk hp hrun, decMove_chunk (h ▸ hp) (h ▸ hrun), h]
        exact runFetched_ownEngineOnly _ s s' h
      · exact ⟨_, decMove_run hp hrun, by rw [← h]; exact decMove_run (h ▸ hp) (h ▸ hrun)⟩
    | atEnd =>
      rw [decMove_end hp, decMove_end (h ▸ hp), h]
      exact runFetched_ownEngineOnly _ s s' h
    | _ => exact ⟨s.dec, decMove_rest (by rw [hp]; rfl),
        by rw [← h]; exact decMove_rest (by rw [h, hp]; rfl)⟩

/-- A start step of an engine concerns that engine only. -/
theorem startMove_ownEngineOnly (id : EngineId) : OwnEngineOnly id (startMove id) := by
  intro s s' h
  cases id with
  | enc =>
    change s'.enc = s.enc at h
    exact ⟨s.enc.encStart, rfl, by rw [← h]; rfl⟩
  | dec =>
    change s'.dec = s.dec at h
    show ∃ d, runFetched s.dec.fetchHeader s = _ ∧ runFetched s'.dec.fetchHeader s' = _
    rw [h]
    exact runFetched_ownEngineOnly _ s s' h

/-- A move of one engine that leads from `s` to `t` sets its engine to that of `t`, from every state with
the same engine. -/
theorem OwnEngineOnly.eq_setEngine {id : EngineId} {f : State → Host.Outcome State Fault Refusal}
    (hf : OwnEngineOnly id f) {s t s' : State} (h : f s = .next t)
    (hs : s'.engine id = s.engine id) : f s' = .next (s'.setEngine id (t.engine id)) := by
  obtain ⟨e, he, he'⟩ := hf s s' hs
  rw [he] at h; cases h
  rw [he', State.engine_setEngine_self]

/-- Settles O45: both kinds of step concern their own engine only. -/
theorem enginesShareNothing : Obligations.EnginesShareNothing := by
  intro id f hf s t h
  have hown : OwnEngineOnly id (f id) := by
    rcases hf with rfl | rfl
    · exact engineMove_ownEngineOnly id
    · exact startMove_ownEngineOnly id
  obtain ⟨e, he, -⟩ := hown s s rfl
  refine ⟨?_, ?_, ?_, fun s' hs => ⟨_, hown.eq_setEngine h hs, State.engine_setEngine_self _ _ _⟩⟩ <;>
    rw [he] at h <;> cases h
  · intro id' hid
    rw [State.engine_setEngine, if_neg hid]
  · exact State.setEngine_agenda s id e
  · exact State.setEngine_heard s id e

/-! ### One step of an engine as a function of the engine -/

/-- The engine after one step of its own. -/
def Engine.next (id : EngineId) (e : Engine) : Engine :=
  match engineMove id (State.reset.setEngine id e) with
  | .next t => t.engine id
  | .fault _ => e
  | .refused _ => e

/-- A step of an engine replaces it by `Engine.next`. -/
theorem engineMove_eq (id : EngineId) (s : State) :
    engineMove id s = .next (s.setEngine id ((s.engine id).next id)) := by
  obtain ⟨e, hs, hr⟩ := engineMove_ownEngineOnly id s (State.reset.setEngine id (s.engine id))
    (State.engine_setEngine_self _ _ _)
  have hnext : (s.engine id).next id = e := by
    unfold Engine.next
    rw [hr]
    exact State.engine_setEngine_self _ _ _
  rw [hnext, hs]

/-- What a step leaves of an engine is `Engine.next`. -/
theorem engine_eq_next {id : EngineId} {s t : State} (h : engineMove id s = .next t) :
    t.engine id = (s.engine id).next id := by
  rw [engineMove_eq] at h; cases h
  exact State.engine_setEngine_self _ _ _

/-- Settles O46: each step replaces its own engine by a function of that engine. -/
theorem engineStepsCommute : Obligations.EngineStepsCommute := by
  intro s u
  have henc (s : State) : engineMove .enc s = .next (s.setEnc (s.enc.next .enc)) :=
    engineMove_eq .enc s
  have hdec (s : State) : engineMove .dec s = .next (s.setDec (s.dec.next .dec)) :=
    engineMove_eq .dec s
  simp [henc, hdec, State.setEnc_setDec]

/-- A pixel step of the encoder (R164). -/
theorem next_enc_pixel {e : Engine} (h : e.phase = .pixels) :
    e.next .enc = e.encodePixel e.fetchPixel :=
  (engine_eq_next (id := .enc) (s := State.reset.setEnc e) (encMove_pixel h)).symm

/-- The end step of the encoder (R175). -/
theorem next_enc_end {e : Engine} (h : e.phase = .atEnd) : e.next .enc = e.encEnd :=
  (engine_eq_next (id := .enc) (s := State.reset.setEnc e) (encMove_end h)).symm

/-- A pixel step of the decoder with a pending run (R206). -/
theorem next_dec_run {d : Engine} (h : d.phase = .pixels) (hr : d.run ≠ 0) :
    d.next .dec = d.expandRun :=
  (engine_eq_next (id := .dec) (s := State.reset.setDec d) (decMove_run h hr)).symm

/-- A pixel step of the decoder raises Truncated, with no byte or the tag byte taken, or produces a pixel
(R204, R207). -/
theorem next_dec_pixel {d : Engine} (h : d.phase = .pixels) :
    (∃ taken, (taken = 0 ∨ taken = 1 ∧ d.rp + 1 ≤ d.lim) ∧
      d.next .dec = (d.advance taken).raise .truncated) ∨
    ∃ r run c p, d.next .dec = Engine.produce { d with rp := r, run := run, cache := c } p := by
  have hm := engineMove_eq .dec (State.reset.setDec d)
  rcases decMove_cases hm with ⟨hr, -⟩ | ⟨-, hrun, -⟩ | ⟨-, -, -, ht⟩ | ⟨-, -, hroom, -, ht⟩ |
    ⟨-, hrun, bytes, i, -, -, hdec, he⟩ | ⟨hq, -⟩ | ⟨hq, -⟩
  · simp [h, Phase.running] at hr
  · exact .inr ⟨d.rp, d.run - 1, d.cache, d.prev, next_dec_run h hrun⟩
  · exact .inl ⟨0, .inl rfl, congrArg State.dec ht⟩
  · exact .inl ⟨1, .inr ⟨rfl, hroom⟩, congrArg State.dec ht⟩
  · rw [exec_chunk_eq (decode_chunk_sound hdec).1 hrun] at he
    injection he with ht
    exact .inr ⟨_, _, _, _, congrArg State.dec ht.symm⟩
  · cases h.symm.trans hq
  · cases h.symm.trans hq

/-- The end step of the decoder raises CorruptEndMarker or ends the call (R222). -/
theorem next_dec_end {d : Engine} (h : d.phase = .atEnd) :
    d.next .dec = d.raise .corruptEndMarker ∨
    d.next .dec = { d with dstLen := d.wp, phase := .done } := by
  have hm := engineMove_eq .dec (State.reset.setDec d)
  have hrunning : d.phase.running = true := by rw [h]; rfl
  have hpixels : d.phase ≠ .pixels := by rw [h]; decide
  rcases decMove_cases hm with ⟨hr, -⟩ | ⟨hq, -⟩ | ⟨hq, -⟩ | ⟨hq, -⟩ | ⟨hq, -⟩ | ⟨-, ht⟩ | ⟨-, ht⟩
  · exact absurd hrunning (by simpa using hr)
  · exact absurd hq hpixels
  · exact absurd hq hpixels
  · exact absurd hq hpixels
  · exact absurd hq hpixels
  · exact .inl (congrArg State.dec ht)
  · exact .inr (congrArg State.dec ht)

/-- A step of an engine in no call does nothing (R260, R282). -/
theorem engineMove_rest {id : EngineId} {s : State} (h : (s.engine id).phase.running = false) :
    engineMove id s = .next s := by
  cases id with
  | enc => exact encMove_rest h
  | dec => exact decMove_rest h

/-- An engine in no call stays as it is (R260, R282). -/
theorem next_rest {id : EngineId} {e : Engine} (h : e.phase.running = false) : e.next id = e := by
  have hm : engineMove id (State.reset.setEngine id e) = .next (State.reset.setEngine id e) :=
    engineMove_rest (by rw [State.engine_setEngine_self]; exact h)
  simpa using (engine_eq_next hm).symm

/-! ### Agendas -/

theorem State.engine_withAgenda (s : State) (a : List Move) (id : EngineId) :
    ({ s with agenda := a } : State).engine id = s.engine id := by cases id <;> rfl

theorem State.setEngine_withAgenda (s : State) (a : List Move) (id : EngineId) (e : Engine) :
    ({ s with agenda := a } : State).setEngine id e = { s.setEngine id e with agenda := a } := by
  cases id <;> rfl

/-- A move of the host does not look at the agenda. -/
theorem hostMove_withAgenda {op : HostOp} {s t : State} (a : List Move)
    (h : hostMove op s = .next t) :
    hostMove op { s with agenda := a } = .next { t with agenda := a } := by
  cases op with
  | writeReg id r v =>
    change hostWrite id r v s = .next t at h
    change hostWrite id r v { s with agenda := a } = _
    unfold hostWrite at h ⊢
    rw [State.engine_withAgenda]
    split at h
    · split_ifs at h ⊢
      · exact startMove_withAgenda a h
      · cases h; rfl
    · split_ifs at h ⊢ <;> cases h
      · rw [State.setEngine_withAgenda]
      · rfl
  | readReg id r =>
    cases h
    show Host.Outcome.next (hostRead id r { s with agenda := a }) = _
    unfold hostRead
    rw [State.engine_withAgenda]
    dsimp only
    split_ifs
    · rw [State.setEngine_withAgenda]; rfl
    · rfl
  | readDst id off =>
    cases h
    show Host.Outcome.next (hostReadDst id off { s with agenda := a }) = _
    unfold hostReadDst
    rw [State.engine_withAgenda]
    dsimp only
    split
    · rfl
    · rw [State.setEngine_withAgenda]; rfl
  | placeSrc id off bytes =>
    change hostPlace id off bytes s = .next t at h
    change hostPlace id off bytes { s with agenda := a } = _
    unfold hostPlace at h ⊢
    rw [State.engine_withAgenda]
    dsimp only at h ⊢
    split_ifs at h ⊢
    cases h
    rw [State.setEngine_withAgenda]
  | assertReset id =>
    cases h
    show Host.Outcome.next _ = _
    rw [State.engine_withAgenda, State.setEngine_withAgenda]

/-- START outside a call is the start step (R32). -/
theorem hostMove_start {id : EngineId} {s : State} (h : (s.engine id).phase.running = false) :
    hostMove (.writeReg id .ctrl 1) s = startMove id s :=
  if_pos ⟨rfl, by simp [Engine.startable, h]⟩

/-- No move looks at the agenda: it is run move by move. -/
theorem runAgenda_move_cons {m : Move} {s t : State} (rest : List Move)
    (h : runMove m s = .next t) : runAgenda s (m :: rest) = runAgenda t rest := by
  cases m with
  | engine id => exact runAgenda_engine_cons rest h
  | host op =>
    have h' : runMove (.host op) { s with agenda := rest } = .next { t with agenda := rest } :=
      hostMove_withAgenda rest h
    rw [runAgenda_cons h', runAgenda_agenda]

/-- Steps of one engine, run from an agenda. -/
theorem runAgenda_replicate (id : EngineId) (k : Nat) (s : State) :
    runAgenda s (List.replicate k (.engine id)) =
      .next { s.setEngine id ((Engine.next id)^[k] (s.engine id)) with agenda := [] } := by
  induction k generalizing s with
  | zero => cases id <;> rfl
  | succ k ih =>
    rw [List.replicate_succ, runAgenda_engine_cons _ (engineMove_eq id s), ih,
      State.engine_setEngine_self, Function.iterate_succ_apply]
    cases id <;> rfl

/-! ## How far a call has come -/

/-- An engine in a call with `k` pixels to come: in PIXELS, or in END when there is none (R7, R27). -/
def Engine.Owes (e : Engine) (k : Nat) : Prop :=
  e.phase = (if k = 0 then .atEnd else .pixels) ∧ e.i + k = e.n

/-- A sound engine in a call owes the pixels from `i` on (R7). -/
theorem owes_of_callWf {e : Engine} (hrun : e.phase.running = true) (h : e.callWf) :
    e.Owes (e.n - e.i) := by
  obtain ⟨-, -, hpix, hend⟩ := h
  cases hp : e.phase with
  | pixels =>
    have := hpix hp
    exact ⟨by rw [hp, if_neg (by omega)], by omega⟩
  | atEnd =>
    have := hend hp
    exact ⟨by rw [hp, if_pos (by omega)], by omega⟩
  | _ => simp [hp, Phase.running] at hrun

/-- A call is under way whatever number of pixels is owed. -/
theorem Engine.Owes.running {e : Engine} {k : Nat} (h : e.Owes k) : e.phase.running = true := by
  rw [h.1]; split_ifs <;> rfl

/-- A call that begins owes all its pixels (R45). -/
theorem beginCall_owes (e : Engine) (id : EngineId) (n rp : Nat) : (e.beginCall id n rp).Owes n := by
  refine ⟨?_, Nat.zero_add n⟩
  show (if 0 < n then Phase.pixels else Phase.atEnd) = _
  by_cases hn : n = 0
  · rw [if_neg (by omega), if_pos hn]
  · rw [if_pos (by omega), if_neg hn]

/-- A start step raises an error or owes all pixels (R45). -/
theorem owes_of_startMove {id : EngineId} {s t : State} (h : startMove id s = .next t) :
    (t.engine id).phase = .error ∨ (t.engine id).Owes (t.engine id).n := by
  cases id with
  | enc =>
    cases h
    show s.enc.encStart.phase = .error ∨ s.enc.encStart.Owes s.enc.encStart.n
    rcases encStart_cases s.enc with ⟨-, hs⟩ | ⟨-, -, hs⟩ | ⟨-, -, hs⟩ <;> rw [hs]
    · exact .inl rfl
    · exact .inl rfl
    · exact .inr (beginCall_owes s.enc .enc _ 0)
  | dec =>
    rcases decStart_cases h with ⟨k, -, rfl⟩ | ⟨w, ht, c, cs, -, -, -, rfl⟩
    · exact .inl rfl
    · exact .inr (beginCall_owes _ .dec _ 14)

/-- A pixel step of the tail of R204 or R164: `i + 1`, and PHASE accordingly. -/
theorem Engine.Owes.pred {e e' : Engine} {k : Nat} (h : e.Owes (k + 1)) (hi : e'.i = e.i + 1)
    (hn : e'.n = e.n) (hp : e'.phase = if e.i + 1 = e.n then .atEnd else e.phase) : e'.Owes k := by
  obtain ⟨hphase, hsum⟩ := h
  rw [if_neg (Nat.succ_ne_zero k)] at hphase
  refine ⟨?_, by omega⟩
  rw [hp, hphase]
  by_cases hk : k = 0
  · rw [if_pos hk, if_pos (by omega)]
  · rw [if_neg hk, if_neg (by omega)]

/-- A pixel step raises an error or leaves one pixel less to come (R164, R204). -/
theorem owes_next {id : EngineId} {e : Engine} {k : Nat} (h : e.Owes (k + 1)) :
    (e.next id).phase = .error ∨ (e.next id).Owes k := by
  have hp : e.phase = .pixels := by rw [h.1, if_neg (Nat.succ_ne_zero k)]
  cases id with
  | enc =>
    rw [next_enc_pixel hp]
    exact .inr (h.pred (by simp) (by simp) (by simp))
  | dec =>
    rcases next_dec_pixel hp with ⟨taken, -, hn⟩ | ⟨r, run, c, p, hn⟩ <;> rw [hn]
    · exact .inl rfl
    · exact .inr (h.pred rfl rfl rfl)

/-- The end step ends the call (R175, R222). -/
theorem next_of_owes_zero {id : EngineId} {e : Engine} (h : e.Owes 0) :
    (e.next id).phase = .done ∨ (e.next id).phase = .error := by
  have hp : e.phase = .atEnd := h.1
  cases id with
  | enc => rw [next_enc_end hp]; exact .inl rfl
  | dec =>
    rcases next_dec_end hp with hn | hn <;> rw [hn]
    · exact .inr rfl
    · exact .inl rfl

/-- An engine that has failed stays so. -/
theorem iterate_next_error {id : EngineId} {e : Engine} (h : e.phase = .error) (k : Nat) :
    ((Engine.next id)^[k] e).phase = .error := by
  rw [Function.iterate_fixed (next_rest (by rw [h]; rfl)), h]

/-- A call that owes `k` pixels has ended after `k + 1` steps. -/
theorem ended_of_owes {id : EngineId} {e : Engine} {k : Nat} (h : e.Owes k) :
    ((Engine.next id)^[k + 1] e).phase = .done ∨ ((Engine.next id)^[k + 1] e).phase = .error := by
  induction k generalizing e with
  | zero => exact next_of_owes_zero h
  | succ k ih =>
    rw [Function.iterate_succ_apply]
    rcases owes_next h with herr | hk
    · exact .inr (iterate_next_error herr _)
    · exact ih hk

/-- Settles O49: the pixels owed go down by one at every step. -/
theorem everyCallEnds : Obligations.EveryCallEnds := by
  constructor
  · intro id s hphase
    have hstop : (s.engine id).phase.running = false := by
      rcases hphase with h | h | h <;> rw [h] <;> rfl
    obtain ⟨t, hstart⟩ := startMove_total id s
    have ht : runMove (.host (.writeReg id .ctrl 1)) s = .next t :=
      (hostMove_start hstop).trans hstart
    refine ⟨t, _, ht, (runAgenda_move_cons _ ht).trans (runAgenda_replicate id _ t), ?_⟩
    · rw [State.engine_withAgenda, State.engine_setEngine_self]
      rcases owes_of_startMove hstart with herr | howes
      · exact .inr (iterate_next_error herr _)
      · exact ended_of_owes howes
  · intro id s hwf hrun
    have hcall := ((regWf_iff s).mp hwf id).call hrun
    refine ⟨_, runAgenda_replicate id _ s, ?_⟩
    rw [State.engine_withAgenda, State.engine_setEngine_self]
    exact ended_of_owes (owes_of_callWf hrun hcall)

/-! ## Errors -/

/-- A start step that raises an error changes STATUS, and `N` before PixelBufferSizeMismatch (R161,
R260). -/
theorem startMove_error {id : EngineId} {s t : State} (h : startMove id s = .next t)
    (herr : (t.engine id).phase = .error) :
    ∃ k, t = s.setEngine id { s.engine id with
      phase := .error
      err := some k
      n := if k = .pixelBufferSizeMismatch then
          (s.engine id).width.toNat * (s.engine id).height.toNat
        else (s.engine id).n } := by
  cases id with
  | enc =>
    cases h
    rw [State.engine_enc, State.setEnc_enc] at herr
    rcases encStart_cases s.enc with ⟨-, hs⟩ | ⟨-, -, hs⟩ | ⟨-, -, hs⟩
    · exact ⟨.invalidChannelCount, by rw [hs]; rfl⟩
    · exact ⟨.pixelBufferSizeMismatch, by rw [hs]; rfl⟩
    · rw [hs] at herr
      exact absurd herr (beginCall_phase_ne_error s.enc .enc _ 0)
  | dec =>
    rcases decStart_cases h with ⟨k, hk, rfl⟩ | ⟨w, ht, c, cs, -, -, -, rfl⟩
    · exact ⟨k, by rcases hk with rfl | rfl | rfl <;> rfl⟩
    · exact absurd herr (beginCall_phase_ne_error _ .dec _ 14)

/-- A step that raises an error changes STATUS, and `rp` past the tag byte of a cut chunk (R13,
R260). -/
theorem next_error {id : EngineId} {e : Engine} (hne : e.phase ≠ .error)
    (herr : (e.next id).phase = .error) :
    ∃ k taken, e.next id = { e with phase := .error, err := some k, rp := e.rp + taken } ∧
      (taken = 0 ∨ taken = 1 ∧ id = .dec ∧ k = .truncated ∧ e.rp + 1 ≤ e.srcLen - 8) := by
  cases hp : e.phase with
  | pixels =>
    cases id with
    | enc =>
      rw [next_enc_pixel hp, Engine.encodePixel_phase, hp] at herr
      split_ifs at herr
    | dec =>
      rcases next_dec_pixel hp with ⟨taken, htaken, hn⟩ | ⟨r, run, c, p, hn⟩
      · exact ⟨.truncated, taken, hn, htaken.imp_right fun ⟨h1, hroom⟩ => ⟨h1, rfl, rfl, hroom⟩⟩
      · rw [hn, Engine.produce_phase, hp] at herr
        split_ifs at herr
  | atEnd =>
    cases id with
    | enc => rw [next_enc_end hp] at herr; cases herr
    | dec =>
      rcases next_dec_end hp with hn | hn
      · exact ⟨.corruptEndMarker, 0, hn, .inl rfl⟩
      · rw [hn] at herr; cases herr
  | error => exact absurd hp hne
  | _ => rw [next_rest (by rw [hp]; rfl), hp] at herr; cases herr

/-- Settles O22: what each step that ends in ERROR has changed. -/
theorem raiseChangesOnlyStatus : Obligations.RaiseChangesOnlyStatus := by
  intro id s t
  refine ⟨startMove_error, fun h herr hne => ?_, fun h => engineMove_rest (by rw [h]; rfl)⟩
  rw [engine_eq_next h] at herr
  obtain ⟨k, taken, hn, htaken⟩ := next_error hne herr
  refine ⟨k, taken, ?_, htaken⟩
  rw [engineMove_eq, hn] at h
  cases h; rfl

/-! ## One step -/

/-- A call is under way exactly in PIXELS and END (R32). -/
theorem running_iff (p : Phase) : p.running = true ↔ p = .pixels ∨ p = .atEnd := by
  cases p <;> simp [Phase.running]

/-- Settles O7: the definition of a step, branch by branch. -/
theorem stepIsOneMove : Obligations.StepIsOneMove := by
  intro s m rest
  have hself (ha : s.agenda = []) : step s = selfMove s := by unfold step; rw [ha]
  refine ⟨fun ha => by unfold step; rw [ha], fun ha hd => ?_, fun ha hd he => ?_, fun ha hd he => ?_⟩ <;>
    rw [hself ha] <;> unfold selfMove <;> rw [← running_iff] at hd
  · exact if_pos hd
  · rw [← running_iff] at he
    exact (if_neg hd).trans (if_pos he)
  · rw [← running_iff] at he
    exact (if_neg hd).trans (if_neg he)

/-! ## Source bytes -/

/-- Settles O56: read after write, lifted from the buffer to the engine's reads. -/
theorem writtenBytesReadAsWritten : Obligations.WrittenBytesReadAsWritten := by
  intro e id off n
  refine ⟨srcBytes_length e id off n, fun bytes h => srcBytes_of_readList id h,
    fun start x bytes => ?_⟩
  unfold Engine.srcByte
  dsimp only
  rw [Memory.read_writeList]
  split_ifs with hx
  · rw [List.getElem?_eq_getElem (by omega), List.getD_eq_getElem _ _ (by omega), Option.getD_some]
  · rfl

end Sys2Proof.Machine

/-! ## Decoder pixel steps in the words of the claims -/

namespace Sys2Proof.Machine

/-- A pixel step of the decoder that takes `len` bytes and leaves `run` pixels owed has produced its
pixel, whatever it does to the cache (R204, R218). -/
theorem produced_produce (s : State) (len : Nat) (run : BitVec 6) (c : Cache) (p : Pixel) :
    Produced s (s.setDec (Engine.produce
      { s.dec with rp := s.dec.rp + len, run := run, cache := c } p)) len p run := by
  refine ⟨rfl, fun off => ?_⟩
  rw [State.setDec_dec, Engine.produce_dst]
  dsimp only
  rw [Memory.read_writeList, List.length_take, show (samples p).length = 4 from rfl, min_comm]
  split_ifs with h
  · exact List.getElem?_take_of_lt (by omega)
  · rfl

/-- A coded chunk produces its pixel and stores it at its hash only (R210, R211, R214, R216). -/
theorem produced_produceCoded (s : State) (len : Nat) (p : Pixel) :
    Produced s (s.setDec (s.dec.produceCoded len p)) len p s.dec.run ∧
    Remembered s (s.setDec (s.dec.produceCoded len p)) p :=
  ⟨produced_produce s len s.dec.run _ p, fun k => cacheLookup_cacheStore _ _ _ k⟩

/-- A chunk is run where its bytes are read below `lim` (R204, R207). -/
theorem runsAt_of_decode {bytes : List Byte} {i : Instr} (h : decode .chunk bytes = .ok (i, []))
    (s : State) : RunsAt s bytes i := by
  intro hp hrun hroom hread
  show decMove s = exec i s
  rw [decMove_chunk hp hrun, fetchChunk_of_decode hroom hread h]
  rfl

/-- A chunk whose payload would cross `lim` is cut short after its tag byte (R207). -/
theorem cutShort_of_chunkLength {b : Byte} {len : Nat} (h : chunkLength b = len) (s : State) :
    CutShort s b len := by
  intro hp hrun hroom hread hcut
  show decMove s = _
  rw [decMove_chunk hp hrun, fetchChunk_cut hroom (by rw [hread, h]; exact hcut)]
  rfl

/-- Settles O11: the three facts about a coded chunk, for the tag FE. -/
theorem rgbResult : Obligations.RgbResult := fun s r g b =>
  ⟨⟨_, rfl, produced_produceCoded s 4 ⟨r, g, b, s.dec.prev.a⟩⟩,
    runsAt_of_decode rfl s, cutShort_of_chunkLength rfl s⟩

/-- Settles O12: the three facts about a coded chunk, for the tag FF. -/
theorem rgbaResult : Obligations.RgbaResult := fun s r g b a =>
  ⟨⟨_, rfl, produced_produceCoded s 5 ⟨r, g, b, a⟩⟩,
    runsAt_of_decode rfl s, cutShort_of_chunkLength rfl s⟩

/-! ### LUMA -/

/-- The channel sum of the reconstructor as a number (R219). -/
theorem addDelta_toNat (q : Byte) (d : Int) :
    ((addDelta q d).toNat : Int) = ((q.toNat : Int) + d) % 256 := by
  rw [addDelta, BitVec.toNat_ofInt, Int.toNat_of_nonneg (by omega)]
  rfl

/-- The byte that is a channel sum mod 256 (R219). -/
theorem addDelta_eq {q r : Byte} {d : Int} (h : (r.toNat : Int) = ((q.toNat : Int) + d) % 256) :
    addDelta q d = r := by
  apply BitVec.eq_of_toNat_eq
  have := addDelta_toNat q d
  omega

/-- A first byte 10dddddd is LUMA's: its length is 2 and with a second byte it decodes to LUMA
(R95, R100). -/
theorem decode_luma {b : Byte} (h : b.toNat / 64 = 2) (b2 : Byte) :
    chunkLength b = 2 ∧ decode .chunk [b, b2] =
      .ok (.luma (payload b) (b2.extractLsb' 4 4) (b2.extractLsb' 0 4), []) := by
  rcases decodeTag_cases b [b2] with
    ⟨hb, -⟩ | ⟨hb, -⟩ | ⟨hb, -⟩ | ⟨hb, -⟩ | ⟨-, hl, hd⟩ | ⟨hb, -⟩
  · rw [hb] at h; exact absurd h (by decide)
  · rw [hb] at h; exact absurd h (by decide)
  · omega
  · omega
  · exact ⟨hl, hd⟩
  · omega

/-- Settles O15: the sums mod 256, and the two bytes of LUMA. -/
theorem lumaResult : Obligations.LumaResult := by
  intro s
  refine ⟨fun fdg frg fbg r g b hr hg hb => ?_, fun b b2 h => ?_⟩
  · have hred : addDelta s.dec.prev.r
        (unbias frg Config.lumaCrossBias + unbias fdg Config.lumaGreenBias) = r :=
      addDelta_eq (by rw [hr, add_assoc]; rfl)
    have hgreen : addDelta s.dec.prev.g (unbias fdg Config.lumaGreenBias) = g := addDelta_eq hg
    have hblue : addDelta s.dec.prev.b
        (unbias fbg Config.lumaCrossBias + unbias fdg Config.lumaGreenBias) = b :=
      addDelta_eq (by rw [hb, add_assoc]; rfl)
    rw [← hred, ← hgreen, ← hblue]
    exact ⟨_, rfl, produced_produceCoded s 2 _⟩
  · obtain ⟨hlen, hdec⟩ := decode_luma h b2
    have hlow : b2.extractLsb' 0 4 = BitVec.ofNat 4 (b2.toNat % 16) := by
      rw [extract_eq, ← BitVec.toNat_inj, BitVec.toNat_ofNat, BitVec.toNat_ofNat]
      omega
    rw [payload_eq, extract_eq, hlow] at hdec
    exact ⟨runsAt_of_decode hdec s, cutShort_of_chunkLength hlen s⟩

end Sys2Proof.Machine

/-! ## Decoding undoes encoding -/

namespace Sys2Proof

/-- Two fields joined, as a number (R11). -/
theorem append_toNat {m n : Nat} (x : BitVec m) (y : BitVec n) :
    (x ++ y).toNat = x.toNat * 2 ^ n + y.toNat := by
  rw [BitVec.toNat_append, ← Nat.shiftLeft_add_eq_or_of_lt y.isLt, Nat.shiftLeft_eq]

/-- The three fields of a DIFF byte (R94). -/
theorem diff_fields (fr fg fb : BitVec 2) :
    let b : Byte := 0b01#2 ++ fr ++ fg ++ fb
    tagBits b = 0b01#2 ∧ b.extractLsb' 4 2 = fr ∧ b.extractLsb' 2 2 = fg ∧ b.extractLsb' 0 2 = fb := by
  have := fr.isLt; have := fg.isLt; have := fb.isLt
  dsimp only
  simp only [tagBits, extract_eq, ← BitVec.toNat_inj, BitVec.toNat_ofNat, append_toNat]
  omega

/-- The two fields of LUMA's second byte (R95). -/
theorem luma_fields (frg fbg : BitVec 4) :
    (frg ++ fbg : Byte).extractLsb' 4 4 = frg ∧ (frg ++ fbg : Byte).extractLsb' 0 4 = fbg := by
  have := frg.isLt; have := fbg.isLt
  simp only [extract_eq, ← BitVec.toNat_inj, BitVec.toNat_ofNat, append_toNat]
  omega

/-- The literal tags have the two-bit tag 11 (R101). -/
theorem ne_literal_tag {b : Byte} (h : tagBits b ≠ 0b11#2) :
    b ≠ Config.tagRgb ∧ b ≠ Config.tagRgba := by
  constructor <;> rintro rfl <;> exact h (by decide)

/-- The byte of a well-formed RUN is no literal tag (R101). -/
theorem run_byte_ne_literal_tag {runf : BitVec 6} (h : (Instr.run runf).WellFormed = true) :
    0b11#2 ++ runf ≠ Config.tagRgb ∧ 0b11#2 ++ runf ≠ Config.tagRgba := by
  have hle : runf.toNat ≤ 61 := of_decide_eq_true h
  constructor <;> intro he <;> have hn := congrArg BitVec.toNat he <;> rw [t6_toNat] at hn
  · change 3 * 64 + runf.toNat = 254 at hn
    omega
  · change 3 * 64 + runf.toNat = 255 at hn
    omega

/-- The encoding of a well-formed instruction, at its place and with any bytes after it, decodes to the
instruction and leaves those bytes (R93 to R98). -/
theorem decode_encode {i : Instr} (h : i.WellFormed = true) (rest : List Byte) :
    decode i.position (encode i ++ rest) = .ok (i, rest) := by
  cases i with
  | rgb r g b => rfl
  | rgba r g b a => rfl
  | index k =>
    have htag := tagBits_t6 0b00#2 k
    obtain ⟨h1, h2⟩ := ne_literal_tag (b := 0b00#2 ++ k) (by rw [htag]; decide)
    show decodeTag (0b00#2 ++ k) rest = _
    unfold decodeTag
    rw [if_neg h1, if_neg h2, if_pos htag, payload_t6]
  | diff fr fg fb =>
    obtain ⟨htag, hr, hg, hb⟩ := diff_fields fr fg fb
    obtain ⟨h1, h2⟩ := ne_literal_tag (b := 0b01#2 ++ fr ++ fg ++ fb) (by rw [htag]; decide)
    show decodeTag (0b01#2 ++ fr ++ fg ++ fb) rest = _
    unfold decodeTag
    rw [if_neg h1, if_neg h2, htag, if_neg (by decide), if_pos rfl, hr, hg, hb]
  | luma fdg frg fbg =>
    have htag := tagBits_t6 0b10#2 fdg
    obtain ⟨hr, hb⟩ := luma_fields frg fbg
    obtain ⟨h1, h2⟩ := ne_literal_tag (b := 0b10#2 ++ fdg) (by rw [htag]; decide)
    show decodeTag (0b10#2 ++ fdg) ((frg ++ fbg) :: rest) = _
    unfold decodeTag
    rw [if_neg h1, if_neg h2, htag, if_neg (by decide), if_neg (by decide), if_pos rfl,
      payload_t6]
    dsimp only
    rw [hr, hb]
  | run runf =>
    obtain ⟨h1, h2⟩ := run_byte_ne_literal_tag h
    show decodeTag (0b11#2 ++ runf) rest = _
    unfold decodeTag
    rw [if_neg h1, if_neg h2, tagBits_t6, if_neg (by decide), if_neg (by decide),
      if_neg (by decide), payload_t6]
  | header w ht c cs =>
    show decodeHeader (Config.magic ++ be32 w ++ be32 ht ++ [c, cs] ++ rest) = _
    unfold decodeHeader
    rw [if_neg (by rintro ⟨-, hne⟩; exact hne rfl)]
    show Except.ok (Instr.header (unbe32 _ _ _ _) (unbe32 _ _ _ _) c cs, rest) = _
    rw [unbe32_be32, unbe32_be32]
  | endMarker => rfl

/-- A chunk alone decodes from its encoding (R93 to R96). -/
theorem decode_chunk_encode {i : Instr} (hpos : i.position = .chunk) (h : i.WellFormed = true) :
    decode .chunk (encode i) = .ok (i, []) := by
  have := decode_encode h []
  rwa [hpos, List.append_nil] at this

/-- The encoding of an instruction has the length of its format (R91). -/
theorem encode_length (i : Instr) : (encode i).length = i.length := by cases i <;> rfl

/-- The bytes of a list of instructions. -/
def encodeAll (is : List Instr) : List Byte := is.flatMap encode

@[simp] theorem encodeAll_nil : encodeAll [] = [] := rfl

@[simp] theorem encodeAll_cons (i : Instr) (is : List Instr) :
    encodeAll (i :: is) = encode i ++ encodeAll is := rfl

@[simp] theorem encodeAll_append (is js : List Instr) :
    encodeAll (is ++ js) = encodeAll is ++ encodeAll js := List.flatMap_append

end Sys2Proof

/-! ## Executing undoes emitting -/

namespace Sys2Proof.Machine

/-- A delta in the range of its field is read back from it (R99). -/
theorem unbias_biased {w : Nat} {d bias : Int} (h0 : 0 ≤ d + bias) (h1 : d + bias < 2 ^ w) :
    unbias (biased w d bias) bias = d := by
  unfold unbias biased
  rw [BitVec.toNat_ofInt, Int.toNat_of_nonneg (by omega), Int.emod_eq_of_lt h0 (by exact_mod_cast h1)]
  omega

/-- The difference of two samples, added back (R168, R219). -/
theorem addDelta_delta (p q : Byte) : addDelta q (delta p q) = p := by
  refine addDelta_eq ?_
  have := p.isLt
  unfold delta
  omega

/-- The differences of two pixels of equal alpha, added back (R213). -/
theorem shifted_delta {p q : Pixel} (h : p.a = q.a) :
    shifted q (delta p.r q.r) (delta p.g q.g) (delta p.b q.b) = p := by
  unfold shifted
  rw [addDelta_delta, addDelta_delta, addDelta_delta, ← h]

theorem small_iff (d : Deltas) : d.small = true ↔
    (-2 ≤ d.dr ∧ d.dr ≤ 1) ∧ (-2 ≤ d.dg ∧ d.dg ≤ 1) ∧ (-2 ≤ d.db ∧ d.db ≤ 1) := by
  simp [Deltas.small, and_assoc]

theorem medium_iff (d : Deltas) : d.medium = true ↔
    (-32 ≤ d.dg ∧ d.dg ≤ 31) ∧ (-8 ≤ d.drg ∧ d.drg ≤ 7) ∧ (-8 ≤ d.dbg ∧ d.dbg ≤ 7) := by
  simp [Deltas.medium, and_assoc]

/-- The four chunks of a miss (R164 cases 3 to 6). -/
theorem missChunk_cases (p q : Pixel) :
    (p.a = q.a ∧ (differences p q).small = true ∧ missChunk p q = diffChunk (differences p q)) ∨
    (p.a = q.a ∧ (differences p q).medium = true ∧ missChunk p q = lumaChunk (differences p q)) ∨
    (p.a = q.a ∧ missChunk p q = rgbChunk p) ∨
    (p.a ≠ q.a ∧ missChunk p q = rgbaChunk p) := by
  unfold missChunk
  dsimp only
  split_ifs with ha hs hm
  · exact .inl ⟨ha, hs, rfl⟩
  · exact .inr (.inl ⟨ha, hm, rfl⟩)
  · exact .inr (.inr (.inl ⟨ha, rfl⟩))
  · exact .inr (.inr (.inr ⟨ha, rfl⟩))

/-- The chunk of a miss is a well-formed chunk that stores its pixel and owes none. -/
theorem missChunk_sound (p q : Pixel) :
    (missChunk p q).position = .chunk ∧ (missChunk p q).WellFormed = true ∧
    storesPixel (missChunk p q) = true ∧ owed (missChunk p q) = 0 := by
  rcases missChunk_cases p q with ⟨-, -, h⟩ | ⟨-, -, h⟩ | ⟨-, h⟩ | ⟨-, h⟩ <;> rw [h] <;>
    exact ⟨rfl, rfl, rfl, rfl⟩

/-- The chunk of a miss stands for the pixel it was chosen for (R224). -/
theorem pixel_missChunk (x : Context) (p : Pixel) : x.pixel (missChunk p x.prev) = p := by
  rcases missChunk_cases p x.prev with ⟨ha, hs, h⟩ | ⟨ha, hm, h⟩ | ⟨ha, h⟩ | ⟨-, h⟩ <;> rw [h]
  · obtain ⟨⟨_, _⟩, ⟨_, _⟩, _, _⟩ := (small_iff _).mp hs
    simp only [diffChunk, Context.pixel, Config.diffBias]
    rw [unbias_biased (by omega) (by omega), unbias_biased (by omega) (by omega),
      unbias_biased (by omega) (by omega)]
    exact shifted_delta ha
  · obtain ⟨⟨_, _⟩, ⟨_, _⟩, _, _⟩ := (medium_iff _).mp hm
    simp only [lumaChunk, Context.pixel, Config.lumaCrossBias, Config.lumaGreenBias]
    rw [unbias_biased (by omega) (by omega), unbias_biased (by omega) (by omega),
      unbias_biased (by omega) (by omega)]
    simp only [differences, sub_add_cancel]
    exact shifted_delta ha
  · show (⟨p.r, p.g, p.b, x.prev.a⟩ : Pixel) = p
    rw [← ha]
  · rfl

/-- The chunk the encoder chooses is a well-formed chunk that owes no pixel (R164). -/
theorem chunkFor_sound (e : Engine) (p : Pixel) :
    (e.chunkFor p).position = .chunk ∧ (e.chunkFor p).WellFormed = true ∧
    owed (e.chunkFor p) = 0 := by
  unfold Engine.chunkFor
  split_ifs
  · exact ⟨rfl, rfl, rfl⟩
  · obtain ⟨hpos, hwf, -, howed⟩ := missChunk_sound p e.prev
    exact ⟨hpos, hwf, howed⟩

/-- The chunk the encoder chooses stands for the pixel it codes (R224). -/
theorem pixel_chunkFor (e : Engine) (p : Pixel) : e.context.pixel (e.chunkFor p) = p := by
  unfold Engine.chunkFor
  split_ifs with h
  · exact of_decide_eq_true h
  · exact pixel_missChunk e.context p

/-- Encoder and decoder keep the same context over a coded pixel (R150, R224). -/
theorem context_codePixel (e : Engine) (p : Pixel) :
    (e.codePixel p).context = e.context.after (e.chunkFor p) := by
  have hstores : storesPixel (e.chunkFor p) = !e.hits p := by
    unfold Engine.chunkFor
    split_ifs with h
    · rw [h]; rfl
    · rw [(missChunk_sound p e.prev).2.2.1]; simp [h]
  rw [Engine.codePixel_eq, Context.after, pixel_chunkFor, hstores]
  cases h : e.hits p <;> rfl

end Sys2Proof.Machine

/-! ## Lists of chunks -/

namespace Sys2Proof.Machine

/-- The context after a list of chunks. -/
def Context.afterAll (x : Context) (cs : List Instr) : Context := cs.foldl Context.after x

/-- The pixels a list of chunks stands for: each chunk its pixel and the repeats it leaves owed (R204,
R206). -/
def Context.expand (x : Context) : List Instr → List Pixel
  | [] => []
  | c :: cs => List.replicate ((owed c).toNat + 1) (x.pixel c) ++ (x.after c).expand cs

/-- One more chunk at the end. -/
theorem afterAll_concat (x : Context) (cs : List Instr) (c : Instr) :
    x.afterAll (cs ++ [c]) = (x.afterAll cs).after c := List.foldl_concat ..

/-- The pixels of one more chunk at the end. -/
theorem expand_concat (x : Context) (cs : List Instr) (c : Instr) :
    x.expand (cs ++ [c]) =
      x.expand cs ++ List.replicate ((owed c).toNat + 1) ((x.afterAll cs).pixel c) := by
  induction cs generalizing x with
  | nil => simp [Context.expand, Context.afterAll]
  | cons d cs ih =>
    rw [List.cons_append, Context.expand, ih, Context.expand, List.append_assoc]
    rfl

/-- Instructions that the chunk region may hold. -/
def ChunkList (cs : List Instr) : Prop := ∀ c ∈ cs, c.position = .chunk ∧ c.WellFormed = true

theorem ChunkList.nil : ChunkList [] := fun _ h => by cases h

theorem ChunkList.concat {cs : List Instr} {c : Instr} (h : ChunkList cs)
    (hc : c.position = .chunk ∧ c.WellFormed = true) : ChunkList (cs ++ [c]) := by
  intro d hd
  rcases List.mem_append.mp hd with hd | hd
  · exact h d hd
  · rw [List.mem_singleton.mp hd]; exact hc

/-! ## What the encoder has emitted -/

/-- With no run pending no pixel is owed. -/
theorem replicate_of_no_run {run : BitVec 6} (h : run = 0) (p : Pixel) :
    List.replicate run.toNat p = [] := by rw [h]; rfl

/-- The output of `e` is exactly the instructions `is`, over a destination that held `base`. -/
def Engine.Wrote (e : Engine) (base : Memory) (is : List Instr) : Prop :=
  e.wp = (encodeAll is).length ∧ e.dst = Memory.writeList base 0 (encodeAll is)

/-- An emission appends an instruction to the output (R13). -/
theorem Engine.Wrote.emit {e : Engine} {base : Memory} {is : List Instr} (h : e.Wrote base is)
    (c : Instr) : (e.emit c).Wrote base (is ++ [c]) := by
  obtain ⟨hwp, hdst⟩ := h
  constructor
  · simp [hwp]
  · rw [emit_dst, hdst, hwp, encodeAll_append, Memory.writeList_append]
    simp

/-- The encoder has coded the pixels `done`: after the header `hd` it has emitted the chunks `cs`, which
with the run still pending stand for `done` and leave a decoder the encoder's context (R150, R165). -/
structure Engine.HasCoded (e : Engine) (base : Memory) (hd : Instr) (cs : List Instr)
    (done : List Pixel) : Prop where
  wrote : e.Wrote base (hd :: cs)
  chunks : ChunkList cs
  context : Context.start.afterAll cs = e.context
  pixels : Context.start.expand cs ++ List.replicate e.run.toNat e.prev = done

section
variable {e : Engine} {base : Memory} {hd : Instr} {cs : List Instr} {done : List Pixel}

/-- A pending run goes out as one RUN chunk that stands for its pixels (R166). -/
theorem Engine.HasCoded.flush (h : e.HasCoded base hd cs done) (h0 : e.run ≠ 0)
    (hle : e.run ≤ Config.maxRun) :
    e.flush.HasCoded base hd (cs ++ [.run (e.run - 1)]) done := by
  have hrun : (e.run - 1).toNat + 1 = e.run.toNat := by bv_omega
  have hwf : e.run - 1 ≤ Config.runFieldMax := by
    simp only [Config.maxRun, Config.runFieldMax] at *
    bv_omega
  refine ⟨h.wrote.emit _, h.chunks.concat ⟨rfl, decide_eq_true hwf⟩, ?_, ?_⟩
  · rw [afterAll_concat, h.context]; rfl
  · rw [expand_concat, h.context, ← h.pixels]
    show _ ++ List.replicate ((e.run - 1).toNat + 1) e.prev ++ [] = _
    rw [hrun, List.append_nil]

/-- A pending run, if any, is flushed. -/
theorem Engine.HasCoded.settled (h : e.HasCoded base hd cs done) (hle : e.run ≤ Config.runFieldMax) :
    ∃ cs', e.settled.HasCoded base hd cs' done := by
  by_cases h0 : e.run = 0
  · exact ⟨cs, by rw [settled_of_no_run h0]; exact h⟩
  · have hmax : e.run ≤ Config.maxRun := by
      simp only [Config.maxRun, Config.runFieldMax] at *
      bv_omega
    exact ⟨cs ++ [.run (e.run - 1)], by rw [settled_of_run h0]; exact h.flush h0 hmax⟩

/-- A pixel other than `prev` is coded by one chunk after the pending run (R164 cases 2 to 6). -/
theorem Engine.HasCoded.codePixel (h : e.HasCoded base hd cs done)
    (hle : e.run ≤ Config.runFieldMax) (p : Pixel) :
    ∃ cs', (e.codePixel p).HasCoded base hd cs' (done ++ [p]) := by
  obtain ⟨cs', hs⟩ := h.settled hle
  obtain ⟨hpos, hwf, howed⟩ := chunkFor_sound e p
  have hcontext : e.settled.context = e.context := by
    unfold Engine.context
    rw [settled_prev, settled_cache]
  have hpixels := hs.pixels
  rw [replicate_of_no_run e.settled_run, List.append_nil] at hpixels
  refine ⟨cs' ++ [e.chunkFor p], ?_, hs.chunks.concat ⟨hpos, hwf⟩, ?_, ?_⟩
  · rw [codePixel_eq]
    exact hs.wrote.emit (e.chunkFor p)
  · rw [afterAll_concat, hs.context, hcontext, context_codePixel]
  · have hrun : (e.codePixel p).run = 0 := by rw [codePixel_eq]; exact settled_run e
    rw [expand_concat, hs.context, hcontext, pixel_chunkFor, howed, hpixels,
      replicate_of_no_run hrun, List.append_nil]
    rfl

/-- A pixel equal to `prev` joins the pending run (R165). -/
theorem Engine.HasCoded.extendRun (h : e.HasCoded base hd cs done)
    (hle : e.run ≤ Config.runFieldMax) :
    ∃ cs', e.extendRun.HasCoded base hd cs' (done ++ [e.prev]) := by
  simp only [Config.runFieldMax] at hle
  have hrun : (e.run + 1).toNat = e.run.toNat + 1 := by bv_omega
  have hmore : Engine.HasCoded { e with run := e.run + 1 } base hd cs (done ++ [e.prev]) := by
    refine ⟨h.wrote, h.chunks, h.context, ?_⟩
    show _ ++ List.replicate (e.run + 1).toNat e.prev = _
    rw [hrun, List.replicate_succ', ← List.append_assoc, h.pixels]
  rcases e.extendRun_cases with ⟨-, -, hx⟩ | hx <;> rw [hx]
  · exact ⟨cs, hmore⟩
  · have h0 : e.run + 1 ≠ 0 := by bv_omega
    have hmax : e.run + 1 ≤ Config.maxRun := by simp only [Config.maxRun]; bv_omega
    exact ⟨_, hmore.flush h0 hmax⟩

/-- A pixel step codes its pixel (R164). -/
theorem Engine.HasCoded.encodePixel (h : e.HasCoded base hd cs done)
    (hle : e.run ≤ Config.runFieldMax) (p : Pixel) :
    ∃ cs', (e.encodePixel p).HasCoded base hd cs' (done ++ [p]) := by
  have h' : Engine.HasCoded { e with cur := p, rp := e.rp + e.channels.toNat } base hd cs done :=
    ⟨h.wrote, h.chunks, h.context, h.pixels⟩
  by_cases hp : p = e.prev
  · obtain ⟨cs', hx⟩ := h'.extendRun hle
    rw [encodePixel_extends hp]
    exact ⟨cs', hx.wrote, hx.chunks, hx.context, hx.pixels.trans (by rw [hp])⟩
  · obtain ⟨cs', hx⟩ := h'.codePixel hle p
    rw [encodePixel_codes hp]
    exact ⟨cs', hx.wrote, hx.chunks, hx.context, hx.pixels⟩

end

/-! ## An encode call -/

/-- The pixel of the source buffer with number `j` (R64, R163). -/
def Engine.pixelNo (e : Engine) (j : Nat) : Pixel :=
  Engine.fetchPixel { e with rp := j * e.channels.toNat }

/-- The pixels the encoder is to code. -/
def Engine.image (e : Engine) : List Pixel := (List.range e.n).map e.pixelNo

theorem image_length (e : Engine) : e.image.length = e.n := by simp [Engine.image]

/-- A pixel step does not change the image. -/
theorem image_encodePixel (e : Engine) (p : Pixel) : (e.encodePixel p).image = e.image := by
  rw [e.encodePixel_frame]; rfl

/-- The encoder is in a call on the image `img`, with `k` pixels to come. -/
structure Engine.Encoding (e : Engine) (base : Memory) (hd : Instr) (img : List Pixel) (k : Nat) :
    Prop where
  sound : Engine.Sound .enc e
  owes : e.Owes k
  image : e.image = img
  coded : ∃ cs, e.HasCoded base hd cs (img.take e.i)

section
variable {e : Engine} {base : Memory} {hd : Instr} {img : List Pixel} {k : Nat}

/-- A pixel step of the encoder codes the next pixel of the image (R163, R164). -/
theorem Engine.Encoding.next (h : e.Encoding base hd img (k + 1)) :
    (e.next .enc).Encoding base hd img k := by
  have hp : e.phase = .pixels := by rw [h.owes.1, if_neg (Nat.succ_ne_zero k)]
  obtain ⟨⟨hrun, -, hi, -⟩, -, -, hrp, -⟩ := h.sound.encCall h.owes.running
  have hpixel : img[e.i]? = some e.fetchPixel := by
    rw [← h.image, Engine.image, List.getElem?_map, List.getElem?_range (hi hp)]
    show some (Engine.fetchPixel { e with rp := e.i * e.channels.toNat }) = _
    rw [← hrp]
  obtain ⟨cs, hcs⟩ := h.coded
  rw [next_enc_pixel hp]
  refine ⟨sound_encodePixel h.sound hp _, h.owes.pred (by simp) (by simp) (by simp),
    by rw [image_encodePixel, h.image], ?_⟩
  rw [encodePixel_i, List.take_add_one, hpixel]
  exact hcs.encodePixel hrun _

/-- All pixel steps of the encoder. -/
theorem Engine.Encoding.iterate (h : e.Encoding base hd img k) :
    ((Engine.next .enc)^[k] e).Encoding base hd img 0 := by
  induction k generalizing e with
  | zero => exact h
  | succ k ih => rw [Function.iterate_succ_apply]; exact ih h.next

/-- The end step delivers the header, the chunks of the image and the end marker (R175). -/
theorem Engine.Encoding.finish (h : e.Encoding base hd img 0) :
    ∃ cs, ChunkList cs ∧ Context.start.expand cs = img ∧
      (e.next .enc).delivers (encodeAll (hd :: cs ++ [.endMarker])) := by
  have hp : e.phase = .atEnd := h.owes.1
  obtain ⟨-, -, -, -, -, hrun⟩ := h.sound.encCall h.owes.running
  have hnone := h.sound.err_none h.owes.running
  have hall : img.take e.i = img := by
    rw [List.take_of_length_le]
    rw [← h.image, image_length, ← h.owes.2]
    exact le_rfl
  obtain ⟨cs, hcs⟩ := h.coded
  refine ⟨cs, hcs.chunks, ?_, ?_⟩
  · have := hcs.pixels
    rwa [replicate_of_no_run (hrun hp), List.append_nil, hall] at this
  · rw [next_enc_end hp]
    obtain ⟨hwp, hdst⟩ := hcs.wrote.emit .endMarker
    refine ⟨rfl, hnone, hwp, ?_⟩
    show Memory.readList (e.emit .endMarker).dst 0 _ = _
    rw [hdst]
    exact Memory.readList_writeList _ 0 _

end

/-- The start step accepts a valid channel count and a source of the right size (R161). -/
theorem encStart_accepts {e : Engine} (hc : validChannels e.channels = true)
    (hlen : e.srcLen = e.width.toNat * e.height.toNat * e.channels.toNat) :
    e.encStart = (e.beginCall .enc (e.width.toNat * e.height.toNat) 0).emit
      (.header e.width e.height e.channels e.colorspace) := by
  rcases encStart_cases e with ⟨h, -⟩ | ⟨-, h, -⟩ | ⟨-, -, h⟩
  · rw [hc] at h; cases h
  · exact absurd hlen h
  · exact h

/-- A call that the encoder accepts codes the whole image and delivers the stream: header, chunks that
stand for the image, end marker (R161, R164, R175). -/
theorem encode_call {e : Engine} (hc : validChannels e.channels = true)
    (hlen : e.srcLen = e.width.toNat * e.height.toNat * e.channels.toNat) :
    ∃ cs, ChunkList cs ∧ Context.start.expand cs = e.encStart.image ∧
      ((Engine.next .enc)^[e.width.toNat * e.height.toNat + 1] e.encStart).delivers
        (encodeAll (.header e.width e.height e.channels e.colorspace :: cs ++ [.endMarker])) := by
  have hstart := encStart_accepts hc hlen
  have hwrote : (e.beginCall .enc (e.width.toNat * e.height.toNat) 0).Wrote e.dst [] := ⟨rfl, rfl⟩
  have h0 : e.encStart.Encoding e.dst (.header e.width e.height e.channels e.colorspace)
      e.encStart.image (e.width.toNat * e.height.toNat) := by
    refine ⟨sound_encStart e, ?_, rfl, [], ?_⟩ <;> rw [hstart]
    · exact beginCall_owes e .enc _ 0
    · exact ⟨hwrote.emit _, .nil, rfl, rfl⟩
  obtain ⟨cs, hchunks, hexpand, hdelivers⟩ := h0.iterate.finish
  refine ⟨cs, hchunks, hexpand, ?_⟩
  rw [Function.iterate_succ_apply']
  exact hdelivers

/-! ## The samples of an image -/

/-- A range read in two parts. -/
theorem srcBytes_add (e : Engine) (id : EngineId) (off n k : Nat) :
    e.srcBytes id off (n + k) = e.srcBytes id off n ++ e.srcBytes id (off + n) k := by
  induction n generalizing off with
  | zero => simp [Engine.srcBytes]
  | succ n ih =>
    rw [Nat.succ_add_eq_add_succ, Nat.add_succ]
    show _ :: e.srcBytes id (off + 1) (n + k) = _ :: e.srcBytes id (off + 1) n ++ _
    rw [ih, List.cons_append]
    congr 3
    omega

/-- The samples of one pixel, as both engines lay them out (R65). -/
def outSamples (channels : Byte) (p : Pixel) : List Byte := (samples p).take channels.toNat

/-- The channel counts of a call. -/
theorem validChannels_iff (c : Byte) : validChannels c = true ↔ c = 3 ∨ c = 4 := by
  simp [validChannels]

/-- The samples of a fetched pixel are the source bytes it was fetched from (R163). -/
theorem outSamples_fetchPixel {e : Engine} (hc : validChannels e.channels = true) :
    outSamples e.channels e.fetchPixel = e.srcBytes .enc e.rp e.channels.toNat := by
  rcases (validChannels_iff _).mp hc with h | h
  · rw [h]; rfl
  · unfold outSamples Engine.fetchPixel
    rw [if_pos h, h]; rfl

/-- The samples of the image are the source bytes (R61, R64). -/
theorem outSamples_image {e : Engine} (hc : validChannels e.channels = true) :
    e.image.flatMap (outSamples e.channels) = e.srcBytes .enc 0 (e.n * e.channels.toNat) := by
  unfold Engine.image
  generalize e.n = n
  induction n with
  | zero => rw [Nat.zero_mul]; rfl
  | succ n ih =>
    have hpixel : outSamples e.channels (e.pixelNo n) =
        e.srcBytes .enc (n * e.channels.toNat) e.channels.toNat :=
      (outSamples_fetchPixel (e := { e with rp := n * e.channels.toNat }) hc).trans
        (srcBytes_congr .enc fun _ _ _ => rfl)
    rw [List.range_succ, List.map_append, List.flatMap_append, ih, Nat.succ_mul, srcBytes_add,
      Nat.zero_add, List.map_singleton, List.flatMap_singleton, hpixel]

end Sys2Proof.Machine

/-! ## What the decoder has still to read -/

namespace Sys2Proof.Machine

/-- What an engine reads, every engine with the same source buffer reads. -/
theorem srcBytes_transfer {e e' : Engine} {id : EngineId} {off n : Nat} {bytes : List Byte}
    (h : e.srcBytes id off n = bytes) (hsrc : e'.src = e.src) : e'.srcBytes id off n = bytes :=
  (srcBytes_congr id fun _ _ _ => by rw [hsrc]).trans h

/-- A pixel step with no pending run whose bytes are the encoding of a chunk executes the chunk
(R204, R207). -/
theorem next_dec_chunk {d : Engine} {c : Instr} (hp : d.phase = .pixels) (hrun : d.run = 0)
    (hc : c.position = .chunk ∧ c.WellFormed = true) (hroom : d.rp + (encode c).length ≤ d.lim)
    (hread : d.srcBytes .dec d.rp (encode c).length = encode c) :
    d.next .dec = Engine.produce { d with
      rp := d.rp + (encode c).length
      run := owed c
      cache := (d.context.after c).cache } (d.context.pixel c) := by
  have hdec := decode_chunk_encode hc.1 hc.2
  have hstep : engineMove .dec (State.reset.setDec d) = exec c (State.reset.setDec d) :=
    runsAt_of_decode hdec _ hp hrun hroom hread
  rw [exec_chunk_eq hc.1 hrun] at hstep
  rw [encode_length]
  exact (engine_eq_next hstep).symm

/-- The end step finds the end marker (R222). -/
theorem next_dec_marker {d : Engine} (hp : d.phase = .atEnd)
    (hread : d.srcBytes .dec d.lim 8 = Config.endMarker) :
    d.next .dec = { d with dstLen := d.wp, phase := .done } := by
  rcases fetchTrailer_cases d with ⟨hne, -⟩ | ⟨-, hf⟩
  · exact absurd hread hne
  · have hstep : engineMove .dec (State.reset.setDec d) = exec .endMarker (State.reset.setDec d) := by
      show decMove _ = _
      rw [decMove_end hp, State.setDec_dec, hf]; rfl
    exact (engine_eq_next hstep).symm

/-- The decoder is to produce the pixels `todo`: those of its pending run, then those of the chunks `cs`,
whose bytes lie from `rp` up to `lim` and are followed by the end marker. -/
structure Engine.WillRead (d : Engine) (cs : List Instr) (todo : List Pixel) : Prop where
  bytes : d.srcBytes .dec d.rp (encodeAll cs).length = encodeAll cs
  room : d.rp + (encodeAll cs).length = d.lim
  marker : d.srcBytes .dec d.lim 8 = Config.endMarker
  chunks : ChunkList cs
  pixels : List.replicate d.run.toNat d.prev ++ d.context.expand cs = todo

/-- A pixel step produces the next pixel (R204, R206). -/
theorem Engine.WillRead.next {d : Engine} {cs : List Instr} {p : Pixel} {todo : List Pixel}
    (h : d.WillRead cs (p :: todo)) (hp : d.phase = .pixels) :
    ∃ r run cache cs',
      d.next .dec = Engine.produce { d with rp := r, run := run, cache := cache } p ∧
      (d.next .dec).WillRead cs' todo := by
  by_cases hrun : d.run = 0
  · have hpixels := h.pixels
    rw [replicate_of_no_run hrun, List.nil_append] at hpixels
    cases cs with
    | nil => cases hpixels
    | cons c cs =>
      rw [Context.expand, List.replicate_succ, List.cons_append] at hpixels
      obtain ⟨rfl, htodo⟩ := List.cons.inj hpixels
      have hbytes := h.bytes
      have hroom := h.room
      rw [encodeAll_cons, List.length_append] at hbytes hroom
      rw [srcBytes_add] at hbytes
      obtain ⟨hfirst, hrest⟩ := List.append_inj hbytes (by rw [srcBytes_length])
      have hnext := next_dec_chunk hp hrun (h.chunks c List.mem_cons_self) (by omega) hfirst
      refine ⟨_, _, _, cs, hnext, ?_⟩
      rw [hnext]
      exact ⟨srcBytes_transfer hrest rfl, (Nat.add_assoc ..).trans hroom,
        srcBytes_transfer h.marker rfl,
        fun c' hc' => h.chunks c' (List.mem_cons_of_mem _ hc'), htodo⟩
  · have hcount : d.run.toNat = (d.run - 1).toNat + 1 := by bv_omega
    have hpixels := h.pixels
    rw [hcount, List.replicate_succ, List.cons_append] at hpixels
    obtain ⟨rfl, htodo⟩ := List.cons.inj hpixels
    refine ⟨d.rp, d.run - 1, d.cache, cs, next_dec_run hp hrun, ?_⟩
    rw [next_dec_run hp hrun]
    exact ⟨srcBytes_transfer h.bytes rfl, h.room,
      srcBytes_transfer h.marker rfl, h.chunks, htodo⟩

/-! ## A decode call -/

/-- The fields of a header, as the registers hold them (R35, R97). -/
structure HeaderFields where
  width : Word32
  height : Word32
  channels : Byte
  colorspace : Byte

/-- The header fields in the registers of an engine. -/
def Engine.headerFields (e : Engine) : HeaderFields := ⟨e.width, e.height, e.channels, e.colorspace⟩

/-- The decoder is in a call on a stream with header `f` that is to deliver the image `img`, with `k`
pixels to come, over a destination that held `base`. -/
structure Engine.Decoding (d : Engine) (base : Memory) (f : HeaderFields) (img : List Pixel)
    (k : Nat) : Prop where
  sound : Engine.Sound .dec d
  owes : d.Owes k
  fields : d.headerFields = f
  size : d.n = img.length
  wrote : d.dst = Memory.writeList base 0 ((img.take d.i).flatMap (outSamples d.channels))
  toRead : ∃ cs, d.WillRead cs (img.drop d.i)

/-- As many samples as channels are put out for each pixel (R65, R218). -/
theorem outSamples_length {c : Byte} (hc : validChannels c = true) (ps : List Pixel) :
    (ps.flatMap (outSamples c)).length = ps.length * c.toNat := by
  have hone (p : Pixel) : (outSamples c p).length = c.toNat := by
    rw [outSamples, List.length_take]
    rcases (validChannels_iff c).mp hc with rfl | rfl <;> rfl
  induction ps with
  | nil => rw [List.length_nil, Nat.zero_mul]; rfl
  | cons p ps ih =>
    rw [List.flatMap_cons, List.length_append, hone, ih, List.length_cons, Nat.succ_mul, Nat.add_comm]

section
variable {d : Engine} {base : Memory} {f : HeaderFields} {img : List Pixel} {k : Nat}

/-- A pixel step of the decoder delivers the next pixel of the image (R204, R218). -/
theorem Engine.Decoding.next (h : d.Decoding base f img (k + 1)) :
    (d.next .dec).Decoding base f img k := by
  have hp : d.phase = .pixels := by rw [h.owes.1, if_neg (Nat.succ_ne_zero k)]
  obtain ⟨⟨-, hc, -⟩, -, -, hwp, -⟩ := h.sound.decCall h.owes.running
  have hi : d.i < img.length := by rw [← h.size, ← h.owes.2]; omega
  obtain ⟨cs, hread⟩ := h.toRead
  rw [List.drop_eq_getElem_cons hi] at hread
  obtain ⟨r, run, cache, cs', hnext, hread'⟩ := hread.next hp
  have hsound : Engine.Sound .dec (d.next .dec) :=
    sound_decMove (s := State.reset.setDec d) h.sound (engineMove_eq .dec (State.reset.setDec d))
  have hlen : (img.take d.i).length = d.i := List.length_take_of_le hi.le
  refine ⟨hsound, ?_, ?_, ?_, ?_, cs', ?_⟩ <;> rw [hnext]
  · exact h.owes.pred rfl rfl rfl
  · exact h.fields
  · exact h.size
  · rw [produce_dst, produce_i, produce_channels]
    dsimp only
    rw [List.take_add_one, List.getElem?_eq_getElem hi, Option.toList_some, List.flatMap_append,
      Memory.writeList_append, ← h.wrote, outSamples_length hc, hlen, Nat.zero_add, ← hwp,
      List.flatMap_singleton]
    rfl
  · rw [hnext] at hread'
    exact hread'

/-- All pixel steps of the decoder. -/
theorem Engine.Decoding.iterate (h : d.Decoding base f img k) :
    ((Engine.next .dec)^[k] d).Decoding base f img 0 := by
  induction k generalizing d with
  | zero => exact h
  | succ k ih => rw [Function.iterate_succ_apply]; exact ih h.next

/-- The end step delivers the samples of the image (R222). -/
theorem Engine.Decoding.finish (h : d.Decoding base f img 0) :
    (d.next .dec).delivers (img.flatMap (outSamples f.channels)) ∧
    (d.next .dec).headerFields = f := by
  have hchannels : d.channels = f.channels := congrArg HeaderFields.channels h.fields
  have hp : d.phase = .atEnd := h.owes.1
  obtain ⟨⟨-, hc, -⟩, -, -, hwp, -⟩ := h.sound.decCall h.owes.running
  have hnone := h.sound.err_none h.owes.running
  have hi : d.i = img.length := by rw [← h.size, ← h.owes.2]; rfl
  obtain ⟨cs, hread⟩ := h.toRead
  rw [next_dec_marker hp hread.marker]
  rw [← hchannels]
  refine ⟨⟨rfl, hnone, ?_, ?_⟩, h.fields⟩
  · show d.wp = _
    rw [outSamples_length hc, hwp, hi]
  · show Memory.readList d.dst 0 _ = _
    rw [h.wrote, hi, List.take_length]
    exact Memory.readList_writeList base 0 _

end

/-- The start step accepts a stream of 22 bytes or more that begins with a header of 3 or 4 channels
(R121, R201). -/
theorem decStart_of_header {s : State} {w h : Word32} {c cs : Byte} (hc : validChannels c = true)
    (hlen : 22 ≤ s.dec.srcLen) (hread : s.dec.srcBytes .dec 0 14 = encode (.header w h c cs)) :
    decStart s = .next (s.setDec (Engine.beginCall
      { s.dec with width := w, height := h, channels := c, colorspace := cs }
      .dec (w.toNat * h.toNat) 14)) := by
  have hmagic : s.dec.srcBytes .dec 0 4 = Config.magic := by
    rw [← srcBytes_take s.dec .dec (show 4 ≤ 14 by omega), hread]; rfl
  have hdec : decode .header (encode (.header w h c cs)) = .ok (.header w h c cs, []) := by
    have := decode_encode (i := .header w h c cs) rfl []
    rwa [List.append_nil] at this
  have hfetch : s.dec.fetchHeader = .instr (.header w h c cs) := by
    rcases fetchHeader_cases s.dec with ⟨h1, -⟩ | ⟨-, h1, -⟩ | ⟨-, h1, -⟩ |
      ⟨w', h', c', cs', -, -, hd, hf⟩
    · omega
    · exact absurd hmagic h1
    · omega
    · rw [hread, hdec] at hd
      cases hd; exact hf
  unfold decStart
  rw [hfetch]
  show exec (.header w h c cs) s = _
  rcases exec_header_cases w h c cs s with ⟨h1, -⟩ | ⟨-, h1, -⟩ | ⟨-, -, he⟩
  · rw [hc] at h1; cases h1
  · omega
  · exact he

/-- A call on a stream of header, chunks and end marker delivers the header and the samples of the
pixels the chunks stand for (R201, R204, R222). -/
theorem decode_call {s : State} {w h : Word32} {c cs : Byte} {chunks : List Instr}
    (hc : validChannels c = true) (hchunks : ChunkList chunks)
    (hsize : (Context.start.expand chunks).length = w.toNat * h.toNat)
    (hlen : s.dec.srcLen = (encodeAll (.header w h c cs :: chunks ++ [.endMarker])).length)
    (hread : s.dec.srcBytes .dec 0 s.dec.srcLen =
      encodeAll (.header w h c cs :: chunks ++ [.endMarker])) :
    ∃ d, decStart s = .next (s.setDec d) ∧
      ((Engine.next .dec)^[w.toNat * h.toNat + 1] d).delivers
        ((Context.start.expand chunks).flatMap (outSamples c)) ∧
      ((Engine.next .dec)^[w.toNat * h.toNat + 1] d).headerFields = ⟨w, h, c, cs⟩ := by
  have hhead : (encode (.header w h c cs)).length = 14 := rfl
  have hmark : (encode .endMarker).length = 8 := rfl
  rw [List.cons_append, encodeAll_cons, encodeAll_append, encodeAll_cons, encodeAll_nil,
    List.append_nil] at hlen hread
  rw [List.length_append, List.length_append, hhead, hmark] at hlen
  rw [hlen, srcBytes_add, srcBytes_add] at hread
  obtain ⟨hheader, hread⟩ := List.append_inj hread (by rw [srcBytes_length, hhead])
  obtain ⟨hbody, hmarker⟩ := List.append_inj hread (by rw [srcBytes_length])
  have hstart := decStart_of_header hc (by omega) hheader
  refine ⟨_, hstart, ?_⟩
  have hlim : 14 + (encodeAll chunks).length = s.dec.srcLen - 8 := by omega
  rw [Nat.zero_add, hlim] at hmarker
  have h0 : Engine.Decoding (Engine.beginCall
      { s.dec with width := w, height := h, channels := c, colorspace := cs }
      .dec (w.toNat * h.toNat) 14) s.dec.dst ⟨w, h, c, cs⟩ (Context.start.expand chunks)
      (w.toNat * h.toNat) :=
    ⟨sound_decStart hstart, beginCall_owes _ .dec _ 14, rfl, hsize.symm, rfl, chunks,
      srcBytes_transfer hbody rfl, hlim,
      srcBytes_transfer hmarker rfl, hchunks, rfl⟩
  rw [Function.iterate_succ_apply']
  exact h0.iterate.finish

/-! ## Whole calls from an agenda -/

/-- The host's part of an encode call (R300). -/
def encodeSetup (samples : List Byte) (w h : Word32) (c cs : Byte) : List Move :=
  [.host (.placeSrc .enc 0 samples), .host (.writeReg .enc .width w.toNat),
    .host (.writeReg .enc .height h.toNat), .host (.writeReg .enc .channels c.toNat),
    .host (.writeReg .enc .colorspace cs.toNat), .host (.writeReg .enc .srcLen samples.length),
    .host (.writeReg .enc .ctrl 1)]

theorem encodeAgenda_eq (samples : List Byte) (w h : Word32) (c cs : Byte) :
    encodeAgenda samples w h c cs =
      encodeSetup samples w h c cs ++ List.replicate (w.toNat * h.toNat + 1) (.engine .enc) := rfl

/-- The host's part of a decode call (R300). -/
def decodeSetup (stream : List Byte) : List Move :=
  [.host (.placeSrc .dec 0 stream), .host (.writeReg .dec .srcLen stream.length),
    .host (.writeReg .dec .ctrl 1)]

theorem decodeAgenda_eq (stream : List Byte) (n : Nat) :
    decodeAgenda stream n = decodeSetup stream ++ List.replicate (n + 1) (.engine .dec) := rfl

section
variable {id : EngineId} {s t : State} (rest : List Move)

/-- The host places source bytes outside a call (R60). -/
theorem runAgenda_place (hp : (s.engine id).phase.running = false) (off : Nat) (bytes : List Byte) :
    runAgenda s (.host (.placeSrc id off bytes) :: rest) = runAgenda (s.setEngine id
      { s.engine id with src := Memory.writeList (s.engine id).src off bytes }) rest :=
  runAgenda_move_cons rest (show hostPlace id off bytes s = _ from if_neg (by simp [hp]))

/-- The host writes a parameter register outside a call (R31). -/
theorem runAgenda_setReg (hp : (s.engine id).phase.running = false) {r : Reg}
    (hw : writable id r = true) (v : Nat) :
    runAgenda s (.host (.writeReg id r v) :: rest) =
      runAgenda (s.setEngine id ((s.engine id).setReg r v)) rest := by
  refine runAgenda_move_cons rest (show hostWrite id r v s = _ from ?_)
  cases r with
  | ctrl => cases id <;> cases hw
  | _ => exact if_pos ⟨hw, by simp [hp]⟩

/-- The host starts a call outside a call (R32). -/
theorem runAgenda_start (hp : (s.engine id).phase.running = false) (h : startMove id s = .next t) :
    runAgenda s (.host (.writeReg id .ctrl 1) :: rest) = runAgenda t rest :=
  runAgenda_move_cons rest (show hostMove _ s = _ from (hostMove_start hp).trans h)

end

/-- The encoder with the parameters and the source bytes of a call. -/
def Engine.forEncode (e : Engine) (samples : List Byte) (w h : Word32) (c cs : Byte) : Engine :=
  { e with
    src := Memory.writeList e.src 0 samples
    width := w
    height := h
    channels := c
    colorspace := cs
    srcLen := samples.length }

/-- Writing a value that fits its register writes that value (log 12). -/
theorem forEncode_eq_setReg (e : Engine) (samples : List Byte) (w h : Word32) (c cs : Byte) :
    e.forEncode samples w h c cs =
      ((((Engine.setReg { e with src := Memory.writeList e.src 0 samples } .width w.toNat).setReg
        .height h.toNat).setReg .channels c.toNat).setReg .colorspace cs.toNat).setReg
        .srcLen samples.length := by
  simp [Engine.forEncode, Engine.setReg]

/-- The decoder with the source bytes of a call. -/
def Engine.forDecode (d : Engine) (stream : List Byte) : Engine :=
  { d with src := Memory.writeList d.src 0 stream, srcLen := stream.length }

/-- The host's part of an encode call sets the parameters and takes the start step (R161, R300). -/
theorem runAgenda_encodeSetup {s : State} (hp : s.enc.phase.running = false) (samples : List Byte)
    (w h : Word32) (c cs : Byte) (rest : List Move) :
    runAgenda s (encodeSetup samples w h c cs ++ rest) =
      runAgenda (s.setEnc (s.enc.forEncode samples w h c cs).encStart) rest := by
  rw [forEncode_eq_setReg]
  unfold encodeSetup
  simp only [List.cons_append, List.nil_append]
  rw [runAgenda_place (id := .enc) _ hp, runAgenda_setReg (id := .enc) _ (by exact hp) rfl,
    runAgenda_setReg (id := .enc) _ (by exact hp) rfl,
    runAgenda_setReg (id := .enc) _ (by exact hp) rfl,
    runAgenda_setReg (id := .enc) _ (by exact hp) rfl,
    runAgenda_setReg (id := .enc) _ (by exact hp) rfl]
  exact runAgenda_start (id := .enc) rest hp rfl

/-- The host's part of a decode call sets the length and takes the start step (R201, R300). -/
theorem runAgenda_decodeSetup {s t : State} (hp : s.dec.phase.running = false) (stream : List Byte)
    (rest : List Move) (h : decStart (s.setDec (s.dec.forDecode stream)) = .next t) :
    runAgenda s (decodeSetup stream ++ rest) = runAgenda t rest := by
  unfold decodeSetup
  simp only [List.cons_append, List.nil_append]
  rw [runAgenda_place (id := .dec) _ hp, runAgenda_setReg (id := .dec) _ (by exact hp) rfl]
  exact runAgenda_start (id := .dec) rest hp h

/-- What was placed is read (R60). -/
theorem srcBytes_placed {e : Engine} (id : EngineId) {m : Memory} {bytes : List Byte}
    (h : e.src = Memory.writeList m 0 bytes) : e.srcBytes id 0 bytes.length = bytes :=
  srcBytes_of_readList id (by rw [h]; exact Memory.readList_writeList m 0 bytes)

/-- The source buffer, the channels and the pixel count with which the encoder's start step begins. -/
theorem encStart_image {e : Engine} (hc : validChannels e.channels = true)
    (hlen : e.srcLen = e.width.toNat * e.height.toNat * e.channels.toNat) :
    e.encStart.src = e.src ∧ e.encStart.channels = e.channels ∧
    e.encStart.n = e.width.toNat * e.height.toNat := by
  rw [encStart_accepts hc hlen]; exact ⟨rfl, rfl, rfl⟩

/-- The samples of the image of a call are the samples placed for it (R64, R163). -/
theorem image_forEncode {e : Engine} {samples : List Byte} {w h : Word32} {c cs : Byte}
    (hc : validChannels c = true) (hlen : samples.length = w.toNat * h.toNat * c.toNat) :
    (e.forEncode samples w h c cs).encStart.image.length = w.toNat * h.toNat ∧
    (e.forEncode samples w h c cs).encStart.image.flatMap (outSamples c) = samples := by
  obtain ⟨hsrc, hchannels, hn⟩ := encStart_image (e := e.forEncode samples w h c cs) hc hlen
  generalize (e.forEncode samples w h c cs).encStart = e' at *
  change e'.channels = c at hchannels
  change e'.n = w.toNat * h.toNat at hn
  refine ⟨by rw [image_length, hn], ?_⟩
  have hout := outSamples_image (e := e') (by rw [hchannels]; exact hc)
  rwa [hchannels, hn, ← hlen, srcBytes_placed .enc hsrc] at hout

/-- An encode call delivers the header, chunks that stand for the pixels of the samples, and the end
marker (R161, R164, R175). -/
theorem encodes_chunks {s : State} {samples : List Byte} {w h : Word32} {c cs : Byte}
    (hp : s.enc.phase.running = false) (hc : validChannels c = true)
    (hlen : samples.length = w.toNat * h.toNat * c.toNat) :
    ∃ chunks, ChunkList chunks ∧
      (Context.start.expand chunks).length = w.toNat * h.toNat ∧
      (Context.start.expand chunks).flatMap (outSamples c) = samples ∧
      Encodes s samples w h c cs (encodeAll (.header w h c cs :: chunks ++ [.endMarker])) := by
  obtain ⟨chunks, hchunks, hexpand, hdelivers⟩ :=
    encode_call (e := s.enc.forEncode samples w h c cs) hc hlen
  obtain ⟨hsize, hsamples⟩ := image_forEncode (e := s.enc) (cs := cs) hc hlen
  rw [← hexpand] at hsize hsamples
  have hrun := (runAgenda_encodeSetup hp samples w h c cs _).trans
    (runAgenda_replicate .enc (w.toNat * h.toNat + 1) _)
  rw [← encodeAgenda_eq] at hrun
  exact ⟨chunks, hchunks, hsize, hsamples, _, hrun, hdelivers⟩

/-- A decode call of a header, chunks and the end marker delivers the header and the samples of the
pixels the chunks stand for (R201, R204, R222). -/
theorem decodes_chunks {s : State} {w h : Word32} {c cs : Byte} {chunks : List Instr}
    (hp : s.dec.phase.running = false) (hc : validChannels c = true) (hchunks : ChunkList chunks)
    (hsize : (Context.start.expand chunks).length = w.toNat * h.toNat) :
    Decodes s (encodeAll (.header w h c cs :: chunks ++ [.endMarker])) w h c cs
      ((Context.start.expand chunks).flatMap (outSamples c)) := by
  generalize hstream : encodeAll (.header w h c cs :: chunks ++ [.endMarker]) = stream
  obtain ⟨d, hstart, hdelivers, hfields⟩ :=
    decode_call (s := s.setDec (s.dec.forDecode stream)) hc hchunks hsize
      (by rw [hstream]; rfl) (by rw [hstream]; exact srcBytes_placed .dec rfl)
  obtain ⟨hw, hh, hch, hcs⟩ := HeaderFields.mk.inj hfields
  have hrun := (runAgenda_decodeSetup hp stream _ hstart).trans
    (runAgenda_replicate .dec (w.toNat * h.toNat + 1) _)
  rw [← decodeAgenda_eq] at hrun
  exact ⟨_, hrun, hdelivers, hw, hh, hch, hcs⟩

/-- Settles O51: the chunks of the encode call stand for the pixels of the samples, and the decode call
delivers what its chunks stand for. -/
theorem roundTrip : Obligations.RoundTrip := by
  intro s s' samples w h c cs henc hdec hc hlen
  have hvalid := (validChannels_iff c).mpr hc
  obtain ⟨chunks, hchunks, hsize, hsamples, hencodes⟩ := encodes_chunks (cs := cs) henc hvalid hlen
  have hdecodes := decodes_chunks (cs := cs) hdec hvalid hchunks hsize
  rw [hsamples] at hdecodes
  exact ⟨_, hencodes, hdecodes⟩

end Sys2Proof.Machine

/-! ## The host's registers and buffers -/

namespace Sys2Proof.Machine

/-! ### Writes -/

/-- What a host write does, in order of its tests: ignored during a call; at CTRL the start step when
bit 0 is set; at a parameter register the write; ignored elsewhere (R31, R32, R35). -/
theorem hostWrite_eq (id : EngineId) (r : Reg) (v : Nat) (s : State) :
    hostWrite id r v s =
      if (s.engine id).phase.running = true then .next s
      else if r = .ctrl then (if v % 2 = 1 then startMove id s else .next s)
      else if writable id r = true then .next (s.setEngine id ((s.engine id).setReg r v))
      else .next s := by
  cases hp : (s.engine id).phase.running <;> cases r <;>
    simp [hostWrite, Engine.startable, hp]

/-- A parameter register the host may write holds no result: it reads as what it holds. -/
theorem isResult_of_writable {id : EngineId} {r : Reg} (h : writable id r = true) :
    isResult id r = false := by
  revert h; cases id <;> cases r <;> decide

theorem writable_ctrl (id : EngineId) : writable id .ctrl = false := by cases id <;> rfl

/-! ### Reads -/

/-- A read of a register that holds no result, or of a result in DONE, returns what it holds (R32,
R35). -/
theorem hostRead_held {id : EngineId} {r : Reg} {s : State}
    (h : isResult id r = false ∨ (s.engine id).phase = .done) :
    hostRead id r s = s.hear ((s.engine id).regValue r) :=
  if_neg fun hvoid => by
    rcases h with h | h
    · rw [h] at hvoid; cases hvoid.1
    · exact hvoid.2 h

/-- A read of a result outside DONE returns a free value (R261, log 7). -/
theorem hostRead_void {id : EngineId} {r : Reg} {s : State} (hr : isResult id r = true)
    (hp : (s.engine id).phase ≠ .done) :
    hostRead id r s =
      (s.setEngine id (s.engine id).draw).hear (freeReg id (s.engine id).fresh r) :=
  if_pos ⟨hr, hp⟩

/-- A read of a destination byte outside DONE returns a free value (R261, log 7). -/
theorem hostReadDst_void {id : EngineId} {s : State} (off : Nat)
    (hp : (s.engine id).phase ≠ .done) :
    hostReadDst id off s = (s.setEngine id (s.engine id).draw).hear
      (Config.freeByte id (s.engine id).fresh).toNat := by
  unfold hostReadDst
  simp only [hp, false_and, if_false]

/-- A read of a written destination byte below DSTLEN in DONE returns the byte (R60, R75). -/
theorem hostReadDst_byte {id : EngineId} {s : State} {off : Nat} {b : Byte}
    (hp : (s.engine id).phase = .done) (hoff : off < (s.engine id).dstLen)
    (hb : Memory.read (s.engine id).dst off = some b) :
    hostReadDst id off s = s.hear b.toNat := by
  unfold hostReadDst
  simp only [hp, hoff, and_self, if_true, hb]

/-- Settles O42: outside DONE a read hears a free value that depends on the count of free values only;
in DONE it hears what the register or the buffer holds. -/
theorem resultsAreVoidOutsideDone : Obligations.ResultsAreVoidOutsideDone := by
  intro id s s' r off
  refine ⟨fun hr hp hp' hfresh => ?_, fun hp hp' hfresh => ?_, fun hp => hostRead_held (.inr hp),
    fun hp => ⟨hostRead_held (.inr hp), hostRead_held (.inr hp), hostRead_held (.inr hp),
      hostRead_held (.inr hp)⟩, ?_⟩
  · rw [hostRead_void hr hp, hostRead_void hr hp', hfresh]; rfl
  · rw [hostReadDst_void off hp, hostReadDst_void off hp', hfresh]; rfl
  · rintro bytes ⟨hp, -, hlen, hread⟩ b hb
    have hoff : off < bytes.length := (List.getElem?_eq_some_iff.mp hb).1
    have hbyte := (Memory.readList_eq_some.mp hread).2 off hoff
    rw [Nat.zero_add, hb] at hbyte
    exact hostReadDst_byte hp (hlen ▸ hoff) hbyte

/-- A parameter written outside a call reads back, if the register has room for it (R31). -/
theorem parameter_reads_back {id : EngineId} {r : Reg} {v : Nat} {s : State}
    (hw : writable id r = true) (hp : (s.engine id).phase.running = false)
    (hv : ((s.engine id).setReg r v).regValue r = v) :
    hostWrite id r v s = .next (s.setEngine id ((s.engine id).setReg r v)) ∧
    hostRead id r (s.setEngine id ((s.engine id).setReg r v)) =
      (s.setEngine id ((s.engine id).setReg r v)).hear v := by
  constructor
  · have hr : r ≠ .ctrl := by
      rintro rfl
      rw [writable_ctrl] at hw; cases hw
    rw [hostWrite_eq, if_neg (by simp [hp]), if_neg hr, if_pos hw]
  · rw [hostRead_held (.inl (isResult_of_writable hw)), State.engine_setEngine_self, hv]

/-- Settles O41: the branches of a host write, and the read of what it wrote. -/
theorem hostRegisterAccess : Obligations.HostRegisterAccess := by
  intro id s r v
  simp only [← running_iff, Bool.not_eq_true]
  refine ⟨fun hr => ?readOnly, hostRead_held (.inl (by cases id <;> rfl)), fun hp => ?inCall,
    fun hv => ?noStart, fun hv hp => ?start, fun hp => ?srcLen, fun hp => ?parameters⟩
  case readOnly =>
    have hctrl : r ≠ .ctrl := by
      rcases hr with rfl | rfl | ⟨-, rfl | rfl | rfl | rfl⟩ <;> simp
    have hw : writable id r = false := by
      rcases hr with rfl | rfl | ⟨rfl, rfl | rfl | rfl | rfl⟩
      · cases id <;> rfl
      · cases id <;> rfl
      all_goals rfl
    rw [hostWrite_eq, if_neg hctrl, hw, if_neg Bool.false_ne_true, ite_self]
  case inCall => rw [hostWrite_eq, if_pos hp]
  case noStart =>
    have hbit : ¬ v % 2 = 1 := by omega
    rw [hostWrite_eq, if_pos (rfl : Reg.ctrl = .ctrl), if_neg hbit, ite_self]
  case start => rw [hostWrite_eq, if_neg (by simp [hp]), if_pos rfl, if_pos hv]
  case srcLen =>
    obtain ⟨hwrite, hread⟩ := parameter_reads_back (r := .srcLen) (by cases id <;> rfl) hp rfl
    exact ⟨_, hwrite, rfl, hread⟩
  case parameters =>
    have param (r : Reg) (hw : writable .enc r = true) := parameter_reads_back (v := v) hw hp
    refine ⟨fun hv => ?_, fun hv => ?_, fun hv => ?_, fun hv => ?_⟩
    · exact (param .width rfl (Nat.mod_eq_of_lt hv)).elim fun hw hr => ⟨_, hw, rfl, hr⟩
    · exact (param .height rfl (Nat.mod_eq_of_lt hv)).elim fun hw hr => ⟨_, hw, rfl, hr⟩
    · exact (param .channels rfl (Nat.mod_eq_of_lt hv)).elim fun hw hr => ⟨_, hw, rfl, hr⟩
    · exact (param .colorspace rfl (Nat.mod_eq_of_lt hv)).elim fun hw hr => ⟨_, hw, rfl, hr⟩

/-! ### STATUS -/

theorem Phase.code_le (p : Phase) : p.code ≤ 4 := by cases p <;> decide

theorem errCode_le (err : Option ErrorKind) : errCode err ≤ 5 := by
  rcases err with _ | k
  · decide
  · cases k <;> decide

/-- The ERR field is 0 exactly when there is no error (R34). -/
theorem errCode_ne_zero_iff (err : Option ErrorKind) : errCode err ≠ 0 ↔ err ≠ none := by
  rcases err with _ | k
  · decide
  · cases k <;> decide

/-- Code 4 is ERROR's alone (R34). -/
theorem Phase.code_eq_four_iff (p : Phase) : p.code = 4 ↔ p = .error := by cases p <;> decide

/-- STATUS as a number: the PHASE code in the low three bits, the ERR code above (R34). -/
theorem status_toNat (e : Engine) : e.status.toNat = errCode e.err * 8 + e.phase.code := by
  have hphase := e.phase.code_le
  have herr := errCode_le e.err
  rw [Engine.status, append_toNat, append_toNat, BitVec.toNat_ofNat, BitVec.toNat_ofNat,
    BitVec.toNat_ofNat, Nat.mod_eq_of_lt (show errCode e.err < 2 ^ 3 by omega),
    Nat.mod_eq_of_lt (show e.phase.code < 2 ^ 3 by omega)]
  omega

/-- Settles O40: the two codes are the digits of STATUS in base 8. -/
theorem hostReadsStatus : Obligations.HostReadsStatus := by
  intro id s hwf
  have hphase := (s.engine id).phase.code_le
  have herr := errCode_le (s.engine id).err
  have hstatus := status_toNat (s.engine id)
  have hlow : (s.engine id).status.toNat % 8 = (s.engine id).phase.code := by omega
  have hhigh : (s.engine id).status.toNat / 8 = errCode (s.engine id).err := by omega
  have hlt : (s.engine id).status.toNat < 64 := by omega
  refine ⟨_, hostRead_held (.inl (by cases id <;> rfl)), hlt, hlow.trans ?_, hhigh.trans ?_, ?_⟩
  · cases (s.engine id).phase <;> rfl
  · rcases (s.engine id).err with _ | k
    · rfl
    · cases k <;> rfl
  · show (s.engine id).status.toNat / 8 ≠ 0 ↔ (s.engine id).status.toNat % 8 = 4
    rw [hlow, hhigh, errCode_ne_zero_iff, Phase.code_eq_four_iff]
    exact hwf

/-! ### Reset -/

/-- Settles O39: the values of reset, and an engine in no call is sound. -/
theorem resetIsSound : Obligations.ResetIsSound := by
  have hcall : ¬ Engine.inCall Engine.reset := by decide
  refine ⟨rfl, rfl, rfl, rfl, by decide, by decide, Memory.reset_memWf,
    (regWf_iff _).mpr fun id => ?_, ⟨fun h => absurd h hcall, fun h => absurd h hcall⟩, rfl⟩
  have hreset : State.reset.engine id = Engine.reset := by cases id <;> rfl
  rw [hreset]
  exact sound_of_stopped (by decide) rfl (by decide)

end Sys2Proof.Machine

/-! ## Start steps -/

namespace Sys2Proof.Machine

theorem not_validChannels_iff (c : Byte) : validChannels c = false ↔ ¬ (c = 3 ∨ c = 4) := by
  rw [← validChannels_iff, Bool.not_eq_true]

/-! ### The encoder -/

/-- The start step rejects a channel count other than 3 and 4 first (R161, R254). -/
theorem encStart_rejects_channels {e : Engine} (hc : validChannels e.channels = false) :
    e.encStart = e.raise .invalidChannelCount := by
  rcases encStart_cases e with ⟨-, h⟩ | ⟨hv, -⟩ | ⟨hv, -⟩
  · exact h
  · rw [hc] at hv; cases hv
  · rw [hc] at hv; cases hv

/-- The start step rejects a source that is not exactly as long as the image, with `N` set (R161). -/
theorem encStart_rejects_size {e : Engine} (hc : validChannels e.channels = true)
    (hlen : e.srcLen ≠ e.width.toNat * e.height.toNat * e.channels.toNat) :
    e.encStart = Engine.raise { e with n := e.width.toNat * e.height.toNat }
      .pixelBufferSizeMismatch := by
  rcases encStart_cases e with ⟨hv, -⟩ | ⟨-, -, h⟩ | ⟨-, hl, -⟩
  · rw [hc] at hv; cases hv
  · exact h
  · exact absurd hl hlen

/-- Settles O28: the three outcomes of the start step, and the header read back from E.DST. -/
theorem encoderStart : Obligations.EncoderStart := by
  intro s
  have hmove : startMove .enc s = .next (s.setEnc s.enc.encStart) := rfl
  rw [hmove]
  refine ⟨fun hp => ?trigger, fun hc => ?channels, fun hc hlen => ?size, fun hc hlen => ?accepts⟩
  case trigger => exact hostMove_start (by rcases hp with h | h | h <;> simp [h, Phase.running])
  case channels => rw [encStart_rejects_channels ((not_validChannels_iff _).mpr hc)]; rfl
  case size => rw [encStart_rejects_size ((validChannels_iff _).mpr hc) hlen]; rfl
  case accepts =>
    rw [encStart_accepts ((validChannels_iff _).mpr hc) hlen]
    refine ⟨_, rfl, cacheLookup_cacheInit, fun off => ?_, rfl⟩
    show Memory.read (Memory.writeList s.enc.dst 0
      (encode (.header s.enc.width s.enc.height s.enc.channels s.enc.colorspace))) off = _
    rw [Memory.read_writeList, encode_length, encode, be32_eq, be32_eq, Nat.zero_add, Nat.sub_zero]
    simp only [Nat.zero_le, true_and]
    rfl

/-! ### The decoder -/

/-- Settles O17: the three outcomes of HEADER. -/
theorem headerResult : Obligations.HeaderResult := by
  intro s w h c cs
  rw [← not_validChannels_iff, ← validChannels_iff]
  rcases exec_header_cases w h c cs s with ⟨hc, he⟩ | ⟨hc, hlen, he⟩ | ⟨hc, hlen, he⟩ <;>
    rw [he, hc]
  · exact ⟨fun _ => ⟨_, rfl, rfl⟩, nofun, nofun⟩
  · exact ⟨nofun, fun _ _ => ⟨_, rfl, rfl⟩, fun _ h => by omega⟩
  · exact ⟨nofun, fun _ h => by omega,
      fun _ _ => ⟨_, rfl, cacheLookup_cacheInit, rfl⟩⟩

/-- The header fetch depends on D.SRC and D_SRCLEN only (R121). -/
theorem fetchHeader_congr {d d' : Engine} (hsrc : d'.src = d.src) (hlen : d'.srcLen = d.srcLen) :
    d'.fetchHeader = d.fetchHeader := by
  have hbytes (n : Nat) : d'.srcBytes .dec 0 n = d.srcBytes .dec 0 n :=
    srcBytes_congr .dec fun x _ _ => by rw [hsrc]
  unfold Engine.fetchHeader
  rw [hlen, hbytes, hbytes]

/-- The decoder at the beginning of a call whose header gives these fields (R45, R201). -/
def Engine.beginDecode (d : Engine) (w h : Word32) (c cs : Byte) : Engine :=
  Engine.beginCall { d with width := w, height := h, channels := c, colorspace := cs }
    .dec (w.toNat * h.toNat) 14

/-- Two decoders with the same source take the same start step: both raise the same error, or both
begin the call of the same header (R201). -/
theorem decStart_alike {s s' t : State} (hsrc : s'.dec.src = s.dec.src)
    (hlen : s'.dec.srcLen = s.dec.srcLen) (h : decStart s = .next t) :
    (∃ k, t = s.setDec (s.dec.raise k) ∧ decStart s' = .next (s'.setDec (s'.dec.raise k))) ∨
    (∃ w ht c cs, t = s.setDec (s.dec.beginDecode w ht c cs) ∧
      decStart s' = .next (s'.setDec (s'.dec.beginDecode w ht c cs))) := by
  unfold decStart at h ⊢
  rw [fetchHeader_congr hsrc hlen]
  rcases fetchHeader_cases s.dec with ⟨-, hf⟩ | ⟨-, -, hf⟩ | ⟨-, -, -, hf⟩ |
    ⟨w, ht, c, cs, -, -, -, hf⟩ <;> rw [hf] at h ⊢
  · cases h; exact .inl ⟨_, rfl, rfl⟩
  · cases h; exact .inl ⟨_, rfl, rfl⟩
  · cases h; exact .inl ⟨_, rfl, rfl⟩
  · change execHeader w ht c cs s = .next t at h
    change (∃ k, _ ∧ execHeader w ht c cs s' = _) ∨
      ∃ _ _ _ _, _ ∧ execHeader w ht c cs s' = _
    unfold execHeader at h ⊢
    rw [hlen]
    split_ifs at h ⊢ <;> cases h
    · exact .inl ⟨_, rfl, rfl⟩
    · exact .inl ⟨_, rfl, rfl⟩
    · exact .inr ⟨w, ht, c, cs, rfl, rfl⟩

/-! ### What a start step leaves and forgets -/

/-- Settles O26: the fields of a call that begins, in each engine. -/
theorem startOfCallValues : Obligations.StartOfCallValues := by
  intro id s t h
  cases id with
  | enc =>
    cases h
    rw [State.engine_enc, State.setEnc_enc]
    rcases encStart_cases s.enc with ⟨-, hs⟩ | ⟨-, -, hs⟩ | ⟨-, -, hs⟩ <;> rw [hs]
    · exact ⟨fun hp => absurd rfl hp, fun _ => Option.some_ne_none _⟩
    · exact ⟨fun hp => absurd rfl hp, fun _ => Option.some_ne_none _⟩
    · exact ⟨fun _ => ⟨cacheLookup_cacheInit, rfl, rfl, rfl, rfl,
          fun _ => ⟨rfl, rfl⟩, nofun, rfl, rfl⟩,
        fun hp => absurd hp (beginCall_phase_ne_error s.enc .enc _ 0)⟩
  | dec =>
    rcases decStart_cases h with ⟨k, -, rfl⟩ | ⟨w, ht, c, cs, -, -, -, rfl⟩
    · exact ⟨fun hp => absurd rfl hp, fun _ => Option.some_ne_none k⟩
    · exact ⟨fun _ => ⟨cacheLookup_cacheInit, rfl, rfl, rfl, rfl,
          nofun, fun _ => ⟨rfl, rfl⟩, rfl, rfl⟩,
        fun hp => absurd hp (beginCall_phase_ne_error _ .dec _ 14)⟩

/-- A call that begins depends on the source buffer and the parameter registers only, but for `cur`,
the count of free values, DSTLEN and the destination buffer (R21, R45). -/
theorem beginCall_forgets {e e' : Engine} (id : EngineId) (n rp : Nat) (hsrc : e'.src = e.src)
    (hlen : e'.srcLen = e.srcLen) (hw : e'.width = e.width) (hh : e'.height = e.height)
    (hc : e'.channels = e.channels) (hcs : e'.colorspace = e.colorspace) :
    e'.beginCall id n rp = { e.beginCall id n rp with
      cur := (e'.beginCall id n rp).cur
      fresh := (e'.beginCall id n rp).fresh
      dstLen := (e'.beginCall id n rp).dstLen
      dst := (e'.beginCall id n rp).dst } := by
  simp only [Engine.beginCall, hsrc, hlen, hw, hh, hc, hcs]

/-- Settles O27: both engines begin the same call, and what is left is set by it. -/
theorem startForgetsThePast : Obligations.StartForgetsThePast := by
  intro id s s' t hsrc hlen hparams h hp
  cases id with
  | enc =>
    cases h
    change s'.enc.src = s.enc.src at hsrc
    change s'.enc.srcLen = s.enc.srcLen at hlen
    obtain ⟨hw, hh, hc, hcs⟩ := hparams rfl
    refine ⟨_, rfl, ?_⟩
    show s'.enc.encStart = { s.enc.encStart with
      cur := s'.enc.encStart.cur, fresh := s'.enc.encStart.fresh
      dstLen := s'.enc.encStart.dstLen, dst := s'.enc.encStart.dst }
    rcases encStart_cases s.enc with ⟨-, hs⟩ | ⟨-, -, hs⟩ | ⟨hvalid, hsize, hs⟩
    · exact absurd (congrArg Engine.phase hs) hp
    · exact absurd (congrArg Engine.phase hs) hp
    · have hs' := encStart_accepts (by rw [hc, hvalid]) (by rw [hlen, hw, hh, hc, hsize])
      rw [hs, hs', hw, hh, hc, hcs]
      exact congrArg (Engine.emit · _) (beginCall_forgets .enc _ 0 hsrc hlen hw hh hc hcs)
  | dec =>
    rcases decStart_alike hsrc hlen h with ⟨k, rfl, -⟩ | ⟨w, ht, c, cs, rfl, h'⟩
    · exact absurd rfl hp
    · exact ⟨_, h', beginCall_forgets .dec _ 14 hsrc hlen rfl rfl rfl rfl⟩

end Sys2Proof.Machine

/-! ## What the host cannot see -/

namespace Sys2Proof.Machine

/-! ### Two engines that look alike -/

section
variable {e e' : Engine} (h : e.looksLike e')
include h

theorem Engine.looksLike.phase : e'.phase = e.phase := by rw [show e' = _ from h]

theorem Engine.looksLike.srcLen : e'.srcLen = e.srcLen := by rw [show e' = _ from h]

theorem Engine.looksLike.dstLen : e'.dstLen = e.dstLen := by rw [show e' = _ from h]

theorem Engine.looksLike.src : e'.src = e.src := by rw [show e' = _ from h]

theorem Engine.looksLike.dst : e'.dst = e.dst := by rw [show e' = _ from h]

theorem Engine.looksLike.fresh : e'.fresh = e.fresh := by rw [show e' = _ from h]

/-- What a register holds is visible. -/
theorem Engine.looksLike.regValue (r : Reg) : e'.regValue r = e.regValue r := by
  rw [show e' = _ from h]; cases r <;> rfl

theorem Engine.looksLike.setReg (r : Reg) (v : Nat) : (e.setReg r v).looksLike (e'.setReg r v) := by
  rw [show e' = _ from h]; cases r <;> rfl

theorem Engine.looksLike.place (off : Nat) (bytes : List Byte) :
    Engine.looksLike { e with src := Memory.writeList e.src off bytes }
      { e' with src := Memory.writeList e'.src off bytes } := by rw [show e' = _ from h]; rfl

theorem Engine.looksLike.draw : e.draw.looksLike e'.draw := by rw [show e' = _ from h]; rfl

theorem Engine.looksLike.assertReset (id : EngineId) :
    (e.assertReset id).looksLike (e'.assertReset id) := by rw [show e' = _ from h]; rfl

theorem Engine.looksLike.raise (k : ErrorKind) : (e.raise k).looksLike (e'.raise k) := by
  rw [show e' = _ from h]; rfl

theorem Engine.looksLike.beginDecode (w ht : Word32) (c cs : Byte) :
    (e.beginDecode w ht c cs).looksLike (e'.beginDecode w ht c cs) := by
  rw [show e' = _ from h]; rfl

/-- The encoder's start step judges by visible registers only (R161). -/
theorem Engine.looksLike.encStart : e.encStart.looksLike e'.encStart := by
  rw [show e' = _ from h]
  rcases encStart_cases e with ⟨hc, hs⟩ | ⟨hc, hlen, hs⟩ | ⟨hc, hlen, hs⟩ <;> rw [hs]
  · rw [encStart_rejects_channels (by exact hc)]; rfl
  · rw [encStart_rejects_size (by exact hc) (by exact hlen)]; rfl
  · rw [encStart_accepts (by exact hc) (by exact hlen)]; rfl

end

/-! ### Two states that look alike -/

section
variable {s s' : State} (h : s.looksLike s')
include h

theorem State.looksLike.engine (id : EngineId) : (s.engine id).looksLike (s'.engine id) := by
  obtain ⟨henc, hdec, -⟩ := h
  cases id with
  | enc => exact henc
  | dec => exact hdec

theorem State.looksLike.setEngine (id : EngineId) {e e' : Engine} (he : e.looksLike e') :
    (s.setEngine id e).looksLike (s'.setEngine id e') := by
  obtain ⟨henc, hdec, hagenda, hheard⟩ := h
  cases id with
  | enc => exact ⟨he, hdec, hagenda, hheard⟩
  | dec => exact ⟨henc, he, hagenda, hheard⟩

theorem State.looksLike.hear (v : Nat) : (s.hear v).looksLike (s'.hear v) := by
  obtain ⟨henc, hdec, hagenda, hheard⟩ := h
  exact ⟨henc, hdec, hagenda, congrArg (v :: ·) hheard⟩

/-! ### Moves of the host from two states that look alike -/

/-- A start step: the same error or the same call (R45, R161, R201). -/
theorem State.looksLike.startMove {id : EngineId} {t : State} (hm : startMove id s = .next t) :
    ∃ t', startMove id s' = .next t' ∧ t.looksLike t' := by
  cases id with
  | enc =>
    cases hm
    exact ⟨_, rfl, h.setEngine .enc (h.engine .enc).encStart⟩
  | dec =>
    have hdec := h.engine .dec
    rcases decStart_alike hdec.src hdec.srcLen hm with ⟨k, rfl, h'⟩ | ⟨w, ht, c, cs, rfl, h'⟩
    · exact ⟨_, h', h.setEngine .dec (hdec.raise k)⟩
    · exact ⟨_, h', h.setEngine .dec (hdec.beginDecode w ht c cs)⟩

/-- A register write takes the same branch (R31, R32). -/
theorem State.looksLike.hostWrite {id : EngineId} {r : Reg} {v : Nat} {t : State}
    (hm : hostWrite id r v s = .next t) :
    ∃ t', hostWrite id r v s' = .next t' ∧ t.looksLike t' := by
  rw [hostWrite_eq] at hm ⊢
  rw [(h.engine id).phase]
  split_ifs at hm ⊢
  · cases hm; exact ⟨_, rfl, h⟩
  · exact h.startMove hm
  · cases hm; exact ⟨_, rfl, h⟩
  · cases hm; exact ⟨_, rfl, h.setEngine id ((h.engine id).setReg r v)⟩
  · cases hm; exact ⟨_, rfl, h⟩

/-- A register read hears the same value, free or held (R32, R35). -/
theorem State.looksLike.hostRead (id : EngineId) (r : Reg) :
    (hostRead id r s).looksLike (hostRead id r s') := by
  have hphase := (h.engine id).phase
  by_cases hvoid : isResult id r = true ∧ (s.engine id).phase ≠ .done
  · obtain ⟨hr, hp⟩ := hvoid
    rw [hostRead_void hr hp, hostRead_void hr (by rwa [hphase]), (h.engine id).fresh]
    exact (h.setEngine id (h.engine id).draw).hear _
  · have hheld : isResult id r = false ∨ (s.engine id).phase = .done := by
      rwa [not_and_or, not_not, Bool.not_eq_true] at hvoid
    rw [hostRead_held hheld, hostRead_held (by rwa [hphase]), (h.engine id).regValue r]
    exact h.hear _

/-- A read of a destination byte hears the same value, free or delivered (R60, R75). -/
theorem State.looksLike.hostReadDst (id : EngineId) (off : Nat) :
    (hostReadDst id off s).looksLike (hostReadDst id off s') := by
  have he := h.engine id
  unfold Machine.hostReadDst
  dsimp only
  rw [he.phase, he.dstLen, he.dst, he.fresh]
  split
  · exact h.hear _
  · exact (h.setEngine id he.draw).hear _

/-- A placement of source bytes is refused in both or made in both (R60, R75). -/
theorem State.looksLike.hostPlace {id : EngineId} {off : Nat} {bytes : List Byte} {t : State}
    (hm : hostPlace id off bytes s = .next t) :
    ∃ t', hostPlace id off bytes s' = .next t' ∧ t.looksLike t' := by
  unfold Machine.hostPlace at hm
  dsimp only at hm
  split_ifs at hm with hp
  cases hm
  exact ⟨_, if_neg (by rwa [(h.engine id).phase]),
    h.setEngine id ((h.engine id).place off bytes)⟩

end

/-- Settles O43: every host move, by kind, decides and hears by visible fields only. -/
theorem hostCannotSeeHiddenState : Obligations.HostCannotSeeHiddenState := by
  intro op s s' t h hm
  cases op with
  | writeReg id r v => exact h.hostWrite hm
  | readReg id r => cases hm; exact ⟨_, rfl, h.hostRead id r⟩
  | placeSrc id off bytes => exact h.hostPlace hm
  | readDst id off => cases hm; exact ⟨_, rfl, h.hostReadDst id off⟩
  | assertReset id =>
    cases hm
    exact ⟨_, rfl, h.setEngine id ((h.engine id).assertReset id)⟩

end Sys2Proof.Machine

/-! ## Every step answers -/

namespace Sys2Proof.Machine

/-! ### Placing source bytes -/

/-- Outside a call the placed bytes are written to the source buffer (R60). -/
theorem hostPlace_outside {id : EngineId} {s : State} (h : (s.engine id).phase.running = false)
    (off : Nat) (bytes : List Byte) :
    hostPlace id off bytes s = .next (s.setEngine id
      { s.engine id with src := Memory.writeList (s.engine id).src off bytes }) :=
  if_neg (by simp [h])

/-- During a call the model has no such move (R75, log 9). -/
theorem hostPlace_inCall {id : EngineId} {s : State} (h : (s.engine id).phase.running = true)
    (off : Nat) (bytes : List Byte) :
    hostPlace id off bytes s = .refused (.sourceWriteDuringCall id) := if_pos h

/-- Settles O44: the two branches of a placement, and the reset input. -/
theorem hostPlacesAndResets : Obligations.HostPlacesAndResets := by
  intro id s off bytes
  rw [← running_iff, Bool.not_eq_true]
  refine ⟨fun hp => ⟨_, hostPlace_outside hp off bytes, Memory.read_writeList _ off bytes⟩,
    fun hp => hostPlace_inCall hp off bytes, _, rfl, ?_, ?_, fun id' hid => ?_⟩
  · rw [State.engine_setEngine_self]; rfl
  · rw [State.engine_setEngine_self]; rfl
  · rw [State.engine_setEngine, if_neg hid]

/-! ### Totality -/

/-- A register write always gives a next state (R31). -/
theorem hostWrite_total (id : EngineId) (r : Reg) (v : Nat) (s : State) :
    ∃ t, hostWrite id r v s = .next t := by
  rw [hostWrite_eq]
  split_ifs
  · exact ⟨_, rfl⟩
  · exact startMove_total id s
  all_goals exact ⟨_, rfl⟩

/-- A move of the host gives a next state, unless it places source bytes during a call (R75). -/
theorem hostMove_next_or_refused (op : HostOp) (s : State) :
    (∃ t, hostMove op s = .next t) ∨
    ∃ id off bytes, op = .placeSrc id off bytes ∧ (s.engine id).phase.running = true ∧
      hostMove op s = .refused (.sourceWriteDuringCall id) := by
  cases op with
  | writeReg id r v => exact .inl (hostWrite_total id r v s)
  | placeSrc id off bytes =>
    cases hp : (s.engine id).phase.running with
    | false => exact .inl ⟨_, hostPlace_outside hp off bytes⟩
    | true => exact .inr ⟨id, off, bytes, rfl, hp, hostPlace_inCall hp off bytes⟩
  | readReg id r => exact .inl ⟨_, rfl⟩
  | readDst id off => exact .inl ⟨_, rfl⟩
  | assertReset id => exact .inl ⟨_, rfl⟩

/-- With an empty agenda there is always a next state (R250, log 3). -/
theorem selfMove_total (s : State) : ∃ t, selfMove s = .next t := by
  unfold selfMove
  split_ifs
  · exact engineMove_total .dec s
  · exact engineMove_total .enc s
  · exact ⟨s, rfl⟩

/-- Settles O57: every move but the refused one is total. -/
theorem stepAlwaysAnswers : Obligations.StepAlwaysAnswers := by
  intro s
  unfold step
  cases ha : s.agenda with
  | nil => exact .inl (selfMove_total s)
  | cons m rest =>
    cases m with
    | engine id => exact .inl (engineMove_total id _)
    | host op =>
      rcases hostMove_next_or_refused op { s with agenda := rest } with
        hnext | ⟨id, off, bytes, rfl, hp, hrefused⟩
      · exact .inl hnext
      · rw [State.engine_withAgenda, running_iff] at hp
        exact .inr ⟨id, off, bytes, rest, rfl, hp, hrefused⟩

end Sys2Proof.Machine

/-! ## Buffers in canonical form -/

namespace Sys2Proof.Machine

/-- An invariant that does not look at the agenda is kept by every step when the moves of the
engines and of the host keep it. -/
theorem step_keeps {P : State → Prop}
    (hagenda : ∀ (s : State) (a : List Move), P s → P { s with agenda := a })
    (hengine : ∀ (id : EngineId) (s t : State), P s → engineMove id s = .next t → P t)
    (hhost : ∀ (op : HostOp) (s t : State), P s → hostMove op s = .next t → P t)
    {s t : State} (h : P s) (hstep : step s = .next t) : P t := by
  rcases step_cases hstep with ⟨m, rest, -, hm⟩ | ⟨-, ⟨id, hm⟩ | rfl⟩
  · cases m with
    | host op => exact hhost op _ t (hagenda s rest h) hm
    | engine id => exact hengine id _ t (hagenda s rest h) hm
  · exact hengine id s t h hm
  · exact h

theorem State.memWf.engine {s : State} (h : s.memWf) (id : EngineId) : (s.engine id).memWf := by
  cases id
  exacts [h.1, h.2]

theorem State.memWf.setEngine {s : State} (h : s.memWf) (id : EngineId) {e : Engine}
    (he : e.memWf) : (s.setEngine id e).memWf := by
  cases id
  exacts [⟨he, h.2⟩, ⟨h.1, he⟩]

/-! ### What engines write -/

section
variable {e : Engine} (h : e.memWf)
include h

theorem Engine.memWf.emit (c : Instr) : (e.emit c).memWf :=
  ⟨h.1, Memory.writeList_wf h.2 _ _⟩

theorem Engine.memWf.produce (p : Pixel) : (e.produce p).memWf :=
  ⟨h.1, Memory.writeList_wf h.2 _ _⟩

theorem Engine.memWf.settled : e.settled.memWf := by
  by_cases hrun : e.run = 0
  · rw [settled_of_no_run hrun]; exact h
  · rw [settled_of_run hrun]; exact h.emit _

theorem Engine.memWf.extendRun : e.extendRun.memWf := by
  rcases e.extendRun_cases with ⟨-, -, hx⟩ | hx <;> rw [hx]
  · exact h
  · exact Engine.memWf.emit (e := { e with run := e.run + 1 }) h _

theorem Engine.memWf.codePixel (p : Pixel) : (e.codePixel p).memWf := by
  rw [codePixel_eq]; exact h.settled.emit _

theorem Engine.memWf.encodePixel (p : Pixel) : (e.encodePixel p).memWf := by
  have hfetched : Engine.memWf { e with cur := p, rp := e.rp + e.channels.toNat } := h
  by_cases hp : p = e.prev
  · rw [encodePixel_extends hp]; exact hfetched.extendRun
  · rw [encodePixel_codes hp]; exact hfetched.codePixel p

theorem Engine.memWf.encStart : e.encStart.memWf := by
  rcases encStart_cases e with ⟨-, hs⟩ | ⟨-, -, hs⟩ | ⟨-, -, hs⟩ <;> rw [hs]
  · exact h
  · exact h
  · exact Engine.memWf.emit (e := e.beginCall .enc _ 0) h _

end

/-! ### Moves -/

section
variable {s t : State} (h : s.memWf)
include h

/-- A step of the encoder writes by `emit` only (R164, R175). -/
theorem memWf_encMove (hm : encMove s = .next t) : t.memWf := by
  have henc := h.engine .enc
  rcases encMove_cases hm with ⟨-, rfl⟩ | ⟨-, rfl⟩ | ⟨-, rfl⟩
  · exact h
  · exact h.setEngine .enc (henc.encodePixel _)
  · exact h.setEngine .enc (henc.emit .endMarker)

/-- A step of the decoder writes by `out` only (R204, R218). -/
theorem memWf_decMove (hm : decMove s = .next t) : t.memWf := by
  have hdec := h.engine .dec
  rcases decMove_cases hm with ⟨-, rfl⟩ | ⟨-, -, rfl⟩ | ⟨-, -, -, rfl⟩ | ⟨-, -, -, -, rfl⟩ |
    ⟨-, hrun, bytes, i, -, -, hdecode, he⟩ | ⟨-, rfl⟩ | ⟨-, rfl⟩
  · exact h
  · exact h.setEngine .dec (Engine.memWf.produce (e := { s.dec with run := s.dec.run - 1 }) hdec _)
  · exact h
  · exact h
  · rw [exec_chunk_eq (decode_chunk_sound hdecode).1 hrun] at he
    cases he
    exact h.setEngine .dec (Engine.memWf.produce (e := { s.dec with
      rp := s.dec.rp + i.length
      run := owed i
      cache := (s.dec.context.after i).cache }) hdec _)
  · exact h
  · exact h

theorem memWf_engineMove {id : EngineId} (hm : engineMove id s = .next t) : t.memWf := by
  cases id with
  | enc => exact memWf_encMove h hm
  | dec => exact memWf_decMove h hm

theorem memWf_startMove {id : EngineId} (hm : startMove id s = .next t) : t.memWf := by
  cases id with
  | enc => cases hm; exact h.setEngine .enc (h.engine .enc).encStart
  | dec => rcases decStart_cases hm with ⟨k, -, rfl⟩ | ⟨w, ht, c, cs, -, -, -, rfl⟩ <;> exact h

/-- A move of the host writes source bytes or leaves the buffers as they are (R60). -/
theorem memWf_hostMove {op : HostOp} (hm : hostMove op s = .next t) : t.memWf := by
  have hsame (id : EngineId) {e : Engine} (hsrc : e.src = (s.engine id).src)
      (hdst : e.dst = (s.engine id).dst) : (s.setEngine id e).memWf :=
    h.setEngine id (by rw [Engine.memWf, hsrc, hdst]; exact h.engine id)
  rcases hostMove_cases hm with rfl | ⟨id, v, -, -, -, hst⟩ | ⟨id, r, v, -, -, -, rfl⟩ |
    ⟨id, v, rfl | rfl⟩ | ⟨id, off, bytes, -, -, rfl⟩ | ⟨id, -, rfl⟩
  · exact h
  · exact memWf_startMove h hst
  · exact hsame id (by cases r <;> rfl) (by cases r <;> rfl)
  · exact h
  · exact hsame id rfl rfl
  · exact h.setEngine id
      ⟨Memory.writeList_wf (h.engine id).1 off bytes, (h.engine id).2⟩
  · exact hsame id rfl rfl

end

/-- Settles O36: every write to a buffer is a `Memory.writeList`. -/
theorem stepKeepsBufferForm : Obligations.StepKeepsBufferForm := fun _ _ =>
  step_keeps (fun _ _ h => h) (fun _ _ _ h => memWf_engineMove h) (fun _ _ _ h => memWf_hostMove h)

end Sys2Proof.Machine

/-! ## What a step reads of its source buffer -/

namespace Sys2Proof.Machine

/-- The engine with another source buffer. -/
def Engine.withSrc (e : Engine) (m : Memory) : Engine := { e with src := m }

/-- The state with another source buffer in one engine. -/
def State.withSrc (s : State) (id : EngineId) (m : Memory) : State :=
  s.setEngine id ((s.engine id).withSrc m)

/-! ### The fetches -/

section
variable {d : Engine} {m : Memory}

/-- The header fetch reads offsets 0 to 13 below the length (R121, R201). -/
theorem fetchHeader_withSrc
    (h : ∀ x, x < 14 → x < d.srcLen → Memory.read m x = Memory.read d.src x) :
    (d.withSrc m).fetchHeader = d.fetchHeader := by
  have hbytes {n : Nat} (hn : n ≤ 14) (hlen : n ≤ d.srcLen) :
      (d.withSrc m).srcBytes .dec 0 n = d.srcBytes .dec 0 n :=
    srcBytes_congr .dec fun x _ hx => h x (by omega) (by omega)
  have hlen : (d.withSrc m).srcLen = d.srcLen := rfl
  unfold Engine.fetchHeader
  rw [hlen]
  by_cases h4 : d.srcLen < 4
  · rw [if_pos h4, if_pos h4]
  rw [if_neg h4, if_neg h4, hbytes (by omega) (by omega)]
  by_cases h14 : d.srcLen < Config.headerLen
  · rw [if_pos h14, if_pos h14]
  · rw [hbytes le_rfl (Nat.not_lt.mp h14)]

/-- The chunk fetch reads offsets from `rp` on below `lim` (R70, R207). -/
theorem fetchChunk_withSrc
    (h : ∀ x, d.rp ≤ x → x < d.lim → Memory.read m x = Memory.read d.src x) :
    (d.withSrc m).fetchChunk = d.fetchChunk := by
  have hrp : (d.withSrc m).rp = d.rp := rfl
  have hlim : (d.withSrc m).lim = d.lim := rfl
  unfold Engine.fetchChunk
  rw [hrp, hlim]
  by_cases htag : d.rp + 1 > d.lim
  · rw [if_pos htag, if_pos htag]
  rw [if_neg htag, if_neg htag,
    srcByte_congr .dec (e' := d.withSrc m) (h d.rp le_rfl (by omega))]
  dsimp only
  by_cases hpay : d.rp + chunkLength (d.srcByte .dec d.rp) > d.lim
  · rw [if_pos hpay, if_pos hpay]
  · rw [if_neg hpay, if_neg hpay,
      srcBytes_congr .dec (e' := d.withSrc m) fun x hlo hhi => h x hlo (by omega)]

/-- The fetch of the end step reads the eight bytes from `lim` on (R70, R222). -/
theorem fetchTrailer_withSrc
    (h : ∀ x, d.lim ≤ x → x < d.lim + 8 → Memory.read m x = Memory.read d.src x) :
    (d.withSrc m).fetchTrailer = d.fetchTrailer :=
  congrArg (fetchedOf .trailer) (srcBytes_congr .dec (e' := d.withSrc m) h)

end

/-! ### The decoder -/

section
variable {s t : State} {m : Memory}

/-- Executing an instruction does not look at the source buffer. -/
theorem exec_withSrc {i : Instr} (h : exec i s = .next t) :
    exec i (s.withSrc .dec m) = .next (t.withSrc .dec m) := by
  cases i with
  | header w ht c cs =>
    change execHeader w ht c cs s = _ at h
    change execHeader w ht c cs (s.withSrc .dec m) = _
    have hlen : (s.withSrc .dec m).dec.srcLen = s.dec.srcLen := rfl
    unfold execHeader at h ⊢
    rw [hlen]
    split_ifs at h ⊢ <;> cases h <;> rfl
  | _ => cases h; rfl

/-- Running what was fetched does not look at the source buffer. -/
theorem runFetched_withSrc {f : Fetched} (h : runFetched f s = .next t) :
    runFetched f (s.withSrc .dec m) = .next (t.withSrc .dec m) := by
  cases f with
  | instr i => exact exec_withSrc h
  | raises k taken => cases h; rfl

/-- The decoder's start step depends on offsets 0 to 13 below the length only (R201). -/
theorem decStart_withSrc
    (hm : ∀ x, x < 14 → x < s.dec.srcLen → Memory.read m x = Memory.read s.dec.src x)
    (h : decStart s = .next t) : decStart (s.withSrc .dec m) = .next (t.withSrc .dec m) := by
  show runFetched (s.dec.withSrc m).fetchHeader _ = _
  rw [fetchHeader_withSrc hm]
  exact runFetched_withSrc h

/-- A pixel step of the decoder depends on offsets from `rp` on below `lim` only, its end step on
the eight from `lim` on (R204, R222). -/
theorem decMove_withSrc
    (hpixel : s.dec.phase = .pixels → ∀ x, s.dec.rp ≤ x → x < s.dec.lim →
      Memory.read m x = Memory.read s.dec.src x)
    (hend : s.dec.phase = .atEnd → ∀ x, s.dec.lim ≤ x → x < s.dec.lim + 8 →
      Memory.read m x = Memory.read s.dec.src x)
    (h : decMove s = .next t) : decMove (s.withSrc .dec m) = .next (t.withSrc .dec m) := by
  cases hp : s.dec.phase with
  | pixels =>
    by_cases hrun : s.dec.run = 0
    · rw [decMove_chunk hp hrun] at h
      rw [decMove_chunk (s := s.withSrc .dec m) hp hrun]
      show runFetched (s.dec.withSrc m).fetchChunk _ = _
      rw [fetchChunk_withSrc (hpixel hp)]
      exact runFetched_withSrc h
    · rw [decMove_run hp hrun] at h
      cases h
      exact decMove_run (s := s.withSrc .dec m) hp hrun
  | atEnd =>
    rw [decMove_end hp] at h
    rw [decMove_end (s := s.withSrc .dec m) hp]
    show runFetched (s.dec.withSrc m).fetchTrailer _ = _
    rw [fetchTrailer_withSrc (hend hp)]
    exact runFetched_withSrc h
  | _ =>
    have hrest : s.dec.phase.running = false := by rw [hp]; rfl
    rw [decMove_rest hrest] at h
    cases h
    exact decMove_rest (s := s.withSrc .dec m) hrest

end

/-- Settles O47: each fetch reads its window only, and what it finds runs without the source. -/
theorem decoderReadsOnlyItsWindow : Obligations.DecoderReadsOnlyItsWindow := by
  intro s t m
  refine ⟨fun h hm => decStart_withSrc hm h, fun hp h hm => ?pixel, fun hp hlen h hm => ?last⟩
  case pixel => exact decMove_withSrc (fun _ => hm) (fun hq => by cases hp.symm.trans hq) h
  case last =>
    refine decMove_withSrc (fun hq => by cases hp.symm.trans hq) (fun _ x hlo hhi => ?_) h
    have hlim : s.dec.lim = s.dec.srcLen - 8 := rfl
    exact hm x (by omega) (by omega)

/-! ### The encoder -/

section
variable {e : Engine} {m : Memory}

/-- The pixel fetch reads CHANNELS bytes from `rp` on (R68, R163). -/
theorem fetchPixel_withSrc (hc : validChannels e.channels = true)
    (h : ∀ x, e.rp ≤ x → x < e.rp + e.channels.toNat → Memory.read m x = Memory.read e.src x) :
    (e.withSrc m).fetchPixel = e.fetchPixel := by
  have hbyte (j : Nat) (hj : j < e.channels.toNat) :
      (e.withSrc m).srcByte .enc (e.rp + j) = e.srcByte .enc (e.rp + j) :=
    srcByte_congr .enc (h _ (by omega) (by omega))
  have hthree : 3 ≤ e.channels.toNat := by
    rcases (validChannels_iff _).mp hc with hc | hc <;> rw [hc] <;> decide
  have hred : (e.withSrc m).srcByte .enc e.rp = e.srcByte .enc e.rp := hbyte 0 (by omega)
  have hrp : (e.withSrc m).rp = e.rp := rfl
  have hch : (e.withSrc m).channels = e.channels := rfl
  unfold Engine.fetchPixel
  rw [hrp, hch, hred, hbyte 1 (by omega), hbyte 2 (by omega)]
  split_ifs with hfour
  · rw [hbyte 3 (by rw [hfour]; decide)]
  · rfl

theorem extendRun_withSrc : (e.withSrc m).extendRun = e.extendRun.withSrc m := by
  unfold Engine.extendRun
  dsimp only
  rw [apply_ite (Engine.withSrc · m)]
  rfl

theorem settled_withSrc : (e.withSrc m).settled = e.settled.withSrc m := by
  unfold Engine.settled
  rw [apply_ite (Engine.withSrc · m)]
  rfl

theorem codePixel_withSrc (p : Pixel) : (e.withSrc m).codePixel p = (e.codePixel p).withSrc m := by
  rw [Engine.codePixel_eq, Engine.codePixel_eq, settled_withSrc]; rfl

/-- A pixel step does not look at the source buffer after the fetch (R164). -/
theorem encodePixel_withSrc (p : Pixel) :
    (e.withSrc m).encodePixel p = (e.encodePixel p).withSrc m := by
  by_cases h : p = e.prev
  · rw [encodePixel_extends h, encodePixel_extends (e := e.withSrc m) h]
    exact congrArg Engine.nextPixel
      (extendRun_withSrc (e := { e with cur := p, rp := e.rp + e.channels.toNat }))
  · rw [encodePixel_codes h, encodePixel_codes (e := e.withSrc m) h]
    exact congrArg Engine.nextPixel
      (codePixel_withSrc (e := { e with cur := p, rp := e.rp + e.channels.toNat }) p)

/-- The encoder's start step does not look at the source buffer (R161). -/
theorem encStart_withSrc : (e.withSrc m).encStart = e.encStart.withSrc m := by
  rcases encStart_cases e with ⟨hc, hs⟩ | ⟨hc, hlen, hs⟩ | ⟨hc, hlen, hs⟩ <;> rw [hs]
  · exact encStart_rejects_channels hc
  · exact encStart_rejects_size hc hlen
  · exact encStart_accepts hc hlen

end

/-- A step of the encoder depends on the CHANNELS bytes from `rp` on only (R68, R163). -/
theorem encMove_withSrc {s t : State} {m : Memory}
    (hpixel : s.enc.phase = .pixels → validChannels s.enc.channels = true ∧
      ∀ x, s.enc.rp ≤ x → x < s.enc.rp + s.enc.channels.toNat →
        Memory.read m x = Memory.read s.enc.src x)
    (h : encMove s = .next t) : encMove (s.withSrc .enc m) = .next (t.withSrc .enc m) := by
  rcases encMove_cases h with ⟨hrest, rfl⟩ | ⟨hp, rfl⟩ | ⟨hp, rfl⟩
  · exact encMove_rest hrest
  · obtain ⟨hc, hread⟩ := hpixel hp
    rw [encMove_pixel (s := s.withSrc .enc m) hp]
    show Host.Outcome.next
      (s.setEnc ((s.enc.withSrc m).encodePixel (s.enc.withSrc m).fetchPixel)) = _
    rw [fetchPixel_withSrc hc hread, encodePixel_withSrc]
    rfl
  · exact encMove_end (s := s.withSrc .enc m) hp

/-! ### No read beyond the length register -/

/-- A sound encoder with pixels to come has the next one below SRCLEN (R27, R161). -/
theorem Engine.Sound.pixel_in_source {e : Engine} (h : Engine.Sound .enc e)
    (hp : e.phase = .pixels) :
    validChannels e.channels = true ∧ e.rp + e.channels.toNat ≤ e.srcLen := by
  obtain ⟨⟨-, hc, hi, -⟩, -, hlen, hrp, -⟩ := h.encCall (by rw [hp]; rfl)
  refine ⟨hc, ?_⟩
  rw [hlen, hrp, ← Nat.succ_mul]
  exact Nat.mul_le_mul_right _ (hi hp)

/-- From a sound engine a step depends on offsets below SRCLEN only (R68, R70). -/
theorem engineMove_withSrc {id : EngineId} {s t : State} {m : Memory}
    (hs : Engine.Sound id (s.engine id))
    (hm : ∀ x, x < (s.engine id).srcLen → Memory.read m x = Memory.read (s.engine id).src x)
    (h : engineMove id s = .next t) :
    engineMove id (s.withSrc id m) = .next (t.withSrc id m) := by
  cases id with
  | enc =>
    refine encMove_withSrc (fun hp => ?_) h
    obtain ⟨hc, hroom⟩ := hs.pixel_in_source hp
    exact ⟨hc, fun x _ hx => hm x (lt_of_lt_of_le hx hroom)⟩
  | dec =>
    have hlim : s.dec.lim = s.dec.srcLen - 8 := rfl
    refine decMove_withSrc (fun _ x _ hx => hm x ?_) (fun hp x _ hx => hm x ?_) h
    · show x < s.dec.srcLen
      omega
    · obtain ⟨-, -, hlen, -⟩ := hs.decCall (by rw [State.engine_dec, hp]; rfl)
      change 22 ≤ s.dec.srcLen at hlen
      show x < s.dec.srcLen
      omega

/-- A start step depends on offsets below SRCLEN only: the encoder's reads none (R161, R201). -/
theorem startMove_withSrc {id : EngineId} {s t : State} {m : Memory}
    (hm : ∀ x, x < (s.engine id).srcLen → Memory.read m x = Memory.read (s.engine id).src x)
    (h : startMove id s = .next t) :
    startMove id (s.withSrc id m) = .next (t.withSrc id m) := by
  cases id with
  | enc =>
    cases h
    exact congrArg (fun e => Host.Outcome.next (s.setEnc e)) encStart_withSrc
  | dec => exact decStart_withSrc (fun x _ hx => hm x hx) h

/-- Settles O48: a sound engine reads in its window, and the window lies below SRCLEN. -/
theorem noReadOutsideTheBuffer : Obligations.NoReadOutsideTheBuffer := by
  rintro id f (rfl | rfl) s t m hwf h hm
  · exact engineMove_withSrc ((regWf_iff s).mp hwf id) hm h
  · exact startMove_withSrc hm h

end Sys2Proof.Machine

/-! ## The encoding and the tag-byte map -/

namespace Sys2Proof

/-- A field of a word as a number below the field's range. -/
theorem extract_eq_mod {n : Nat} (v : BitVec n) (lo w : Nat) :
    v.extractLsb' lo w = BitVec.ofNat w (v.toNat / 2 ^ lo % 2 ^ w) := by
  rw [extract_eq, ← BitVec.toNat_inj, BitVec.toNat_ofNat, BitVec.toNat_ofNat, Nat.mod_mod]

/-- A RUN whose field is a number up to 61 has an encoding (R101). -/
theorem runField_wellFormed {k : Nat} (h : k ≤ 61) :
    (Instr.run (BitVec.ofNat 6 k)).WellFormed = true := by
  have hle : (BitVec.ofNat 6 k).toNat ≤ 61 := by rw [BitVec.toNat_ofNat]; omega
  exact decide_eq_true hle

/-- A byte is its two-bit tag, then its six-bit payload (R93). -/
theorem t6_join {b : Byte} {tag : BitVec 2} (h : b.toNat / 64 = tag.toNat) :
    tag ++ payload b = b := by
  rw [payload_eq, ← BitVec.toNat_inj, t6_toNat, BitVec.toNat_ofNat]
  omega

/-- A byte 01rrggbb is its tag, then its three two-bit fields (R94). -/
theorem diff_join {b : Byte} (h : b.toNat / 64 = 1) :
    0b01#2 ++ b.extractLsb' 4 2 ++ b.extractLsb' 2 2 ++ b.extractLsb' 0 2 = b := by
  have := b.isLt
  simp only [← BitVec.toNat_inj, append_toNat, extract_eq, BitVec.toNat_ofNat]
  omega

/-- LUMA's second byte is its two four-bit fields (R95). -/
theorem luma_join (b : Byte) : b.extractLsb' 4 4 ++ b.extractLsb' 0 4 = b := by
  have := b.isLt
  simp only [← BitVec.toNat_inj, append_toNat, extract_eq, BitVec.toNat_ofNat]
  omega

/-- What the tag parser reads, encoded, is what it was given up to where it stopped (R93 to R96). -/
theorem encode_decodeTag {b : Byte} {rest rest' : List Byte} {i : Instr}
    (h : decodeTag b rest = .ok (i, rest')) : b :: rest = encode i ++ rest' := by
  rcases decodeTag_cases b rest with ⟨rfl, -, hd⟩ | ⟨rfl, -, hd⟩ | ⟨htag, -, hd⟩ |
    ⟨htag, -, hd⟩ | ⟨htag, -, hd⟩ | ⟨htag, -, -, -, hd⟩ <;> rw [hd] at h
  · split at h <;> cases h; rfl
  · split at h <;> cases h; rfl
  · cases h; exact congrArg (· :: rest) (t6_join (tag := 0b00#2) htag).symm
  · cases h; exact congrArg (· :: rest) (diff_join htag).symm
  · split at h <;> cases h
    exact congrArg₂ (· :: · :: rest') (t6_join (tag := 0b10#2) htag).symm (luma_join _).symm
  · cases h; exact congrArg (· :: rest) (t6_join (tag := 0b11#2) htag).symm

/-- A header that decodes is the magic, the two words and the two flag bytes (R97, R121). -/
theorem decodeHeader_sound {bytes rest : List Byte} {i : Instr}
    (h : decodeHeader bytes = .ok (i, rest)) :
    bytes = encode i ++ rest ∧ i.WellFormed = true ∧ i.position = .header := by
  unfold decodeHeader at h
  split_ifs at h with hm
  split at h <;> cases h
  have hmagic := not_not.mp fun hne => hm ⟨by simp, hne⟩
  refine ⟨?_, rfl, rfl⟩
  rw [← List.take_append_drop 4 (_ :: _), hmagic, encode, be32_unbe32, be32_unbe32]
  rfl

/-- A trailer that decodes is the end marker (R98). -/
theorem decodeTrailer_sound {bytes rest : List Byte} {i : Instr}
    (h : decodeTrailer bytes = .ok (i, rest)) :
    bytes = encode i ++ rest ∧ i.WellFormed = true ∧ i.position = .trailer := by
  unfold decodeTrailer at h
  split_ifs at h with hm
  cases h
  refine ⟨?_, rfl, rfl⟩
  rw [encode, ← hm, List.take_append_drop]

/-- Settles O2: `decode_encode`, kind by kind. -/
theorem decodeUndoesEncode : Obligations.DecodeUndoesEncode := fun _ rest h => decode_encode h rest

/-- Settles O3: the inversion of the decoder at each of the three positions. -/
theorem encodeUndoesDecode : Obligations.EncodeUndoesDecode := by
  intro p bytes rest i h
  cases p with
  | header => exact decodeHeader_sound h
  | trailer => exact decodeTrailer_sound h
  | chunk =>
    cases bytes with
    | nil => cases h
    | cons b tail =>
      obtain ⟨hpos, hwf, -⟩ := decodeTag_sound h
      exact ⟨encode_decodeTag h, hwf, hpos⟩

/-- Bytes that begin with the encoding of a well-formed chunk decode to it (R93 to R96). -/
theorem decode_chunk_of_eq {i : Instr} {bytes rest : List Byte} (hpos : i.position = .chunk)
    (hwf : i.WellFormed = true) (h : bytes = encode i ++ rest) :
    decode .chunk bytes = .ok (i, rest) := by
  rw [h, ← hpos]
  exact decode_encode hwf rest

/-- Settles O4: in each range the bytes begin with the encoding of the chunk whose fields the map
reads from them. -/
theorem tagByteMapHasNoHole : Obligations.TagByteMapHasNoHole := by
  intro b b1 b2 b3 b4 rest bytes
  refine ⟨fun h => ?index, fun hlo hhi => ?diff, fun hlo hhi => ?luma, fun hlo hhi => ?run,
    fun h => ?rgb, fun h => ?rgba⟩
  case index =>
    have hb := t6_join (b := b) (tag := 0b00#2) (show _ = 0 by omega)
    rw [payload_eq, Nat.mod_eq_of_lt (by omega)] at hb
    exact decode_chunk_of_eq rfl rfl (congrArg (· :: _) hb.symm)
  case diff =>
    have hb := diff_join (b := b) (by omega)
    simp only [extract_eq_mod, pow_zero, Nat.div_one] at hb
    exact decode_chunk_of_eq rfl rfl (congrArg (· :: _) hb.symm)
  case luma =>
    have hb := t6_join (b := b) (tag := 0b10#2) (show _ = 2 by omega)
    have hb1 := luma_join b1
    rw [payload_eq] at hb
    rw [extract_eq b1 4, extract_eq_mod b1 0, pow_zero, Nat.div_one] at hb1
    exact decode_chunk_of_eq rfl rfl (congrArg₂ (· :: · :: _) hb.symm hb1.symm)
  case run =>
    have hle : b.toNat % 64 ≤ 61 := by omega
    have hb := t6_join (b := b) (tag := 0b11#2) (show _ = 3 by omega)
    rw [payload_eq] at hb
    exact ⟨decode_chunk_of_eq rfl (runField_wellFormed hle) (congrArg (· :: _) hb.symm), hle⟩
  case rgb =>
    obtain rfl : b = Config.tagRgb := BitVec.eq_of_toNat_eq h
    exact decode_chunk_of_eq (i := .rgb b1 b2 b3) rfl rfl rfl
  case rgba =>
    obtain rfl : b = Config.tagRgba := BitVec.eq_of_toNat_eq h
    exact decode_chunk_of_eq (i := .rgba b1 b2 b3 b4) rfl rfl rfl

/-- Settles O1: each of the eight byte lists, decoded. -/
theorem encodingsWrittenOutDecode : Obligations.EncodingsWrittenOutDecode := by
  unfold Obligations.EncodingsWrittenOutDecode
  decide

end Sys2Proof

/-! ## The end step and the end marker -/

namespace Sys2Proof.Machine

/-- With an empty agenda, or with the decoder next on it, a step is the decoder's own if it is in a
call (log 3). -/
theorem step_dec {s : State} (h : s.dec.phase.running = true) :
    (s.agenda = [] → step s = decMove s) ∧
    (∀ rest, s.agenda = .engine .dec :: rest → step s = decMove { s with agenda := rest }) := by
  constructor
  · obtain ⟨-, hself, -⟩ := stepIsOneMove s (.engine .dec) []
    exact fun ha => hself ha ((running_iff _).mp h)
  · intro rest ha
    obtain ⟨hnext, -⟩ := stepIsOneMove s (.engine .dec) rest
    exact hnext ha

/-- The end step executes what the terminal eight bytes decode to (R222). -/
theorem decMove_end_of_decode {s : State} {i : Instr} (hp : s.dec.phase = .atEnd)
    (hdec : decode .trailer (s.dec.srcBytes .dec s.dec.lim 8) = .ok (i, [])) :
    decMove s = exec i s := by
  have hf : s.dec.fetchTrailer = .instr i := by
    show fetchedOf .trailer (s.dec.srcBytes .dec s.dec.lim 8) = _
    simp only [fetchedOf, hdec]
  rw [decMove_end hp, hf]
  rfl

/-- Settles O10: the step is the decoder's end step, which executes what it decodes. -/
theorem stepRunsTheDecodedEndMarker : Obligations.StepRunsTheDecodedEndMarker := by
  rintro s i _ hp rfl hdec
  obtain ⟨hself, hnext⟩ := step_dec (s := s) (by rw [hp]; rfl)
  exact ⟨fun ha => (hself ha).trans (decMove_end_of_decode hp hdec),
    fun rest ha => (hnext rest ha).trans (decMove_end_of_decode hp hdec)⟩

end Sys2Proof.Machine

/-! ## The header parse and the decoder's START -/

namespace Sys2Proof.Machine

/-! ### What the header fetch finds -/

section
variable {e : Engine}

/-- Too few bytes for the magic (R121). -/
theorem fetchHeader_no_magic (h : e.srcLen < 4) : e.fetchHeader = .raises .truncated 0 := if_pos h

/-- The four bytes are not the magic, whatever follows them (R121). -/
theorem fetchHeader_bad_magic (h4 : 4 ≤ e.srcLen) (h : e.srcBytes .dec 0 4 ≠ Config.magic) :
    e.fetchHeader = .raises .badMagic 0 :=
  (if_neg (by omega)).trans (if_pos h)

/-- The magic is there, the rest of the header is not (R121). -/
theorem fetchHeader_cut (h4 : 4 ≤ e.srcLen) (h14 : e.srcLen < 14)
    (h : e.srcBytes .dec 0 4 = Config.magic) : e.fetchHeader = .raises .truncated 0 :=
  (if_neg (by omega)).trans ((if_neg (not_not.mpr h)).trans (if_pos h14))

/-- Bytes that decode to a header begin with the magic (R97, R121). -/
theorem magic_of_decode_header {bytes rest : List Byte} {i : Instr}
    (h : decode .header bytes = .ok (i, rest)) : bytes.take 4 = Config.magic := by
  obtain ⟨hbytes, -, hpos⟩ := decodeHeader_sound h
  cases i with
  | header => rw [hbytes]; rfl
  | _ => cases hpos

/-- A whole header is what the fetch finds (R121, R122, R123). -/
theorem fetchHeader_of_decode {i : Instr} (h14 : 14 ≤ e.srcLen)
    (h : decode .header (e.srcBytes .dec 0 14) = .ok (i, [])) : e.fetchHeader = .instr i := by
  have hmagic := magic_of_decode_header h
  rw [srcBytes_take e .dec (by omega)] at hmagic
  rcases fetchHeader_cases e with ⟨h4, -⟩ | ⟨-, hne, -⟩ | ⟨-, hlt, -⟩ | ⟨w, ht, c, cs, -, -, hd, hf⟩
  · omega
  · exact absurd hmagic hne
  · omega
  · rw [h] at hd
    cases hd; exact hf

end

/-! ### The start step on what was fetched -/

/-- A header fetch that raises an error makes the start step raise it (R201, R260). -/
theorem raised_of_fetchHeader {s : State} {k : ErrorKind} (h : s.dec.fetchHeader = .raises k 0) :
    ∃ t, startMove .dec s = .next t ∧ Raised s t k :=
  ⟨_, congrArg (runFetched · s) h, rfl⟩

/-- The start step executes what the first 14 bytes decode to (R201). -/
theorem startMove_dec_of_decode {s : State} {i : Instr} (h14 : 14 ≤ s.dec.srcLen)
    (h : decode .header (s.dec.srcBytes .dec 0 14) = .ok (i, [])) : startMove .dec s = exec i s :=
  congrArg (runFetched · s) (fetchHeader_of_decode h14 h)

/-- Settles O20: the tests of the header fetch in their order, and the fields of a whole header. -/
theorem headerParseOrder : Obligations.HeaderParseOrder := by
  intro s
  refine ⟨fun h4 => ?short, fun b0 b1 b2 b3 h4 hread hne => ?magic, fun h4 h14 hread => ?cut,
    fun w0 w1 w2 w3 h0 h1 h2 h3 c cs w h h14 hread hw hh => ?whole⟩
  case short => exact raised_of_fetchHeader (fetchHeader_no_magic h4)
  case magic =>
    refine raised_of_fetchHeader (fetchHeader_bad_magic h4 fun hm => hne ?_)
    simpa [hread, Config.magic] using hm
  case cut => exact raised_of_fetchHeader (fetchHeader_cut h4 h14 hread)
  case whole =>
    obtain rfl : w = unbe32 w0 w1 w2 w3 :=
      BitVec.eq_of_toNat_eq (hw.trans (unbe32_toNat ..).symm)
    obtain rfl : h = unbe32 h0 h1 h2 h3 :=
      BitVec.eq_of_toNat_eq (hh.trans (unbe32_toNat ..).symm)
    exact startMove_dec_of_decode h14 (by rw [hread]; rfl)

/-- A write of an odd value to CTRL outside a call is the start step (R32, log 12). -/
theorem hostMove_odd_ctrl {id : EngineId} {s : State} {v : Nat} (hv : v % 2 = 1)
    (hp : (s.engine id).phase.running = false) :
    hostMove (.writeReg id .ctrl v) s = startMove id s := by
  show hostWrite id .ctrl v s = _
  rw [hostWrite_eq, if_neg (by simp [hp]), if_pos rfl, if_pos hv]

/-- Settles O9: the next move is START, which is the start step on the decoded header. -/
theorem startRunsTheDecodedHeader : Obligations.StartRunsTheDecodedHeader := by
  rintro s i _ v rest ha hv hp h14 rfl hdec
  have hrest : s.dec.phase.running = false := by rcases hp with h | h | h <;> rw [h] <;> rfl
  obtain ⟨hnext, -⟩ := stepIsOneMove s (.host (.writeReg .dec .ctrl v)) rest
  calc step s = hostMove (.writeReg .dec .ctrl v) { s with agenda := rest } := hnext ha
    _ = startMove .dec { s with agenda := rest } := hostMove_odd_ctrl hv hrest
    _ = exec i { s with agenda := rest } := startMove_dec_of_decode h14 hdec

end Sys2Proof.Machine

/-! ## Which step raises which error -/

namespace Sys2Proof.Machine

section
variable {s t : State} {k : ErrorKind}

/-- The errors of the encoder's start step (R161, R258). -/
theorem encStart_err {e : Engine} (h : e.encStart.err = some k) :
    k = .invalidChannelCount ∨ k = .pixelBufferSizeMismatch := by
  rcases encStart_cases e with ⟨-, hs⟩ | ⟨-, -, hs⟩ | ⟨-, -, hs⟩ <;> rw [hs] at h <;> cases h
  · exact .inl rfl
  · exact .inr rfl

/-- No other step of the encoder raises an error (R258). -/
theorem encMove_err (h : encMove s = .next t) : t.enc.err = s.enc.err := by
  rcases encMove_cases h with ⟨-, rfl⟩ | ⟨-, rfl⟩ | ⟨-, rfl⟩
  · rfl
  · exact Engine.encodePixel_err _ _
  · rfl

/-- The errors of the decoder's start step (R121, R201, R258). -/
theorem decStart_err (h : decStart s = .next t) (herr : t.dec.err = some k) :
    k = .badMagic ∨ k = .truncated ∨ k = .invalidChannelCount := by
  rcases decStart_cases h with ⟨k', hk, rfl⟩ | ⟨w, ht, c, cs, -, -, -, rfl⟩ <;> cases herr
  exact hk

/-- A chunk that crosses `lim` after its tag byte has a payload: it is a LUMA, an RGB or an RGBA
(R96, R207). -/
theorem payload_missing {b : Byte} {rp lim : Nat} (htag : rp + 1 ≤ lim)
    (hcut : lim < rp + chunkLength b) :
    b.toNat / 64 = 2 ∧ lim < rp + 2 ∨ b = 0xFE ∧ lim < rp + 4 ∨ b = 0xFF ∧ lim < rp + 5 := by
  rcases chunkLength_cases b with hl | ⟨hl, hb⟩ | ⟨hl, hb⟩ | ⟨hl, hb⟩ <;> rw [hl] at hcut
  · omega
  · exact .inl ⟨hb, hcut⟩
  · exact .inr (.inl ⟨hb, hcut⟩)
  · exact .inr (.inr ⟨hb, hcut⟩)

/-- Executing a chunk raises no error (R258). -/
theorem exec_chunk_err {i : Instr} (hpos : i.position = .chunk) (h : exec i s = .next t) :
    t.dec.err = s.dec.err := by
  obtain ⟨p, run, he | ⟨-, he⟩⟩ := exec_chunk hpos s <;> rw [he] at h <;> cases h <;> rfl

/-- The errors of the decoder's pixel step and end step, and what makes a pixel step raise one (R207,
R222, R258). -/
theorem decMove_err (h : decMove s = .next t) (hnone : s.dec.err = none)
    (herr : t.dec.err = some k) :
    (s.dec.phase = .pixels ∧ s.dec.run = 0 ∧ k = .truncated ∧
      (s.dec.lim < s.dec.rp + 1 ∨ s.dec.rp + 1 ≤ s.dec.lim ∧
        s.dec.lim < s.dec.rp + chunkLength (s.dec.srcByte .dec s.dec.rp))) ∨
    (s.dec.phase = .atEnd ∧ k = .corruptEndMarker) := by
  have hkept : t.dec.err ≠ s.dec.err := by rw [herr, hnone]; exact Option.some_ne_none k
  rcases decMove_cases h with ⟨-, rfl⟩ | ⟨-, -, rfl⟩ | ⟨hp, hrun, htag, rfl⟩ |
    ⟨hp, hrun, htag, hcut, rfl⟩ | ⟨-, -, bytes, i, -, -, hdec, he⟩ | ⟨hp, rfl⟩ | ⟨-, rfl⟩
  · exact absurd rfl hkept
  · exact absurd rfl hkept
  · cases herr; exact .inl ⟨hp, hrun, rfl, .inl htag⟩
  · cases herr; exact .inl ⟨hp, hrun, rfl, .inr ⟨htag, hcut⟩⟩
  · exact absurd (exec_chunk_err (decode_chunk_sound hdec).1 he) hkept
  · cases herr; exact .inr ⟨hp, rfl⟩
  · exact absurd rfl hkept

end

/-- Settles O24: the errors of each kind of step. -/
theorem whichStepRaisesWhichError : Obligations.WhichStepRaisesWhichError := by
  intro s t k
  refine ⟨fun h herr => ?_, fun h hnone => (encMove_err h).trans hnone, decStart_err,
    fun h hnone herr => ?_⟩
  · cases h; exact encStart_err herr
  · refine (decMove_err h hnone herr).imp_left fun ⟨hp, hrun, hk, hcause⟩ => ⟨hp, hrun, hk, ?_⟩
    exact hcause.imp_right fun ⟨htag, hcut⟩ => ⟨_, rfl, payload_missing htag hcut⟩

end Sys2Proof.Machine

/-! ## The values of the hash -/

namespace Sys2Proof.Machine

/-- Arithmetic that wraps at a multiple of 64 is arithmetic mod 64. -/
theorem wrap_modEq {W : Nat} (h : 6 ≤ W) (n : Nat) : n % 2 ^ W ≡ n [MOD 64] :=
  (Nat.mod_modEq n (2 ^ W)).of_dvd (Nat.pow_dvd_pow 2 h)

/-- Settles O5: every wrap, and every reduction of a sample, is a congruence mod 64. -/
theorem hashDoesNotDependOnWidth : Obligations.HashDoesNotDependOnWidth := by
  intro p
  rw [pixelHash_toNat]
  refine ⟨fun W hW => ?_, by omega⟩
  have wrap := wrap_modEq hW
  have hrg := (wrap _).trans ((wrap (p.r.toNat * 3)).add (wrap (p.g.toNat * 5)))
  have hrgb := (wrap _).trans (hrg.add (wrap (p.b.toNat * 7)))
  exact (wrap _).trans (hrgb.add (wrap (p.a.toNat * 11)))

/-- Settles O6: the hash is a sum of multiples of the channels mod 64. -/
theorem hashValuesAndCollisions : Obligations.HashValuesAndCollisions := by
  refine ⟨by decide, by decide, by decide, fun p q hr hg hb ha => ?_⟩
  rw [← BitVec.toNat_inj, pixelHash_toNat, pixelHash_toNat]
  exact (((Nat.ModEq.mul_right 3 hr).add (Nat.ModEq.mul_right 5 hg)).add
    (Nat.ModEq.mul_right 7 hb)).add (Nat.ModEq.mul_right 11 ha)

end Sys2Proof.Machine

/-! ## The pixel cache, step by step -/

namespace Sys2Proof.Machine

/-- The context after the pixel `p` has been coded or produced: as it was when `p` repeats `prev`, else
with `p` as `prev` and in its slot (R147, R148, R164). -/
def Context.afterPixel (x : Context) (p : Pixel) : Context :=
  if p = x.prev then x else ⟨p, cacheStore x.cache (pixelHash p) p⟩

theorem afterPixel_prev (x : Context) : x.afterPixel x.prev = x := if_pos rfl

/-- A coded pixel becomes `prev` and stands in its slot; on a hit it stood there already (R145, R148,
R173). -/
theorem context_codePixel_eq (e : Engine) (p : Pixel) :
    (e.codePixel p).context = ⟨p, cacheStore e.cache (pixelHash p) p⟩ := by
  have hstore : (if e.hits p then e.cache else cacheStore e.cache (pixelHash p) p) =
      cacheStore e.cache (pixelHash p) p := by
    split_ifs with hit
    · have hslot : cacheLookup e.cache (pixelHash p) = p := of_decide_eq_true hit
      have := cacheStore_lookup_self e.cache (pixelHash p)
      rw [hslot] at this
      exact this.symm
    · rfl
  rw [Engine.codePixel_eq, hstore]
  rfl

/-- The chunk the encoder chooses for a pixel other than `prev` leaves the context of that pixel. -/
theorem after_chunkFor {e : Engine} {p : Pixel} (h : p ≠ e.prev) :
    e.context.after (e.chunkFor p) = e.context.afterPixel p := by
  rw [← context_codePixel, context_codePixel_eq]
  exact (if_neg h).symm

/-- A run continuation keeps the context (R147, R165). -/
theorem context_extendRun (e : Engine) : e.extendRun.context = e.context := by
  rcases e.extendRun_cases with ⟨-, -, hx⟩ | hx <;> rw [hx] <;> rfl

/-- What a pixel step of the encoder does to `prev` and the cache (R164, R173, R174). -/
theorem context_encodePixel (e : Engine) (p : Pixel) :
    (e.encodePixel p).context = e.context.afterPixel p := by
  by_cases hp : p = e.prev
  · rw [encodePixel_extends hp, hp]
    exact (context_extendRun _).trans (afterPixel_prev e.context).symm
  · rw [encodePixel_codes hp]
    exact (context_codePixel _ p).trans (after_chunkFor (by exact hp))

/-- What executing a chunk does to the decoder, whatever run is pending: the chunk's pixel is produced
in the context after the chunk (R204). -/
theorem exec_chunk_context {i : Instr} (h : i.position = .chunk) (s : State) :
    ∃ run, exec i s = .next (s.setDec (Engine.produce { s.dec with
      rp := s.dec.rp + i.length
      run := run
      cache := (s.dec.context.after i).cache } (s.dec.context.pixel i))) := by
  cases i with
  | header => cases h
  | endMarker => cases h
  | run runf => exact ⟨runf, rfl⟩
  | _ => exact ⟨s.dec.run, rfl⟩

/-- Settles O50: the chunk the encoder chooses stands for its pixel, and both engines come to the
context after it. -/
theorem executeInvertsEmit : Obligations.ExecuteInvertsEmit := by
  intro s e p hprev hcache _
  have hcontext : s.dec.context = e.context := by
    rw [Engine.context, Engine.context, hprev, hcache]
  have hafter := context_codePixel e p
  obtain ⟨run, hexec⟩ := exec_chunk_context (chunkFor_sound e p).1 s
  rw [hcontext, pixel_chunkFor, ← hafter] at hexec
  exact ⟨_, hexec, rfl, (congrArg Context.prev (context_codePixel_eq e p)).symm, rfl⟩

/-! ### Every slot is keyed -/

/-- The cache of the engine is keyed while it is in use: its part of `State.cacheWf` (R149). -/
def Engine.KeyedInUse (e : Engine) : Prop := e.inCall → e.cacheWf

theorem State.cacheWf.engine {s : State} (h : s.cacheWf) (id : EngineId) :
    (s.engine id).KeyedInUse := by
  cases id
  exacts [h.1, h.2]

theorem State.cacheWf.setEngine {s : State} (h : s.cacheWf) (id : EngineId) {e : Engine}
    (he : e.KeyedInUse) : (s.setEngine id e).cacheWf := by
  cases id
  exacts [⟨he, h.2⟩, ⟨h.1, he⟩]

/-- An engine outside PIXELS, END and DONE does not use its cache. -/
theorem keyedInUse_of_not_inCall {e : Engine} (h : ¬ e.inCall) : e.KeyedInUse :=
  fun hin => absurd hin h

theorem keyedInUse_raise (e : Engine) (k : ErrorKind) : (e.raise k).KeyedInUse :=
  keyedInUse_of_not_inCall (by simp [Engine.inCall])

/-- A start step clears the cache (R146). -/
theorem keyedInUse_beginCall (e : Engine) (id : EngineId) (n rp : Nat) :
    (e.beginCall id n rp).KeyedInUse :=
  fun _ => cacheInit_cacheWf rfl

/-- Every chunk stores its pixel at its own hash or stores nothing (R144, R147). -/
theorem after_keeps_cacheWf {e e' : Engine} (h : e.cacheWf) (i : Instr)
    (hc : e'.cache = (e.context.after i).cache) : e'.cacheWf := by
  intro k
  rw [hc, Context.after]
  dsimp only
  split_ifs
  · exact remember_cacheWf h _ k
  · exact h k

/-- A pixel step of the encoder stores its pixel at its own hash or stores nothing (R144, R173). -/
theorem encodePixel_cacheWf {e : Engine} (h : e.cacheWf) (p : Pixel) :
    (e.encodePixel p).cacheWf := by
  have hcache : (e.encodePixel p).cache = (e.context.afterPixel p).cache :=
    congrArg Context.cache (context_encodePixel e p)
  intro k
  rw [hcache, Context.afterPixel]
  split_ifs
  · exact h k
  · exact remember_cacheWf h p k

section
variable {s t : State} (h : s.cacheWf)
include h

theorem cacheWf_encMove (hm : encMove s = .next t) : t.cacheWf := by
  have henc := h.engine .enc
  rcases encMove_cases hm with ⟨-, rfl⟩ | ⟨hp, rfl⟩ | ⟨hp, rfl⟩
  · exact h
  · exact h.setEngine .enc fun _ => encodePixel_cacheWf (henc (.inl hp)) _
  · exact h.setEngine .enc fun _ => henc (.inr (.inl hp))

theorem cacheWf_decMove (hm : decMove s = .next t) : t.cacheWf := by
  have hdec := h.engine .dec
  rcases decMove_cases hm with ⟨-, rfl⟩ | ⟨hp, -, rfl⟩ | ⟨-, -, -, rfl⟩ | ⟨-, -, -, -, rfl⟩ |
    ⟨hp, -, bytes, i, -, -, hdecode, he⟩ | ⟨-, rfl⟩ | ⟨hp, rfl⟩
  · exact h
  · exact h.setEngine .dec fun _ => hdec (.inl hp)
  · exact h.setEngine .dec (keyedInUse_raise _ _)
  · exact h.setEngine .dec (keyedInUse_raise _ _)
  · obtain ⟨run, hexec⟩ := exec_chunk_context (decode_chunk_sound hdecode).1 s
    rw [hexec] at he
    cases he
    exact h.setEngine .dec fun _ => after_keeps_cacheWf (hdec (.inl hp)) i rfl
  · exact h.setEngine .dec (keyedInUse_raise _ _)
  · exact h.setEngine .dec fun _ => hdec (.inr (.inl hp))

theorem cacheWf_engineMove {id : EngineId} (hm : engineMove id s = .next t) : t.cacheWf := by
  cases id with
  | enc => exact cacheWf_encMove h hm
  | dec => exact cacheWf_decMove h hm

theorem cacheWf_startMove {id : EngineId} (hm : startMove id s = .next t) : t.cacheWf := by
  cases id with
  | enc =>
    cases hm
    refine h.setEngine .enc ?_
    rcases encStart_cases s.enc with ⟨-, hs⟩ | ⟨-, -, hs⟩ | ⟨-, -, hs⟩ <;> rw [hs]
    · exact keyedInUse_raise _ _
    · exact keyedInUse_raise _ _
    · exact keyedInUse_beginCall s.enc .enc _ 0
  | dec =>
    rcases decStart_cases hm with ⟨k, -, rfl⟩ | ⟨w, ht, c, cs, -, -, -, rfl⟩
    · exact h.setEngine .dec (keyedInUse_raise _ _)
    · exact h.setEngine .dec (keyedInUse_beginCall _ .dec _ 14)

/-- The host reaches a cache by START and by the reset input only (R31, R290). -/
theorem cacheWf_hostMove {op : HostOp} (hm : hostMove op s = .next t) : t.cacheWf := by
  have hsame (id : EngineId) {e : Engine} (hphase : e.phase = (s.engine id).phase)
      (hcache : e.cache = (s.engine id).cache) : (s.setEngine id e).cacheWf :=
    h.setEngine id (by
      rw [Engine.KeyedInUse, Engine.inCall, Engine.cacheWf, hphase, hcache]; exact h.engine id)
  rcases hostMove_cases hm with rfl | ⟨id, v, -, -, -, hst⟩ | ⟨id, r, v, -, -, -, rfl⟩ |
    ⟨id, v, rfl | rfl⟩ | ⟨id, off, bytes, -, -, rfl⟩ | ⟨id, -, rfl⟩
  · exact h
  · exact cacheWf_startMove h hst
  · exact hsame id (by cases r <;> rfl) (by cases r <;> rfl)
  · exact h
  · exact hsame id rfl rfl
  · exact hsame id rfl rfl
  · exact h.setEngine id (keyedInUse_of_not_inCall (by simp [Engine.inCall, Engine.assertReset]))

end

/-- Settles O38: every store is at the pixel's own hash, and a start step clears the cache. -/
theorem stepKeepsCacheKeyed : Obligations.StepKeepsCacheKeyed := fun _ _ =>
  step_keeps (fun _ _ h => h) (fun _ _ _ h => cacheWf_engineMove h)
    (fun _ _ _ h => cacheWf_hostMove h)

end Sys2Proof.Machine

/-! ## Both engines in lock-step -/

namespace Sys2Proof.Machine

/-- The context after a list of pixels. -/
def Context.over (x : Context) (ps : List Pixel) : Context := ps.foldl Context.afterPixel x

/-- Every chunk of the list leaves the context that its first pixel leaves in the encoder; the pixels it
owes repeat `prev` and change nothing. -/
def Context.Faithful : Context → List Instr → Prop
  | _, [] => True
  | x, c :: cs => x.after c = x.afterPixel (x.pixel c) ∧ (x.after c).Faithful cs

/-- One more chunk at the end. -/
theorem Context.Faithful.concat {x : Context} {cs : List Instr} {c : Instr} (h : x.Faithful cs)
    (hc : (x.afterAll cs).after c = (x.afterAll cs).afterPixel ((x.afterAll cs).pixel c)) :
    x.Faithful (cs ++ [c]) := by
  induction cs generalizing x with
  | nil => exact ⟨hc, trivial⟩
  | cons d cs ih =>
    obtain ⟨hd, hcs⟩ := h
    exact ⟨hd, ih hcs hc⟩

/-- The chunks after the first. -/
theorem ChunkList.tail {c : Instr} {cs : List Instr} (h : ChunkList (c :: cs)) : ChunkList cs :=
  fun d hd => h d (List.mem_cons_of_mem c hd)

/-- The first chunk of a list and the bytes after it are read from the list's bytes (R100). -/
theorem ChunkList.decode_encodeAll {c : Instr} {cs : List Instr} (h : ChunkList (c :: cs)) :
    decode .chunk (encodeAll (c :: cs)) = .ok (c, encodeAll cs) := by
  obtain ⟨hpos, hwf⟩ := h c List.mem_cons_self
  rw [encodeAll_cons, ← hpos, decode_encode hwf]

/-- A list of chunks is determined by its bytes (R100). -/
theorem ChunkList.eq_of_encodeAll {cs cs' : List Instr} (h : ChunkList cs) (h' : ChunkList cs')
    (hbytes : encodeAll cs = encodeAll cs') : cs = cs' := by
  induction cs generalizing cs' with
  | nil =>
    cases cs' with
    | nil => rfl
    | cons c' cs' =>
      have hd := h'.decode_encodeAll
      rw [← hbytes] at hd
      cases hd
  | cons c cs ih =>
    have hd := h.decode_encodeAll
    cases cs' with
    | nil =>
      rw [hbytes] at hd
      cases hd
    | cons c' cs' =>
      rw [hbytes, h'.decode_encodeAll] at hd
      injection hd with hd
      injection hd with hc hrest
      rw [hc, ih h.tail h'.tail hrest.symm]

/-! ### What the encoder emits is faithful -/

/-- The encoder has emitted the chunks `cs` after the header `hd`; they are faithful and leave its
context. -/
def Engine.Emitted (e : Engine) (base : Memory) (hd : Instr) (cs : List Instr) : Prop :=
  e.Wrote base (hd :: cs) ∧ ChunkList cs ∧ Context.start.afterAll cs = e.context ∧
    Context.start.Faithful cs

section
variable {e : Engine} {base : Memory} {hd : Instr} {cs : List Instr}

theorem Engine.Emitted.wrote (h : e.Emitted base hd cs) : e.Wrote base (hd :: cs) := h.1

/-- One more faithful chunk is emitted. -/
theorem Engine.Emitted.concat (h : e.Emitted base hd cs) {c : Instr}
    (hc : c.position = .chunk ∧ c.WellFormed = true)
    (hf : e.context.after c = e.context.afterPixel (e.context.pixel c)) {e' : Engine}
    (hwrote : e'.Wrote base (hd :: cs ++ [c])) (hcontext : e'.context = e.context.after c) :
    e'.Emitted base hd (cs ++ [c]) := by
  obtain ⟨-, hchunks, hcs, hfaithful⟩ := h
  exact ⟨hwrote, hchunks.concat hc, by rw [afterAll_concat, hcs, hcontext],
    hfaithful.concat (by rw [hcs]; exact hf)⟩

/-- A pending run goes out as one RUN chunk (R166). -/
theorem Engine.Emitted.flush (h : e.Emitted base hd cs) (h0 : e.run ≠ 0)
    (hle : e.run ≤ Config.maxRun) : e.flush.Emitted base hd (cs ++ [.run (e.run - 1)]) := by
  have hwf : e.run - 1 ≤ Config.runFieldMax := by
    simp only [Config.maxRun, Config.runFieldMax] at *
    bv_omega
  exact h.concat (c := .run _) ⟨rfl, decide_eq_true hwf⟩ (afterPixel_prev e.context).symm
    (h.wrote.emit _) rfl

/-- A pixel equal to `prev` emits nothing or its run (R165). -/
theorem Engine.Emitted.extendRun (h : e.Emitted base hd cs) (hle : e.run ≤ Config.runFieldMax) :
    ∃ cs', e.extendRun.Emitted base hd cs' := by
  have hmore : Engine.Emitted { e with run := e.run + 1 } base hd cs := h
  simp only [Config.runFieldMax] at hle
  rcases e.extendRun_cases with ⟨-, -, hx⟩ | hx <;> rw [hx]
  · exact ⟨cs, hmore⟩
  · have h0 : e.run + 1 ≠ 0 := by bv_omega
    have hmax : e.run + 1 ≤ Config.maxRun := by simp only [Config.maxRun]; bv_omega
    exact ⟨_, hmore.flush h0 hmax⟩

/-- A pending run, if any, is flushed. -/
theorem Engine.Emitted.settled (h : e.Emitted base hd cs) (hle : e.run ≤ Config.runFieldMax) :
    ∃ cs', e.settled.Emitted base hd cs' := by
  by_cases h0 : e.run = 0
  · exact ⟨cs, by rw [settled_of_no_run h0]; exact h⟩
  · have hmax : e.run ≤ Config.maxRun := by
      simp only [Config.maxRun, Config.runFieldMax] at *
      bv_omega
    exact ⟨_, by rw [settled_of_run h0]; exact h.flush h0 hmax⟩

/-- A pixel other than `prev` emits the pending run and its chunk (R164 cases 2 to 6). -/
theorem Engine.Emitted.codePixel (h : e.Emitted base hd cs) (hle : e.run ≤ Config.runFieldMax)
    {p : Pixel} (hp : p ≠ e.prev) : ∃ cs', (e.codePixel p).Emitted base hd cs' := by
  obtain ⟨cs', hs⟩ := h.settled hle
  obtain ⟨hpos, hwf, -⟩ := chunkFor_sound e p
  have hcontext : e.settled.context = e.context := by
    unfold Engine.context
    rw [settled_prev, settled_cache]
  refine ⟨cs' ++ [e.chunkFor p], hs.concat ⟨hpos, hwf⟩ ?_ ?_ ?_⟩
  · rw [hcontext, pixel_chunkFor, after_chunkFor hp]
  · rw [codePixel_eq]
    exact hs.wrote.emit _
  · rw [hcontext, context_codePixel]

/-- A pixel step emits faithful chunks (R164). -/
theorem Engine.Emitted.encodePixel (h : e.Emitted base hd cs) (hle : e.run ≤ Config.runFieldMax)
    (p : Pixel) : ∃ cs', (e.encodePixel p).Emitted base hd cs' := by
  have h' : Engine.Emitted { e with cur := p, rp := e.rp + e.channels.toNat } base hd cs := h
  by_cases hp : p = e.prev
  · rw [encodePixel_extends hp]
    exact h'.extendRun hle
  · rw [encodePixel_codes hp]
    exact h'.codePixel hle hp

/-- An engine delivers one sequence of bytes only. -/
theorem Engine.delivers.unique {bytes bytes' : List Byte} (h : e.delivers bytes)
    (h' : e.delivers bytes') : bytes = bytes' := by
  obtain ⟨-, -, hlen, hread⟩ := h
  obtain ⟨-, -, hlen', hread'⟩ := h'
  rw [← hlen] at hread
  rw [← hlen', hread] at hread'
  exact Option.some.inj hread'

/-- The chunks of a delivered stream are those that were emitted (R175). -/
theorem Engine.Emitted.eq_of_delivers {cs' : List Instr} (h : e.Emitted base hd cs)
    (hp : e.phase = .atEnd) (hchunks : ChunkList cs')
    (hdel : (e.next .enc).delivers (encodeAll (hd :: cs' ++ [.endMarker]))) : cs' = cs := by
  obtain ⟨hwrote, hcs, -, -⟩ := h
  have hsame : (e.next .enc).delivers (encodeAll (hd :: cs ++ [.endMarker])) := by
    obtain ⟨hdone, herr, -, -⟩ := hdel
    obtain ⟨hwp, hdst⟩ := hwrote.emit .endMarker
    refine ⟨hdone, herr, by rw [next_enc_end hp]; exact hwp, ?_⟩
    rw [next_enc_end hp]
    show Memory.readList (e.emit .endMarker).dst 0 _ = _
    rw [hdst]
    exact Memory.readList_writeList _ 0 _
  have hbytes := hdel.unique hsame
  simp only [List.cons_append, encodeAll_cons, encodeAll_append, List.append_cancel_left_eq,
    List.append_cancel_right_eq] at hbytes
  exact hchunks.eq_of_encodeAll hcs hbytes

end

/-! ### The encoder over an image -/

section
variable {e : Engine} {base : Memory} {hd : Instr} {img : List Pixel} {k : Nat}

/-- The pixel that a pixel step fetches is the next one of the image (R163). -/
theorem Engine.Encoding.drop_image (h : e.Encoding base hd img (k + 1)) :
    img.drop e.i = e.fetchPixel :: img.drop (e.i + 1) := by
  obtain ⟨-, -, -, hrp, -⟩ := h.sound.encCall h.owes.running
  have hi : e.i < img.length := by
    rw [← h.image, image_length, ← h.owes.2]
    omega
  have hpixel : img[e.i] = e.fetchPixel := by
    simp only [← h.image, Engine.image, List.getElem_map, List.getElem_range]
    show Engine.fetchPixel { e with rp := e.i * e.channels.toNat } = _
    rw [← hrp]
  rw [List.drop_eq_getElem_cons hi, hpixel]

/-- The encoder's context after some pixel steps is that of the pixels they coded (R164). -/
theorem Engine.Encoding.context_iterate (h : e.Encoding base hd img k) {j : Nat} (hj : j ≤ k) :
    ((Engine.next .enc)^[j] e).context = e.context.over ((img.drop e.i).take j) := by
  induction j generalizing e k with
  | zero => rfl
  | succ j ih =>
    obtain ⟨k, rfl⟩ : ∃ m, k = m + 1 := ⟨k - 1, by omega⟩
    have hp : e.phase = .pixels := by rw [h.owes.1, if_neg (Nat.succ_ne_zero k)]
    rw [Function.iterate_succ_apply, ih h.next (by omega), h.drop_image, next_enc_pixel hp,
      context_encodePixel, encodePixel_i]
    rfl

/-- All pixel steps of the encoder emit faithful chunks. -/
theorem Engine.Encoding.emitted_iterate (h : e.Encoding base hd img k) {cs : List Instr}
    (hcs : e.Emitted base hd cs) : ∃ cs', ((Engine.next .enc)^[k] e).Emitted base hd cs' := by
  induction k generalizing e cs with
  | zero => exact ⟨cs, hcs⟩
  | succ k ih =>
    have hp : e.phase = .pixels := by rw [h.owes.1, if_neg (Nat.succ_ne_zero k)]
    obtain ⟨⟨hrun, -⟩, -⟩ := h.sound.encCall h.owes.running
    obtain ⟨cs', hcs'⟩ := hcs.encodePixel hrun e.fetchPixel
    rw [← next_enc_pixel hp] at hcs'
    rw [Function.iterate_succ_apply]
    exact ih h.next hcs'

end

/-- The encoder right after a start step that accepts the call (R161). -/
theorem encoding_encStart {e : Engine} (hc : validChannels e.channels = true)
    (hlen : e.srcLen = e.width.toNat * e.height.toNat * e.channels.toNat) :
    let hd := Instr.header e.width e.height e.channels e.colorspace
    e.encStart.Encoding e.dst hd e.encStart.image (e.width.toNat * e.height.toNat) ∧
      e.encStart.Emitted e.dst hd [] ∧ e.encStart.context = Context.start ∧ e.encStart.i = 0 := by
  intro hd
  have hstart := encStart_accepts hc hlen
  have hwrote : (e.beginCall .enc (e.width.toNat * e.height.toNat) 0).Wrote e.dst [] := ⟨rfl, rfl⟩
  refine ⟨⟨sound_encStart e, ?_, rfl, [], ?_⟩, ?_, ?_, ?_⟩ <;> rw [hstart]
  · exact beginCall_owes e .enc _ 0
  · exact ⟨hwrote.emit _, .nil, rfl, rfl⟩
  · exact ⟨hwrote.emit _, .nil, rfl, trivial⟩
  · rfl
  · rfl

/-- A call that the encoder accepts delivers the header, faithful chunks that stand for the image, and
the end marker; over its pixel steps its context is that of the pixels so far. -/
theorem encode_call_faithful {e : Engine} (hc : validChannels e.channels = true)
    (hlen : e.srcLen = e.width.toNat * e.height.toNat * e.channels.toNat) :
    ∃ cs, ChunkList cs ∧ Context.start.Faithful cs ∧ Context.start.expand cs = e.encStart.image ∧
      ((Engine.next .enc)^[e.width.toNat * e.height.toNat + 1] e.encStart).delivers
        (encodeAll (.header e.width e.height e.channels e.colorspace :: cs ++ [.endMarker])) ∧
      ∀ j ≤ e.width.toNat * e.height.toNat, ((Engine.next .enc)^[j] e.encStart).context =
        Context.start.over (e.encStart.image.take j) := by
  obtain ⟨h0, hemitted, hcontext, hi⟩ := encoding_encStart hc hlen
  obtain ⟨cs, hchunks, hexpand, hdel⟩ := h0.iterate.finish
  obtain ⟨cs', hcs'⟩ := h0.emitted_iterate hemitted
  obtain rfl := hcs'.eq_of_delivers h0.iterate.owes.1 hchunks hdel
  obtain ⟨-, -, -, hfaithful⟩ := hcs'
  refine ⟨cs, hchunks, hfaithful, hexpand, ?_, fun j hj => ?_⟩
  · rw [Function.iterate_succ_apply']
    exact hdel
  · rw [h0.context_iterate hj, hcontext, hi, List.drop_zero]

/-! ### The decoder over faithful chunks -/

section
variable {d : Engine} {c : Instr} {cs : List Instr} {p : Pixel} {todo : List Pixel}

/-- A pixel step with a pending run keeps the context and the chunks to read (R206). -/
theorem Engine.WillRead.next_pending (h : d.WillRead cs todo) (hp : d.phase = .pixels)
    (hrun : d.run ≠ 0) :
    (d.next .dec).context = d.context ∧
    (d.next .dec).WillRead cs (List.replicate (d.run - 1).toNat d.prev ++ d.context.expand cs) := by
  rw [next_dec_run hp hrun]
  exact ⟨rfl, srcBytes_transfer h.bytes rfl, h.room, srcBytes_transfer h.marker rfl, h.chunks, rfl⟩

/-- A pixel step with no pending run reads the next chunk and comes to the context after it (R204). -/
theorem Engine.WillRead.next_chunk (h : d.WillRead (c :: cs) todo) (hp : d.phase = .pixels)
    (hrun : d.run = 0) :
    (d.next .dec).context = d.context.after c ∧
    (d.next .dec).WillRead cs
      (List.replicate (owed c).toNat (d.context.pixel c) ++ (d.context.after c).expand cs) := by
  have hbytes := h.bytes
  have hroom := h.room
  rw [encodeAll_cons, List.length_append] at hbytes hroom
  rw [srcBytes_add] at hbytes
  obtain ⟨hfirst, hrest⟩ := List.append_inj hbytes (by rw [srcBytes_length])
  rw [next_dec_chunk hp hrun (h.chunks c List.mem_cons_self) (by omega) hfirst]
  exact ⟨rfl, srcBytes_transfer hrest rfl, (Nat.add_assoc ..).trans hroom,
    srcBytes_transfer h.marker rfl, h.chunks.tail, rfl⟩

/-- Over faithful chunks a pixel step comes to the context after its pixel (R204, R206). -/
theorem Engine.WillRead.next_context (h : d.WillRead cs (p :: todo)) (hf : d.context.Faithful cs)
    (hp : d.phase = .pixels) :
    (d.next .dec).context = d.context.afterPixel p ∧
    ∃ cs', (d.next .dec).WillRead cs' todo ∧ (d.next .dec).context.Faithful cs' := by
  have hpixels := h.pixels
  by_cases hrun : d.run = 0
  · rw [replicate_of_no_run hrun, List.nil_append] at hpixels
    cases cs with
    | nil => cases hpixels
    | cons c cs =>
      obtain ⟨hc, hcs⟩ := hf
      obtain ⟨rfl, rfl⟩ := List.cons.inj hpixels
      obtain ⟨hcontext, hread⟩ := h.next_chunk hp hrun
      exact ⟨hcontext.trans hc, cs, hread, by rw [hcontext]; exact hcs⟩
  · have hcount : d.run.toNat = (d.run - 1).toNat + 1 := by bv_omega
    rw [hcount, List.replicate_succ, List.cons_append] at hpixels
    obtain ⟨rfl, rfl⟩ := List.cons.inj hpixels
    obtain ⟨hcontext, hread⟩ := h.next_pending hp hrun
    exact ⟨hcontext.trans (afterPixel_prev d.context).symm, cs, hread, by rw [hcontext]; exact hf⟩

/-- The decoder's context after some pixel steps is that of the pixels they produced (R204). -/
theorem Engine.WillRead.context_iterate (h : d.WillRead cs todo) (hf : d.context.Faithful cs)
    (howes : d.Owes todo.length) {j : Nat} (hj : j ≤ todo.length) :
    ((Engine.next .dec)^[j] d).context = d.context.over (todo.take j) := by
  induction j generalizing d cs todo with
  | zero => rfl
  | succ j ih =>
    cases todo with
    | nil => cases hj
    | cons p todo =>
      have hp : d.phase = .pixels := by
        rw [howes.1, List.length_cons, if_neg (Nat.succ_ne_zero _)]
      obtain ⟨hcontext, cs', hread, hf'⟩ := h.next_context hf hp
      have howes' : (d.next .dec).Owes todo.length := by
        obtain ⟨r, run, cache, -, hnext, -⟩ := h.next hp
        rw [hnext]
        exact howes.pred rfl rfl rfl
      rw [Function.iterate_succ_apply, ih hread hf' howes' (Nat.le_of_succ_le_succ hj), hcontext]
      rfl

end

/-- The decoder right after the start step on a header, chunks and the end marker (R201). -/
theorem decStart_willRead {s : State} {w h : Word32} {c cs : Byte} {chunks : List Instr}
    (hc : validChannels c = true) (hchunks : ChunkList chunks)
    (hlen : s.dec.srcLen = (encodeAll (.header w h c cs :: chunks ++ [.endMarker])).length)
    (hread : s.dec.srcBytes .dec 0 s.dec.srcLen =
      encodeAll (.header w h c cs :: chunks ++ [.endMarker])) :
    ∃ d, decStart s = .next (s.setDec d) ∧ d.context = Context.start ∧
      d.Owes (w.toNat * h.toNat) ∧ d.WillRead chunks (Context.start.expand chunks) := by
  have hhead : (encode (.header w h c cs)).length = 14 := rfl
  have hmark : (encode .endMarker).length = 8 := rfl
  rw [List.cons_append, encodeAll_cons, encodeAll_append, encodeAll_cons, encodeAll_nil,
    List.append_nil] at hlen hread
  rw [List.length_append, List.length_append, hhead, hmark] at hlen
  rw [hlen, srcBytes_add, srcBytes_add] at hread
  obtain ⟨hheader, hread⟩ := List.append_inj hread (by rw [srcBytes_length, hhead])
  obtain ⟨hbody, hmarker⟩ := List.append_inj hread (by rw [srcBytes_length])
  have hlim : 14 + (encodeAll chunks).length = s.dec.srcLen - 8 := by omega
  rw [Nat.zero_add, hlim] at hmarker
  exact ⟨_, decStart_of_header hc (by omega) hheader, rfl, beginCall_owes _ .dec _ 14,
    srcBytes_transfer hbody rfl, hlim, srcBytes_transfer hmarker rfl, hchunks, rfl⟩

/-! ### The first steps of two calls -/

/-- The agenda of an encode call up to its `j`-th pixel step. -/
theorem take_encodeAgenda {samples : List Byte} {w h : Word32} {c cs : Byte} {j : Nat}
    (hj : j ≤ w.toNat * h.toNat) :
    (encodeAgenda samples w h c cs).take (7 + j) =
      encodeSetup samples w h c cs ++ List.replicate j (.engine .enc) := by
  rw [encodeAgenda_eq]
  refine (List.take_length_add_append (l₁ := encodeSetup samples w h c cs) j).trans ?_
  rw [List.take_replicate, min_eq_left (by omega)]

/-- The agenda of a decode call up to its `j`-th pixel step. -/
theorem take_decodeAgenda {stream : List Byte} {n j : Nat} (hj : j ≤ n) :
    (decodeAgenda stream n).take (3 + j) =
      decodeSetup stream ++ List.replicate j (.engine .dec) := by
  rw [decodeAgenda_eq]
  refine (List.take_length_add_append (l₁ := decodeSetup stream) j).trans ?_
  rw [List.take_replicate, min_eq_left (by omega)]

/-- The encoder after the host's part of a call and `j` steps. -/
theorem enc_of_runAgenda {s t : State} {samples : List Byte} {w h : Word32} {c cs : Byte} {j : Nat}
    (hp : s.enc.phase.running = false)
    (hrun : runAgenda s (encodeSetup samples w h c cs ++ List.replicate j (.engine .enc)) = .next t) :
    t.enc = (Engine.next .enc)^[j] (s.enc.forEncode samples w h c cs).encStart := by
  rw [runAgenda_encodeSetup hp, runAgenda_replicate] at hrun
  cases hrun; rfl

/-- An encode call that delivers a stream had 3 or 4 channels and the right number of samples (R161,
R260). -/
theorem Encodes.accepted {s : State} {samples stream : List Byte} {w h : Word32} {c cs : Byte}
    (hp : s.enc.phase.running = false) (henc : Encodes s samples w h c cs stream) :
    validChannels c = true ∧ samples.length = w.toNat * h.toNat * c.toNat := by
  obtain ⟨t, hrun, hdone, -⟩ := henc
  rw [enc_of_runAgenda hp hrun] at hdone
  have hne : (s.enc.forEncode samples w h c cs).encStart.phase ≠ .error := fun herr => by
    rw [iterate_next_error herr] at hdone
    cases hdone
  rcases encStart_cases (s.enc.forEncode samples w h c cs) with ⟨-, hs⟩ | ⟨-, -, hs⟩ | ⟨hc, hl, -⟩
  · exact absurd (by rw [hs]; rfl) hne
  · exact absurd (by rw [hs]; rfl) hne
  · exact ⟨hc, hl⟩

/-- An encode call that delivers a stream has put a header, faithful chunks and the end marker in it,
and over its pixel steps its context is that of the pixels the chunks stand for. -/
theorem Encodes.faithful {s : State} {samples stream : List Byte} {w h : Word32} {c cs : Byte}
    (hp : s.enc.phase.running = false) (henc : Encodes s samples w h c cs stream) :
    ∃ chunks, ChunkList chunks ∧ Context.start.Faithful chunks ∧
      (Context.start.expand chunks).length = w.toNat * h.toNat ∧
      stream = encodeAll (.header w h c cs :: chunks ++ [.endMarker]) ∧
      ∀ j ≤ w.toNat * h.toNat, ∀ t,
        runAgenda s ((encodeAgenda samples w h c cs).take (7 + j)) = .next t →
        t.enc.context = Context.start.over ((Context.start.expand chunks).take j) := by
  obtain ⟨hc, hlen⟩ := henc.accepted hp
  obtain ⟨u, hcall, hdelivers⟩ := henc
  rw [enc_of_runAgenda hp hcall] at hdelivers
  obtain ⟨chunks, hchunks, hfaithful, hexpand, hdel, hcontext⟩ :=
    encode_call_faithful (e := s.enc.forEncode samples w h c cs) hc hlen
  obtain ⟨hsize, -⟩ := image_forEncode (e := s.enc) (cs := cs) hc hlen
  refine ⟨chunks, hchunks, hfaithful, by rw [hexpand, hsize], hdelivers.unique hdel,
    fun j hj t hrun => ?_⟩
  rw [take_encodeAgenda hj] at hrun
  rw [enc_of_runAgenda hp hrun, hexpand]
  exact hcontext j hj

/-- Over the pixel steps of a decode call of faithful chunks the decoder's context is that of the pixels
they stand for. -/
theorem dec_context_of_faithful {s t : State} {w h : Word32} {c cs : Byte} {chunks : List Instr}
    {j : Nat} (hp : s.dec.phase.running = false) (hc : validChannels c = true)
    (hchunks : ChunkList chunks) (hfaithful : Context.start.Faithful chunks)
    (hsize : (Context.start.expand chunks).length = w.toNat * h.toNat) (hj : j ≤ w.toNat * h.toNat)
    (hrun : runAgenda s ((decodeAgenda (encodeAll (.header w h c cs :: chunks ++ [.endMarker]))
      (w.toNat * h.toNat)).take (3 + j)) = .next t) :
    t.dec.context = Context.start.over ((Context.start.expand chunks).take j) := by
  generalize hstream : encodeAll (.header w h c cs :: chunks ++ [.endMarker]) = stream at hrun
  obtain ⟨d, hstart, hd, howes, hread⟩ :=
    decStart_willRead (s := s.setDec (s.dec.forDecode stream)) hc hchunks
      (by rw [hstream]; rfl) (by rw [hstream]; exact srcBytes_placed .dec rfl)
  rw [take_decodeAgenda hj, runAgenda_decodeSetup hp stream _ hstart, runAgenda_replicate] at hrun
  cases hrun
  rw [← hsize] at howes hj
  rw [← hd] at hfaithful
  exact (hread.context_iterate hfaithful howes hj).trans (by rw [hd])

/-- Settles O52: after `j` pixel steps each engine has the context of the first `j` pixels of the image,
the decoder because the encoder's chunks are faithful. -/
theorem cachesInLockStep : Obligations.CachesInLockStep := by
  intro s s' samples stream w h c cs j t t' hp hp' hencodes hj hrun hrun'
  obtain ⟨hc, -⟩ := hencodes.accepted hp
  obtain ⟨chunks, hchunks, hfaithful, hsize, rfl, henc⟩ := hencodes.faithful hp
  have hdec := dec_context_of_faithful hp' hc hchunks hfaithful hsize hj hrun'
  have hsame := hdec.trans (henc j hj t hrun).symm
  exact ⟨congrArg Context.prev hsame, congrArg Context.cache hsame⟩

end Sys2Proof.Machine

/-! ## The pixel differencer and the choice of a chunk -/

namespace Sys2Proof.Machine

/-- Settles O33: the definitions of the five differences and of the two tests, and the ranges of the
samples. -/
theorem differencesAreExact : Obligations.DifferencesAreExact := by
  intro cur prev
  have hr := cur.r.isLt; have hg := cur.g.isLt; have hb := cur.b.isLt
  have hr' := prev.r.isLt; have hg' := prev.g.isLt; have hb' := prev.b.isLt
  simp only [small_iff, medium_iff, differences, delta, and_assoc, true_and]
  omega

section
variable {p q : Pixel}

theorem missChunk_small (ha : p.a = q.a) (hs : (differences p q).small = true) :
    missChunk p q = diffChunk (differences p q) :=
  (if_pos ha).trans (if_pos hs)

theorem missChunk_medium (ha : p.a = q.a) (hs : ¬ (differences p q).small = true)
    (hm : (differences p q).medium = true) : missChunk p q = lumaChunk (differences p q) :=
  (if_pos ha).trans ((if_neg hs).trans (if_pos hm))

theorem missChunk_large (ha : p.a = q.a) (hs : ¬ (differences p q).small = true)
    (hm : ¬ (differences p q).medium = true) : missChunk p q = rgbChunk p :=
  (if_pos ha).trans ((if_neg hs).trans (if_neg hm))

theorem missChunk_alpha (ha : p.a ≠ q.a) : missChunk p q = rgbaChunk p := if_neg ha

/-- An unchanged alpha is never coded by RGBA (R164, R172). -/
theorem missChunk_ne_rgba (ha : p.a = q.a) (r g b a : Byte) : missChunk p q ≠ .rgba r g b a := by
  intro h
  rcases missChunk_cases p q with ⟨-, -, hc⟩ | ⟨-, -, hc⟩ | ⟨-, hc⟩ | ⟨hne, -⟩
  · cases hc.symm.trans h
  · cases hc.symm.trans h
  · cases hc.symm.trans h
  · exact hne ha

/-- Adding nothing leaves a sample (R219). -/
theorem addDelta_zero (b : Byte) : addDelta b 0 = b :=
  addDelta_eq (by have := b.isLt; omega)

/-- A DIFF of three zero deltas stands for the previous pixel, so it is not chosen for another one
(R169, R179). -/
theorem missChunk_ne_zero_diff (h : p ≠ q) : missChunk p q ≠ .diff 2 2 2 := by
  intro hc
  have hpixel := pixel_missChunk ⟨q, Config.cacheInit⟩ p
  have hzero : unbias (2 : BitVec 2) Config.diffBias = 0 := by decide
  simp only [hc, Context.pixel, hzero, shifted, addDelta_zero] at hpixel
  exact h hpixel.symm

end

/-- Settles O34: the chunk of a miss stands for its pixel, and its case is decided by alpha first. -/
theorem encoderChunkChoice : Obligations.EncoderChunkChoice := fun _ _ h =>
  ⟨missChunk_ne_zero_diff h, missChunk_ne_rgba, missChunk_alpha⟩

/-! ### The bytes of the chunks the encoder chooses -/

/-- The byte of format T6 as a number (R93). -/
theorem t6_eq_ofNat (tag : BitVec 2) (k : BitVec 6) :
    tag ++ k = BitVec.ofNat 8 (tag.toNat * 64 + k.toNat) := by
  rw [← t6_toNat, BitVec.ofNat_toNat, BitVec.setWidth_eq]

theorem encode_index (k : Slot) : encode (.index k) = [BitVec.ofNat 8 k.toNat] := by
  rw [encode, t6_eq_ofNat, show (0b00#2).toNat * 64 = 0 from rfl, Nat.zero_add]

theorem encode_run (f : BitVec 6) : encode (.run f) = [BitVec.ofNat 8 (0xC0 + f.toNat)] := by
  rw [encode, t6_eq_ofNat]
  rfl

/-- The field of a delta in its range, as a number (R99). -/
theorem biased_toNat {w : Nat} {d bias : Int} (h0 : 0 ≤ d + bias) (h1 : d + bias < 2 ^ w) :
    ((biased w d bias).toNat : Int) = d + bias := by
  have := unbias_biased h0 h1
  unfold unbias at this
  omega

/-- A byte given as an integer in its range. -/
theorem eq_ofInt_of_toNat {b : Byte} {n : Int} (h : (b.toNat : Int) = n) : b = BitVec.ofInt 8 n := by
  rw [← h, BitVec.ofInt_natCast, BitVec.ofNat_toNat, BitVec.setWidth_eq]

/-- The byte of the DIFF that small differences give (R94, R169). -/
theorem encode_diffChunk {d : Deltas} (h : d.small = true) :
    encode (diffChunk d) =
      [BitVec.ofInt 8 (0x40 + (d.dr + 2) * 16 + (d.dg + 2) * 4 + (d.db + 2))] := by
  obtain ⟨⟨_, _⟩, ⟨_, _⟩, _, _⟩ := (small_iff d).mp h
  have hr : ((biased 2 d.dr 2).toNat : Int) = d.dr + 2 := biased_toNat (by omega) (by omega)
  have hg : ((biased 2 d.dg 2).toNat : Int) = d.dg + 2 := biased_toNat (by omega) (by omega)
  have hb : ((biased 2 d.db 2).toNat : Int) = d.db + 2 := biased_toNat (by omega) (by omega)
  refine congrArg (· :: []) (eq_ofInt_of_toNat ?_)
  simp only [append_toNat, Config.diffBias]
  push_cast
  rw [hr, hg, hb]
  ring

/-- The bytes of the LUMA that medium differences give (R95, R170). -/
theorem encode_lumaChunk {d : Deltas} (h : d.medium = true) :
    encode (lumaChunk d) = [BitVec.ofInt 8 (0x80 + (d.dg + 32)),
      BitVec.ofInt 8 ((d.drg + 8) * 16 + (d.dbg + 8))] := by
  obtain ⟨⟨_, _⟩, ⟨_, _⟩, _, _⟩ := (medium_iff d).mp h
  have hg : ((biased 6 d.dg 32).toNat : Int) = d.dg + 32 := biased_toNat (by omega) (by omega)
  have hrg : ((biased 4 d.drg 8).toNat : Int) = d.drg + 8 := biased_toNat (by omega) (by omega)
  have hbg : ((biased 4 d.dbg 8).toNat : Int) = d.dbg + 8 := biased_toNat (by omega) (by omega)
  refine congrArg₂ (· :: · :: []) (eq_ofInt_of_toNat ?_) (eq_ofInt_of_toNat ?_) <;>
    simp only [append_toNat, Config.lumaGreenBias, Config.lumaCrossBias] <;> push_cast
  · rw [hg]
  · rw [hrg, hbg]

end Sys2Proof.Machine

/-! ## The pixel step of the encoder in the words of the claims -/

namespace Sys2Proof.Machine

/-- The bytes of the pending run: none, or one RUN chunk (R166). -/
def Engine.pendingRun (e : Engine) : List Byte :=
  if e.run = 0 then [] else encode (.run (e.run - 1))

theorem pendingRun_of_no_run {e : Engine} (h : e.run = 0) : e.pendingRun = [] := if_pos h

/-- The pending run is at most one byte (R166). -/
theorem pendingRun_length_le (e : Engine) : e.pendingRun.length ≤ 1 := by
  unfold Engine.pendingRun
  split_ifs
  · exact Nat.zero_le 1
  · exact le_rfl

/-- The byte of the pending run as a number (R166). -/
theorem pendingRun_eq (e : Engine) :
    e.pendingRun = if e.run = 0 then [] else [BitVec.ofNat 8 (0xC0 + (e.run.toNat - 1))] := by
  unfold Engine.pendingRun
  split_ifs with h
  · rfl
  · rw [encode_run, show (e.run - 1).toNat = e.run.toNat - 1 by bv_omega]

/-- Settling is emitting the pending run (R166). -/
theorem settled_eq (e : Engine) : e.settled = { e.emitBytes e.pendingRun with run := 0 } := by
  unfold Engine.pendingRun
  by_cases h : e.run = 0
  · rw [Engine.settled_of_no_run h, if_pos h, ← h]
    rfl
  · rw [Engine.settled_of_run h, if_neg h]
    rfl

/-- Two emissions, one after the other, are one (R13). -/
theorem emitBytes_append (e : Engine) (bs cs : List Byte) :
    e.emitBytes (bs ++ cs) = (e.emitBytes bs).emitBytes cs := by
  simp only [Engine.emitBytes, Memory.writeList_append, List.length_append, Nat.add_assoc]

/-- The encoder that has consumed the pixel `p`, emitted `bytes` and left `run` pending (R163, R164,
R174). -/
def Engine.consume (e : Engine) (p : Pixel) (bytes : List Byte) (run : BitVec 6) (c : Cache) :
    Engine :=
  { e.emitBytes bytes with
    cur := p
    prev := p
    run := run
    cache := c
    rp := e.rp + e.channels.toNat
    i := e.i + 1
    phase := if e.i + 1 = e.n then .atEnd else e.phase }

theorem atLast_iff (e : Engine) : e.atLast = true ↔ e.i + 1 = e.n := by simp [Engine.atLast]

/-- A run that is full or comes to the last pixel is flushed (R165). -/
theorem extendRun_flushes {e : Engine} (h : e.run + 1 = Config.maxRun ∨ e.i + 1 = e.n) :
    e.extendRun = Engine.flush { e with run := e.run + 1 } := if_pos (by rwa [atLast_iff])

/-- Any other run goes on (R165). -/
theorem extendRun_pends {e : Engine} (h : ¬ (e.run + 1 = Config.maxRun ∨ e.i + 1 = e.n)) :
    e.extendRun = { e with run := e.run + 1 } := if_neg (by rwa [atLast_iff])

section
variable {e : Engine} {p : Pixel}

/-- A pixel equal to `prev` that fills the run or is the last flushes the run (R165). -/
theorem encodePixel_flushes (h : p = e.prev) (hend : e.run + 1 = Config.maxRun ∨ e.i + 1 = e.n) :
    e.encodePixel p = e.consume p (encode (.run e.run)) 0 e.cache := by
  have hfield : e.run + 1 - 1 = e.run := by bv_omega
  have hstep : e.encodePixel p = e.consume p (encode (.run (e.run + 1 - 1))) 0 e.cache := by
    rw [encodePixel_extends h, extendRun_flushes (by exact hend), h]
    rfl
  rwa [hfield] at hstep

/-- Any other pixel equal to `prev` emits nothing (R165). -/
theorem encodePixel_pends (h : p = e.prev)
    (hend : ¬ (e.run + 1 = Config.maxRun ∨ e.i + 1 = e.n)) :
    e.encodePixel p = e.consume p [] (e.run + 1) e.cache := by
  rw [encodePixel_extends h, extendRun_pends (by exact hend), h]
  rfl

/-- A pixel other than `prev` emits the pending run and its chunk, and is stored on a miss (R164 cases 2
to 6, R173). -/
theorem encodePixel_emits_chunk (h : p ≠ e.prev) :
    e.encodePixel p = e.consume p (e.pendingRun ++ encode (e.chunkFor p)) 0
      (if e.hits p then e.cache else cacheStore e.cache (pixelHash p) p) := by
  rw [encodePixel_codes h, Engine.codePixel_eq, settled_eq]
  unfold Engine.consume
  rw [emitBytes_append]
  rfl

/-- The chunk of a pixel that hits (R145, R167). -/
theorem chunkFor_hit (h : cacheLookup e.cache (pixelHash p) = p) :
    e.chunkFor p = .index (pixelHash p) := if_pos (decide_eq_true h)

/-- The chunk of a pixel that misses (R164). -/
theorem chunkFor_miss (h : ¬ cacheLookup e.cache (pixelHash p) = p) :
    e.chunkFor p = missChunk p e.prev := if_neg (by simpa [Engine.hits] using h)

end

/-- What a step that consumes a pixel leaves, in the words of the claims (R13, R163). -/
theorem consumed_consume {s : State} (hp : s.enc.phase = .pixels) (p : Pixel) (bytes : List Byte)
    (run : BitVec 6) (c : Cache) :
    Consumed s (s.setEnc (s.enc.consume p bytes run c)) p bytes run := by
  refine ⟨?_, fun off => Memory.read_writeList s.enc.dst s.enc.wp bytes off⟩
  unfold Engine.consume
  rw [hp]
  rfl

/-- Settles O29: the samples make the pixel, and every pixel step leaves its pixel in `cur` and moves
`rp`. -/
theorem encoderFetchesThePixel : Obligations.EncoderFetchesThePixel := by
  intro s r g b a hp
  have hstep : ∃ t, engineMove .enc s = .next t ∧ t.enc.cur = s.enc.fetchPixel ∧
      t.enc.rp = s.enc.rp + s.enc.channels.toNat :=
    ⟨_, encMove_pixel hp, by rw [State.setEnc_enc, Engine.encodePixel_frame],
      Engine.encodePixel_rp _ _⟩
  refine ⟨fun hc hread => ?_, fun hc hread => ?_⟩
  · have hpixel := fetchPixel_three hc hread
    rw [hpixel, hc] at hstep
    exact ⟨hpixel, hstep⟩
  · have hpixel := fetchPixel_four hc hread
    rw [hpixel, hc] at hstep
    exact ⟨hpixel, hstep⟩

/-- Settles O30: the two outcomes of a run continuation. -/
theorem encoderExtendsRun : Obligations.EncoderExtendsRun := by
  intro s p hp hrun hfetch hprev
  have hmove : engineMove .enc s = .next (s.setEnc (s.enc.encodePixel p)) :=
    hfetch ▸ encMove_pixel hp
  have hfull : s.enc.run + 1 = Config.maxRun ↔ s.enc.run.toNat + 1 = 62 := by
    simp only [Config.maxRun]
    bv_omega
  rw [← hfull, ← encode_run, hmove]
  by_cases hend : s.enc.run + 1 = Config.maxRun ∨ s.enc.i + 1 = s.enc.n
  · rw [encodePixel_flushes hprev hend]
    exact ⟨_, rfl, rfl, fun _ => consumed_consume hp .., fun h => absurd hend h⟩
  · rw [encodePixel_pends hprev hend]
    exact ⟨_, rfl, rfl, fun h => absurd h hend, fun _ => consumed_consume hp ..⟩

/-- Settles O31: the pixel emits the pending run and its chunk; the chunk is chosen by the tests in order
and its bytes are those of its encoding. -/
theorem encoderCodesPixel : Obligations.EncoderCodesPixel := by
  intro s p hp _ hfetch hne q dr dg db hit small medium flush
  have hmove : engineMove .enc s = .next (s.setEnc (s.enc.encodePixel p)) :=
    hfetch ▸ encMove_pixel hp
  have hflush : flush = s.enc.pendingRun := (pendingRun_eq s.enc).symm
  have hsmall : (differences p q).small = true ↔ small :=
    (small_iff _).trans (by simp only [and_assoc]; rfl)
  have hmedium : (differences p q).medium = true ↔ medium :=
    (medium_iff _).trans (by simp only [and_assoc]; rfl)
  have hconsumed := consumed_consume hp p (s.enc.pendingRun ++ encode (s.enc.chunkFor p)) 0
    (if s.enc.hits p then s.enc.cache else cacheStore s.enc.cache (pixelHash p) p)
  rw [← encodePixel_emits_chunk hne, ← hflush] at hconsumed
  have hcache : (s.enc.encodePixel p).cache =
      if s.enc.hits p then s.enc.cache else cacheStore s.enc.cache (pixelHash p) p := by
    rw [encodePixel_emits_chunk hne]
    rfl
  have hmiss {c : Instr} (hm : ¬ hit) (hc : missChunk p q = c) :
      Consumed s (s.setEnc (s.enc.encodePixel p)) p (flush ++ encode c) 0 := by
    rwa [chunkFor_miss hm, hc] at hconsumed
  refine ⟨_, hmove, fun h => ⟨?_, hcache.trans (if_pos (decide_eq_true h))⟩, fun hm ha hs => ?_,
    fun hm ha hs hmed => ?_, fun hm ha hs hmed => ?_, fun hm ha => ?_, fun hm k => ?_⟩
  · rwa [chunkFor_hit h, encode_index] at hconsumed
  · have := hmiss hm (missChunk_small ha (hsmall.mpr hs))
    rwa [encode_diffChunk (hsmall.mpr hs)] at this
  · have := hmiss hm (missChunk_medium ha (mt hsmall.mp hs) (hmedium.mpr hmed))
    rwa [encode_lumaChunk (hmedium.mpr hmed)] at this
  · exact hmiss hm (missChunk_large ha (mt hsmall.mp hs) (mt hmedium.mp hmed))
  · exact hmiss hm (missChunk_alpha ha)
  · rw [State.setEnc_enc, hcache, if_neg (by simpa [Engine.hits] using hm), cacheLookup_cacheStore]

/-- Settles O32: the end step emits the marker, and a sound encoder in END has no run pending. -/
theorem encoderEnd : Obligations.EncoderEnd := by
  intro s hp
  refine ⟨fun hwf => ?_, _, encMove_end hp, ?_, rfl⟩
  · have hsound : Engine.Sound .enc s.enc := (regWf_iff s).mp hwf .enc
    obtain ⟨-, -, -, -, -, hrun⟩ := hsound.encCall (by rw [hp]; rfl)
    exact hrun hp
  · exact Memory.read_writeList s.enc.dst s.enc.wp Config.endMarker

end Sys2Proof.Machine

/-! ## Three-channel calls -/

namespace Sys2Proof.Machine

/-- A three-channel fetch has alpha 255 (R163). -/
theorem fetchPixel_opaque {e : Engine} (h : e.channels = 3) : e.fetchPixel.a = 255 := by
  show (if e.channels = 4 then _ else Config.alphaDefault) = _
  rw [if_neg (by rw [h]; decide)]
  rfl

/-- An engine outside PIXELS and END is in no three-channel call. -/
theorem opaquePrev_of_not_running {e : Engine} (h : e.phase.running = false) : e.opaquePrev :=
  fun hrun => absurd hrun (by simp [h])

theorem opaquePrev_encodePixel (e : Engine) : (e.encodePixel e.fetchPixel).opaquePrev := by
  intro _ hc
  rw [Engine.encodePixel_channels] at hc
  rw [Engine.encodePixel_prev]
  exact fetchPixel_opaque hc

/-- A start step raises an error or sets `prev` to (0,0,0,255) (R45, R161). -/
theorem opaquePrev_encStart (e : Engine) : e.encStart.opaquePrev := by
  rcases encStart_cases e with ⟨-, hs⟩ | ⟨-, -, hs⟩ | ⟨-, -, hs⟩ <;> rw [hs]
  · exact opaquePrev_of_not_running rfl
  · exact opaquePrev_of_not_running rfl
  · exact fun _ _ => rfl

section
variable {s t : State} (h : s.enc.opaquePrev)
include h

theorem opaquePrev_engineMove {id : EngineId} (hm : engineMove id s = .next t) :
    t.enc.opaquePrev := by
  cases id with
  | enc =>
    rcases encMove_cases hm with ⟨-, rfl⟩ | ⟨-, rfl⟩ | ⟨-, rfl⟩
    · exact h
    · exact opaquePrev_encodePixel s.enc
    · exact opaquePrev_of_not_running rfl
  | dec =>
    obtain ⟨d, rfl⟩ := engineMove_next hm
    exact h

theorem opaquePrev_startMove {id : EngineId} (hm : startMove id s = .next t) :
    t.enc.opaquePrev := by
  cases id with
  | enc =>
    cases hm
    exact opaquePrev_encStart s.enc
  | dec =>
    obtain ⟨d, rfl⟩ := startMove_next hm
    exact h

/-- The host writes a parameter register outside a call only, and nothing but START sets `prev` in one
(R32). -/
theorem opaquePrev_hostMove {op : HostOp} (hm : hostMove op s = .next t) : t.enc.opaquePrev := by
  rcases hostMove_cases hm with rfl | ⟨id, v, -, -, -, hst⟩ | ⟨id, r, v, -, -, hp, rfl⟩ |
    ⟨id, v, rfl | rfl⟩ | ⟨id, off, bytes, -, -, rfl⟩ | ⟨id, -, rfl⟩
  · exact h
  · exact opaquePrev_startMove h hst
  · cases id with
    | enc => exact opaquePrev_of_not_running (by cases r <;> exact hp)
    | dec => exact h
  · exact h
  · cases id <;> exact h
  · cases id <;> exact h
  · cases id with
    | enc => exact opaquePrev_of_not_running rfl
    | dec => exact h

end

/-- Settles O35: every pixel of the call has alpha 255, `prev` included, and RGBA needs a change. -/
theorem threeChannelsNeverEmitRgba : Obligations.ThreeChannelsNeverEmitRgba := by
  refine ⟨fun s t => step_keeps (P := fun s => s.enc.opaquePrev) (fun _ _ h => h)
    (fun _ _ _ h => opaquePrev_engineMove h) (fun _ _ _ h => opaquePrev_hostMove h), ?_⟩
  rintro e p h hp hc rfl -
  have hprev : e.prev.a = 255 := h (by rw [hp]; rfl) hc
  exact ⟨fetchPixel_opaque hc, missChunk_ne_rgba ((fetchPixel_opaque hc).trans hprev.symm)⟩

end Sys2Proof.Machine

/-! ## The size of a stream -/

namespace Sys2Proof.Machine

/-- A chunk is at most five bytes long (R91). -/
theorem encode_chunk_length_le {i : Instr} (h : i.position = .chunk) : (encode i).length ≤ 5 := by
  rw [encode_length]
  cases i with
  | header => cases h
  | endMarker => cases h
  | _ => simp [Instr.length]

/-- A chunk other than RGBA is at most four bytes long (R91). -/
theorem encode_chunk_length_le_four {i : Instr} (h : i.position = .chunk)
    (hrgba : ∀ r g b a, i ≠ .rgba r g b a) : (encode i).length ≤ 4 := by
  rw [encode_length]
  cases i with
  | header => cases h
  | endMarker => cases h
  | rgba r g b a => exact absurd rfl (hrgba r g b a)
  | _ => simp [Instr.length]

/-- The longest chunk of a call: four bytes with three channels, else five (R176). -/
def Engine.maxChunk (e : Engine) : Nat := if e.channels = 3 then 4 else 5

theorem one_le_maxChunk (e : Engine) : 1 ≤ e.maxChunk := by
  unfold Engine.maxChunk
  split_ifs <;> omega

theorem maxChunk_encodePixel (e : Engine) (p : Pixel) : (e.encodePixel p).maxChunk = e.maxChunk := by
  unfold Engine.maxChunk
  rw [Engine.encodePixel_channels]

/-- The chunk of a fetched pixel is no longer than the longest of its call (R163, R176). -/
theorem chunkFor_fetchPixel_length_le {e : Engine} (h : e.opaquePrev) (hp : e.phase = .pixels) :
    (encode (e.chunkFor e.fetchPixel)).length ≤ e.maxChunk := by
  obtain ⟨hpos, -⟩ := chunkFor_sound e e.fetchPixel
  unfold Engine.maxChunk
  split_ifs with hc
  · refine encode_chunk_length_le_four hpos fun r g b a => ?_
    have hprev : e.prev.a = 255 := h (by rw [hp]; rfl) hc
    unfold Engine.chunkFor
    split_ifs
    · exact nofun
    · exact missChunk_ne_rgba ((fetchPixel_opaque hc).trans hprev.symm) r g b a
  · exact encode_chunk_length_le hpos

theorem settled_wp (e : Engine) : e.settled.wp = e.wp + e.pendingRun.length := by
  rw [settled_eq]
  rfl

/-- The output with the pending run grows by at most one chunk in a pixel step: a flushed run was
counted before (R165, R166). -/
theorem settled_wp_encodePixel_le {e : Engine} {p : Pixel} {m : Nat} (hm : 1 ≤ m)
    (hchunk : (encode (e.chunkFor p)).length ≤ m) :
    (e.encodePixel p).settled.wp ≤ e.settled.wp + m := by
  have hsettled := e.le_settled_wp
  by_cases h : p = e.prev
  · by_cases hend : e.run + 1 = Config.maxRun ∨ e.i + 1 = e.n
    · rw [encodePixel_flushes h hend, Engine.settled_of_no_run rfl]
      show e.wp + 1 ≤ _
      omega
    · rw [encodePixel_pends h hend, settled_wp]
      have := pendingRun_length_le (e.consume p [] (e.run + 1) e.cache)
      show e.wp + 0 + _ ≤ _
      omega
  · rw [encodePixel_emits_chunk h, Engine.settled_of_no_run rfl, settled_wp]
    show e.wp + (e.pendingRun ++ encode (e.chunkFor p)).length ≤ _
    rw [List.length_append]
    omega

section
variable {e : Engine} {base : Memory} {hd : Instr} {img : List Pixel} {k : Nat}

/-- The output of the pixel steps that remain (R176). -/
theorem Engine.Encoding.settled_wp_le (h : e.Encoding base hd img k) (hopaque : e.opaquePrev) :
    ((Engine.next .enc)^[k] e).settled.wp ≤ e.settled.wp + e.maxChunk * k := by
  induction k generalizing e with
  | zero => exact le_rfl
  | succ k ih =>
    have hp : e.phase = .pixels := by rw [h.owes.1, if_neg (Nat.succ_ne_zero k)]
    have hnext := h.next
    rw [next_enc_pixel hp] at hnext
    have hrest := ih hnext (opaquePrev_encodePixel e)
    have hstep := settled_wp_encodePixel_le (one_le_maxChunk e)
      (chunkFor_fetchPixel_length_le hopaque hp)
    rw [maxChunk_encodePixel] at hrest
    rw [Function.iterate_succ_apply, next_enc_pixel hp, Nat.mul_succ]
    omega

end

/-- The output of a call that the encoder accepts (R176). -/
theorem encode_call_dstLen_le {e : Engine} (hc : validChannels e.channels = true)
    (hlen : e.srcLen = e.width.toNat * e.height.toNat * e.channels.toNat) :
    ((Engine.next .enc)^[e.width.toNat * e.height.toNat + 1] e.encStart).dstLen ≤
      22 + e.maxChunk * (e.width.toNat * e.height.toNat) := by
  obtain ⟨h0, -⟩ := encoding_encStart hc hlen
  have hbound := h0.settled_wp_le (opaquePrev_encStart e)
  have hstart : e.encStart.settled.wp = 14 ∧ e.encStart.maxChunk = e.maxChunk := by
    rw [encStart_accepts hc hlen, Engine.settled_of_no_run rfl]
    exact ⟨rfl, rfl⟩
  rw [hstart.1, hstart.2] at hbound
  rw [Function.iterate_succ_apply', next_enc_end h0.iterate.owes.1]
  generalize (Engine.next .enc)^[e.width.toNat * e.height.toNat] e.encStart = e' at hbound ⊢
  have hsettled := e'.le_settled_wp
  show e'.wp + 8 ≤ _
  omega

/-- Settles O54: each pixel step adds at most one chunk to the output, the pending run counted in. -/
theorem streamSizeBound : Obligations.StreamSizeBound := by
  intro s samples stream w h c cs hp henc
  obtain ⟨hc, hlen⟩ := henc.accepted hp
  obtain ⟨t, hrun, -, -, hdst, -⟩ := henc
  rw [enc_of_runAgenda hp hrun] at hdst
  have hle := encode_call_dstLen_le (e := s.enc.forEncode samples w h c cs) hc hlen
  change _ ≤ 22 + (if c = 3 then 4 else 5) * (w.toNat * h.toNat) at hle
  rw [← hdst]
  refine ⟨hle.trans ?_, fun h3 => by rwa [if_pos h3] at hle⟩
  split_ifs <;> omega

end Sys2Proof.Machine

/-! ## Images of one pixel -/

namespace Sys2Proof.Machine

/-! ### The samples of a uniform image -/

/-- Pixels with the same samples are equal, if their alphas are where no alpha is sampled (R65). -/
theorem eq_of_outSamples {c : Byte} {p q : Pixel} (hc : c = 3 ∨ c = 4) (ha : c = 3 → p.a = q.a)
    (h : outSamples c p = outSamples c q) : p = q := by
  obtain ⟨r, g, b, a⟩ := p
  obtain ⟨r', g', b', a'⟩ := q
  rcases hc with rfl | rfl
  · obtain rfl : a = a' := ha rfl
    change [r, g, b] = [r', g', b'] at h
    cases h
    rfl
  · change [r, g, b, a] = [r', g', b', a'] at h
    cases h
    rfl

/-- Every pixel of a three-channel image has alpha 255 (R163). -/
theorem pixelNo_opaque {e : Engine} (h : e.channels = 3) (j : Nat) : (e.pixelNo j).a = 255 :=
  fetchPixel_opaque (e := { e with rp := j * e.channels.toNat }) h

/-- Pixels whose samples are those of a uniform image are all that image's pixel (R65). -/
theorem eq_replicate_of_outSamples {c : Byte} {p : Pixel} {ps : List Pixel} {n : Nat}
    (hc : c = 3 ∨ c = 4) (ha : c = 3 → ∀ q ∈ ps, q.a = p.a) (hn : ps.length = n)
    (h : ps.flatMap (outSamples c) = uniformSamples p c.toNat n) : ps = List.replicate n p := by
  subst hn
  induction ps with
  | nil => rfl
  | cons q ps ih =>
    change outSamples c q ++ ps.flatMap (outSamples c) =
      outSamples c p ++ uniformSamples p c.toNat ps.length at h
    obtain ⟨hq, hps⟩ := List.append_inj h (by simp [outSamples, samples])
    obtain rfl := eq_of_outSamples hc (fun h3 => ha h3 q List.mem_cons_self) hq
    rw [List.length_cons, List.replicate_succ,
      ← ih (fun h3 r hr => ha h3 r (List.mem_cons_of_mem _ hr)) hps]

theorem uniformSamples_length {c : Byte} (hc : c = 3 ∨ c = 4) (p : Pixel) (n : Nat) :
    (uniformSamples p c.toNat n).length = n * c.toNat := by
  have hflat : uniformSamples p c.toNat n = (List.replicate n p).flatMap (outSamples c) := by
    rw [List.flatMap, List.map_replicate]
    rfl
  rw [hflat, outSamples_length ((validChannels_iff c).mpr hc), List.length_replicate]

/-! ### The bytes of a run -/

/-- The RUN chunk that ends a run, or that is full, and the chunks after it (R165, R177). -/
theorem runBytes_split {f : BitVec 6} {k : Nat} (hf : f.toNat ≤ 61) (h : f.toNat + 1 = 62 ∨ k = 0) :
    runBytes (f.toNat + (k + 1)) = encode (.run f) ++ runBytes k := by
  rw [encode_run]
  unfold runBytes
  rw [if_neg (by omega)]
  by_cases hk : k = 0
  · rw [hk, if_pos rfl, show (f.toNat + (0 + 1) - 1) / 62 = 0 by omega,
      show (f.toNat + (0 + 1) - 1) % 62 = f.toNat by omega]
    rfl
  · have hfull : f.toNat = 61 := by omega
    rw [hfull, if_neg hk, show (61 + (k + 1) - 1) / 62 = (k - 1) / 62 + 1 by omega,
      show (61 + (k + 1) - 1) % 62 = (k - 1) % 62 by omega, List.replicate_succ]
    rfl

theorem runBytes_length (n : Nat) : (runBytes n).length = (n + 61) / 62 := by
  unfold runBytes
  split_ifs with hn
  · rw [hn]
    rfl
  · rw [List.length_append, List.length_replicate, List.length_singleton]
    omega

/-! ### Pixel steps on a uniform image -/

theorem encodeAll_singleton (i : Instr) : encodeAll [i] = encode i := List.append_nil _

section
variable {e : Engine} {base : Memory} {hd : Instr} {is cs : List Instr} {img : List Pixel}
  {p : Pixel} {k : Nat}

/-- A step that consumes a pixel appends what it emits to the output (R13). -/
theorem Engine.Wrote.consume (h : e.Wrote base is) {bytes : List Byte} (hb : bytes = encodeAll cs)
    (p : Pixel) (run : BitVec 6) (c : Cache) : (e.consume p bytes run c).Wrote base (is ++ cs) := by
  obtain ⟨hwp, hdst⟩ := h
  subst hb
  constructor
  · show e.wp + _ = _
    rw [hwp, encodeAll_append, List.length_append]
  · show Memory.writeList e.dst e.wp _ = _
    rw [hdst, hwp, encodeAll_append, Memory.writeList_append, Nat.zero_add]

/-- The pixel that a pixel step fetches belongs to the image (R163). -/
theorem Engine.Encoding.fetchPixel_mem (h : e.Encoding base hd img (k + 1)) : e.fetchPixel ∈ img :=
  List.mem_of_mem_drop (h.drop_image ▸ List.mem_cons_self)

/-- When all pixels that remain repeat `prev`, the pixel steps emit the RUN chunks of the pending run and
these pixels, and nothing else (R165, R177). -/
theorem Engine.Encoding.wrote_runs (h : e.Encoding base hd img k) (himg : ∀ q ∈ img, q = e.prev)
    (hw : e.Wrote base is) :
    ∃ cs, encodeAll cs = runBytes (e.run.toNat + k) ∧
      ((Engine.next .enc)^[k] e).Wrote base (is ++ cs) := by
  induction k generalizing e is with
  | zero =>
    obtain ⟨-, -, -, -, -, hsettled⟩ := h.sound.encCall h.owes.running
    rw [hsettled h.owes.1]
    exact ⟨[], rfl, by rwa [List.append_nil]⟩
  | succ k ih =>
    have hp : e.phase = .pixels := by rw [h.owes.1, if_neg (Nat.succ_ne_zero k)]
    have hpixel : e.fetchPixel = e.prev := himg _ h.fetchPixel_mem
    obtain ⟨⟨hrun, -⟩, -⟩ := h.sound.encCall h.owes.running
    have hle : e.run.toNat ≤ 61 := hrun
    have howes := h.owes.2
    have hnext := h.next
    rw [next_enc_pixel hp, hpixel] at hnext
    rw [Function.iterate_succ_apply, next_enc_pixel hp, hpixel]
    by_cases hend : e.run + 1 = Config.maxRun ∨ e.i + 1 = e.n
    · have hfull : e.run.toNat + 1 = 62 ∨ k = 0 := by
        refine hend.imp (fun hmax => ?_) (fun hlast => by omega)
        simp only [Config.maxRun] at hmax
        bv_omega
      rw [encodePixel_flushes rfl hend] at hnext ⊢
      obtain ⟨cs, hcs, hwrote⟩ :=
        ih hnext himg (hw.consume (encodeAll_singleton (.run e.run)).symm _ _ _)
      change encodeAll cs = runBytes (0 + k) at hcs
      refine ⟨.run e.run :: cs, ?_, by rwa [List.append_assoc] at hwrote⟩
      rw [runBytes_split hle hfull, encodeAll_cons, hcs, Nat.zero_add]
    · have hmore : (e.run + 1).toNat = e.run.toNat + 1 := by bv_omega
      rw [encodePixel_pends rfl hend] at hnext ⊢
      obtain ⟨cs, hcs, hwrote⟩ := ih hnext himg (hw.consume encodeAll_nil.symm _ _ _)
      change encodeAll cs = runBytes ((e.run + 1).toNat + k) at hcs
      refine ⟨cs, ?_, by rwa [List.append_nil] at hwrote⟩
      rw [hcs, hmore, Nat.add_assoc, Nat.add_comm 1 k]

/-- The end step delivers what has been written and the end marker (R175). -/
theorem Engine.Wrote.delivers (hw : e.Wrote base is) (h : e.Encoding base hd img 0) :
    (e.next .enc).delivers (encodeAll is ++ encode .endMarker) := by
  have hp : e.phase = .atEnd := h.owes.1
  have hmarked := hw.emit .endMarker
  rw [Engine.Wrote, encodeAll_append, encodeAll_singleton] at hmarked
  obtain ⟨hwp, hdst⟩ := hmarked
  rw [next_enc_end hp]
  refine ⟨rfl, h.sound.err_none h.owes.running, hwp, ?_⟩
  show Memory.readList (e.emit .endMarker).dst 0 _ = _
  rw [hdst]
  exact Memory.readList_writeList base 0 _

/-- The chunk of the first pixel of a call, if it is not `prev`: a fresh cache holds (0,0,0,0) in every
slot (R146, R177). -/
theorem chunkFor_start (h : e.context = Context.start) (p : Pixel) :
    e.chunkFor p = if p = ⟨0, 0, 0, 0⟩ then .index 0 else missChunk p ⟨0, 0, 0, 255⟩ := by
  have hprev : e.prev = ⟨0, 0, 0, 255⟩ := congrArg Context.prev h
  have hcache : e.cache = Config.cacheInit := congrArg Context.cache h
  have hslot : cacheLookup e.cache (pixelHash p) = ⟨0, 0, 0, 0⟩ := by
    rw [hcache, cacheLookup_cacheInit]
    rfl
  split_ifs with hp
  · rw [chunkFor_hit (hslot.trans hp.symm), hp]
    exact congrArg Instr.index (by decide)
  · rw [chunkFor_miss fun hhit => hp (hhit.symm.trans hslot), hprev]

/-- The chunk of a coded pixel is no RUN (R164). -/
theorem chunkFor_ne_run (e : Engine) (p : Pixel) (f : BitVec 6) : e.chunkFor p ≠ .run f := by
  unfold Engine.chunkFor
  split_ifs
  · exact nofun
  · obtain ⟨-, -, hstores, -⟩ := missChunk_sound p e.prev
    intro h
    rw [h] at hstores
    cases hstores

/-- A first pixel other than `prev` is coded by its chunk, and its repeats by RUN chunks (R177). -/
theorem Engine.Encoding.wrote_chunk_runs (h : e.Encoding base hd (List.replicate (k + 1) p) (k + 1))
    (hrun : e.run = 0) (hp : p ≠ e.prev) (hw : e.Wrote base is) :
    ∃ cs, encodeAll cs = encode (e.chunkFor p) ++ runBytes k ∧
      ((Engine.next .enc)^[k + 1] e).Wrote base (is ++ cs) := by
  have hphase : e.phase = .pixels := by rw [h.owes.1, if_neg (Nat.succ_ne_zero k)]
  have hpixel : e.fetchPixel = p := List.eq_of_mem_replicate h.fetchPixel_mem
  have hnext := h.next
  rw [next_enc_pixel hphase, hpixel, encodePixel_emits_chunk hp, pendingRun_of_no_run hrun,
    List.nil_append] at hnext
  obtain ⟨cs, hcs, hwrote⟩ := hnext.wrote_runs (fun q hq => List.eq_of_mem_replicate hq)
    (hw.consume (encodeAll_singleton (e.chunkFor p)).symm _ _ _)
  change encodeAll cs = runBytes (0 + k) at hcs
  refine ⟨e.chunkFor p :: cs, by rw [encodeAll_cons, hcs, Nat.zero_add], ?_⟩
  rw [Function.iterate_succ_apply, next_enc_pixel hphase, hpixel, encodePixel_emits_chunk hp,
    pendingRun_of_no_run hrun, List.nil_append]
  rwa [List.append_assoc] at hwrote

end

/-! ### Calls on a uniform image -/

/-- The encoder right after the start step of a call on `n` pixels `p` (R161). -/
def Engine.beginUniform (e : Engine) (p : Pixel) (w h : Word32) (c cs : Byte) : Engine :=
  (e.forEncode (uniformSamples p c.toNat (w.toNat * h.toNat)) w h c cs).encStart

section
variable {w h : Word32} {c cs : Byte} {p : Pixel}

/-- The call on a uniform image begins with the header written, in the context of the start (R45,
R161). -/
theorem encoding_beginUniform (e : Engine) (hc : c = 3 ∨ c = 4) (ha : c = 3 → p.a = 255) :
    (e.beginUniform p w h c cs).Encoding e.dst (.header w h c cs)
      (List.replicate (w.toNat * h.toNat) p) (w.toNat * h.toNat) ∧
    (e.beginUniform p w h c cs).Wrote e.dst [.header w h c cs] ∧
    (e.beginUniform p w h c cs).context = Context.start ∧ (e.beginUniform p w h c cs).run = 0 := by
  have hvalid := (validChannels_iff c).mpr hc
  have hlen := uniformSamples_length hc p (w.toNat * h.toNat)
  obtain ⟨hencoding, hemitted, hcontext, -⟩ := encoding_encStart
    (e := e.forEncode (uniformSamples p c.toNat (w.toNat * h.toNat)) w h c cs) hvalid hlen
  obtain ⟨hsize, hsamples⟩ := image_forEncode (e := e) (cs := cs) hvalid hlen
  obtain ⟨-, hchannels, -⟩ := encStart_image
    (e := e.forEncode (uniformSamples p c.toNat (w.toNat * h.toNat)) w h c cs) hvalid hlen
  have halpha (h3 : c = 3) : ∀ q ∈ (e.beginUniform p w h c cs).image, q.a = p.a := by
    intro q hq
    obtain ⟨j, -, rfl⟩ := List.mem_map.mp hq
    exact (pixelNo_opaque (hchannels.trans h3) j).trans (ha h3).symm
  have himage : (e.beginUniform p w h c cs).image = List.replicate (w.toNat * h.toNat) p :=
    eq_replicate_of_outSamples hc halpha hsize hsamples
  refine ⟨?_, hemitted.wrote, hcontext, ?_⟩
  · rw [← himage]
    exact hencoding
  · rw [Engine.beginUniform, encStart_accepts hvalid hlen]
    rfl

/-- A call on a uniform image delivers what the pixel steps wrote and the end marker (R175, R300). -/
theorem encodes_uniform {s : State} {is : List Instr} (hp : s.enc.phase.running = false)
    (hc : c = 3 ∨ c = 4) (ha : c = 3 → p.a = 255)
    (hw : ((Engine.next .enc)^[w.toNat * h.toNat] (s.enc.beginUniform p w h c cs)).Wrote
      s.enc.dst is) :
    Encodes s (uniformSamples p c.toNat (w.toNat * h.toNat)) w h c cs
      (encodeAll is ++ encode .endMarker) := by
  have hencoding := (encoding_beginUniform (w := w) (h := h) (cs := cs) s.enc hc ha).1
  have hrun := (runAgenda_encodeSetup hp (uniformSamples p c.toNat (w.toNat * h.toNat)) w h c cs
    _).trans (runAgenda_replicate .enc (w.toNat * h.toNat + 1) _)
  rw [← encodeAgenda_eq] at hrun
  refine ⟨_, hrun, ?_⟩
  show ((Engine.next .enc)^[w.toNat * h.toNat + 1] (s.enc.beginUniform p w h c cs)).delivers _
  rw [Function.iterate_succ_apply']
  exact hw.delivers hencoding.iterate

end

/-- Settles O55: every pixel repeats the `prev` that the call begins with. -/
theorem blackImageIsRunsOnly : Obligations.BlackImageIsRunsOnly := by
  intro s w h c cs hp hc _
  refine ⟨?_, runBytes_length _⟩
  obtain ⟨hencoding, hwrote, hcontext, hrun⟩ :=
    encoding_beginUniform (w := w) (h := h) (cs := cs) (p := ⟨0, 0, 0, 255⟩) s.enc hc fun _ => rfl
  have hprev : (s.enc.beginUniform ⟨0, 0, 0, 255⟩ w h c cs).prev = ⟨0, 0, 0, 255⟩ :=
    congrArg Context.prev hcontext
  obtain ⟨chunks, hchunks, hw⟩ :=
    hencoding.wrote_runs (fun q hq => (List.eq_of_mem_replicate hq).trans hprev.symm) hwrote
  rw [hrun] at hchunks
  change encodeAll chunks = runBytes (0 + w.toNat * h.toNat) at hchunks
  rw [Nat.zero_add] at hchunks
  have hencodes := encodes_uniform hp hc (fun _ => rfl) hw
  rwa [encodeAll_append, encodeAll_singleton, hchunks] at hencodes

/-- Settles O58: the first pixel differs from the `prev` that the call begins with and the others repeat
it. -/
theorem uniformImageIsOneChunkThenRuns : Obligations.UniformImageIsOneChunkThenRuns := by
  intro s p w h c cs hp hc hne hpos
  have hvalid : c = 3 ∨ c = 4 := hc.imp_left And.left
  have ha (h3 : c = 3) : p.a = 255 := by
    rcases hc with ⟨-, ha⟩ | h4
    · exact ha
    · rw [h4] at h3
      exact absurd h3 (by decide)
  obtain ⟨hencoding, hwrote, hcontext, hrun⟩ :=
    encoding_beginUniform (w := w) (h := h) (cs := cs) s.enc hvalid ha
  have hprev : (s.enc.beginUniform p w h c cs).prev = ⟨0, 0, 0, 255⟩ :=
    congrArg Context.prev hcontext
  have hn : w.toNat * h.toNat = w.toNat * h.toNat - 1 + 1 := by omega
  rw [hn] at hencoding
  obtain ⟨chunks, hchunks, hw⟩ :=
    hencoding.wrote_chunk_runs hrun (by rw [hprev]; exact hne) hwrote
  rw [← hn] at hw
  have hencodes := encodes_uniform hp hvalid ha hw
  rw [encodeAll_append, encodeAll_singleton, hchunks, ← List.append_assoc] at hencodes
  exact ⟨_, (chunkFor_sound _ p).1, chunkFor_ne_run _ p, chunkFor_start hcontext p, hencodes,
    runBytes_length _⟩

end Sys2Proof.Machine

/-! ## The one-byte chunks and the pending run -/

namespace Sys2Proof.Machine

/-- Settles O8: the step is the decoder's pixel step, which executes what it decodes. -/
theorem stepRunsTheDecodedChunk : Obligations.StepRunsTheDecodedChunk := by
  intro s i bytes hp hrun hroom hread hdec
  obtain ⟨hself, hnext⟩ := step_dec (s := s) (by rw [hp]; rfl)
  have hruns (t : State) : RunsAt t bytes i := runsAt_of_decode hdec t
  exact ⟨fun ha => (hself ha).trans (hruns s hp hrun hroom hread),
    fun rest ha => (hnext rest ha).trans (hruns { s with agenda := rest } hp hrun hroom hread)⟩

/-! ### INDEX and DIFF -/

/-- A byte 00kkkkkk is INDEX's (R93, R100). -/
theorem decode_index {b : Byte} (h : b.toNat / 64 = 0) :
    decode .chunk [b] = .ok (.index (BitVec.ofNat 6 (b.toNat % 64)), []) := by
  have hb := t6_join (tag := 0b00#2) h
  rw [payload_eq] at hb
  exact decode_chunk_of_eq rfl rfl (congrArg (· :: []) hb.symm)

/-- Settles O13: a pixel step on the slot's content, and the byte of INDEX. -/
theorem indexResult : Obligations.IndexResult := fun s =>
  ⟨fun k => ⟨_, rfl,
      produced_produce s 1 s.dec.run s.dec.cache (cacheLookup s.dec.cache k), rfl⟩,
    fun _ hb => runsAt_of_decode (decode_index hb) s⟩

/-- A byte 01rrggbb is DIFF's (R94, R100). -/
theorem decode_diff {b : Byte} (h : b.toNat / 64 = 1) :
    decode .chunk [b] = .ok (.diff (BitVec.ofNat 2 (b.toNat / 16 % 4))
      (BitVec.ofNat 2 (b.toNat / 4 % 4)) (BitVec.ofNat 2 (b.toNat % 4)), []) := by
  have hb := diff_join h
  simp only [extract_eq_mod, pow_zero, Nat.div_one] at hb
  exact decode_chunk_of_eq rfl rfl (congrArg (· :: []) hb.symm)

/-- Settles O14: the sums mod 256, and the byte of DIFF. -/
theorem diffResult : Obligations.DiffResult := by
  intro s
  refine ⟨fun fr fg fb r g b hr hg hb => ?_, fun b hb => runsAt_of_decode (decode_diff hb) s⟩
  have hred : addDelta s.dec.prev.r (unbias fr Config.diffBias) = r := addDelta_eq hr
  have hgreen : addDelta s.dec.prev.g (unbias fg Config.diffBias) = g := addDelta_eq hg
  have hblue : addDelta s.dec.prev.b (unbias fb Config.diffBias) = b := addDelta_eq hb
  rw [← hred, ← hgreen, ← hblue]
  exact ⟨_, rfl, produced_produceCoded s 1 _⟩

/-! ### RUN and the run expander -/

/-- Settles O19: the run expander is a pixel step on `prev` that takes no byte. -/
theorem pendingRunStep : Obligations.PendingRunStep := by
  intro s hp hrun
  refine ⟨_, decMove_run hp hrun,
    produced_produce s 0 (s.dec.run - 1) s.dec.cache s.dec.prev, ?_, rfl⟩
  show (s.dec.run - 1).toNat + 1 = s.dec.run.toNat
  bv_omega

/-- A byte C0 to FD is RUN's (R93, R100, R101). -/
theorem decode_run {b : Byte} (hlo : 0xC0 ≤ b.toNat) (hhi : b.toNat ≤ 0xFD) :
    decode .chunk [b] = .ok (.run (BitVec.ofNat 6 (b.toNat % 64)), []) := by
  have hb := t6_join (b := b) (tag := 0b11#2) (show _ = 3 by omega)
  rw [payload_eq] at hb
  exact decode_chunk_of_eq rfl (runField_wellFormed (by omega)) (congrArg (· :: []) hb.symm)

/-- One more pixel at the end of a uniform image. -/
theorem uniformSamples_succ (p : Pixel) (c n : Nat) :
    uniformSamples p c (n + 1) = uniformSamples p c n ++ (samples p).take c := by
  unfold uniformSamples
  rw [List.replicate_succ', List.flatten_append, List.flatten_singleton]

/-- The samples of a uniform image repeat with the pixel (R65). -/
theorem uniformSamples_getElem? {c : Byte} (hc : c = 3 ∨ c = 4) (p : Pixel) {n j : Nat}
    (hj : j < n * c.toNat) : (uniformSamples p c.toNat n)[j]? = (samples p)[j % c.toNat]? := by
  have hpos : 0 < c.toNat := by rcases hc with rfl | rfl <;> decide
  induction n with
  | zero => rw [Nat.zero_mul] at hj; exact absurd hj (Nat.not_lt_zero j)
  | succ n ih =>
    rw [uniformSamples_succ]
    by_cases hold : j < n * c.toNat
    · rw [List.getElem?_append_left (by rwa [uniformSamples_length hc]), ih hold]
    · obtain ⟨m, rfl⟩ := Nat.exists_eq_add_of_le (Nat.not_lt.mp hold)
      rw [Nat.succ_mul] at hj
      have hm : m < c.toNat := by omega
      rw [List.getElem?_append_right (by rw [uniformSamples_length hc]; omega),
        uniformSamples_length hc, Nat.add_sub_cancel_left, List.getElem?_take_of_lt hm,
        Nat.mul_add_mod_self_right, Nat.mod_eq_of_lt hm]

/-- The decoder `u` has come from `d` by a RUN chunk: it has produced `done` pixels equal to the `prev`
of `d`, and `left` of them are still owed (R206, R215). -/
structure Engine.Repeating (d u : Engine) (done left : Nat) : Prop where
  run : u.run.toNat = left
  i : u.i = d.i + done
  rp : u.rp = d.rp + 1
  prev : u.prev = d.prev
  cache : u.cache = d.cache
  channels : u.channels = d.channels
  wp : u.wp = d.wp + done * d.channels.toNat
  dst : u.dst = Memory.writeList d.dst d.wp (uniformSamples d.prev d.channels.toNat done)

section
variable {d u : Engine} {done left m : Nat}

/-- A RUN chunk produces its first pixel (R215). -/
theorem repeating_run (d : Engine) (runf : BitVec 6) :
    d.Repeating (Engine.produce { d.advance 1 with run := runf } d.prev) 1 runf.toNat where
  run := rfl
  i := rfl
  rp := rfl
  prev := rfl
  cache := rfl
  channels := rfl
  wp := by rw [Nat.one_mul]; rfl
  dst := by rw [uniformSamples_succ]; rfl

/-- A pixel step produces one of the pixels still owed (R206). -/
theorem Engine.Repeating.next (h : d.Repeating u done (left + 1))
    (hc : d.channels = 3 ∨ d.channels = 4) (hp : u.phase = .pixels) :
    d.Repeating (u.next .dec) (done + 1) left := by
  have hrun := h.run
  have hne : u.run ≠ 0 := by bv_omega
  rw [next_dec_run hp hne]
  refine ⟨?_, by rw [← Nat.add_assoc, ← h.i]; rfl, h.rp, h.prev, h.cache, h.channels, ?_, ?_⟩
  · show (u.run - 1).toNat = left
    bv_omega
  · show u.wp + u.channels.toNat = _
    rw [h.wp, h.channels, Nat.succ_mul, Nat.add_assoc]
  · show Memory.writeList u.dst u.wp ((samples u.prev).take u.channels.toNat) = _
    rw [h.dst, h.wp, h.prev, h.channels, uniformSamples_succ, Memory.writeList_append,
      uniformSamples_length hc]

/-- The pixels still owed are produced one by one, as long as the image has that many (R206). -/
theorem Engine.Repeating.iterate (h : d.Repeating u done left)
    (hc : d.channels = 3 ∨ d.channels = 4) (howes : u.Owes m) (hle : left ≤ m) :
    d.Repeating ((Engine.next .dec)^[left] u) (done + left) 0 := by
  induction left generalizing u done m with
  | zero => exact h
  | succ left ih =>
    obtain ⟨m, rfl⟩ : ∃ k, m = k + 1 := ⟨m - 1, by omega⟩
    have hp : u.phase = .pixels := by rw [howes.1, if_neg (Nat.succ_ne_zero m)]
    have hne : u.run ≠ 0 := by have := h.run; bv_omega
    have howes' : (u.next .dec).Owes m := by
      rw [next_dec_run hp hne]
      exact howes.pred rfl rfl rfl
    rw [Function.iterate_succ_apply, ← Nat.add_assoc, Nat.add_right_comm]
    exact ih (h.next hc hp) howes' (by omega)

/-- The output over a RUN chunk: the samples of `prev`, again and again (R218). -/
theorem Engine.Repeating.read_dst (h : d.Repeating u done left)
    (hc : d.channels = 3 ∨ d.channels = 4) {j : Nat} (hj : j < done * d.channels.toNat) :
    Memory.read u.dst (d.wp + j) = (samples d.prev)[j % d.channels.toNat]? := by
  rw [h.dst, Memory.read_writeList, uniformSamples_length hc, if_pos (by omega),
    Nat.add_sub_cancel_left, uniformSamples_getElem? hc d.prev hj]

end

/-- Settles O16: the chunk produces the first of its pixels and the steps that follow the others. -/
theorem runResult : Obligations.RunResult := by
  intro s
  refine ⟨fun runf => ⟨_, rfl, produced_produce s 1 runf s.dec.cache s.dec.prev, rfl,
    fun hp hroom hc => ?_⟩, fun b hlo hhi => runsAt_of_decode (decode_run hlo hhi) s⟩
  obtain ⟨k, hk⟩ := Nat.exists_eq_add_of_le hroom
  have howes : s.dec.Owes (runf.toNat + k + 1) :=
    ⟨by rw [hp, if_neg (Nat.succ_ne_zero _)], by omega⟩
  have hdone := (repeating_run s.dec runf).iterate hc (howes.pred rfl rfl rfl)
    (Nat.le_add_right _ k)
  rw [Nat.add_comm] at hdone
  refine ⟨_, runAgenda_replicate .dec runf.toNat _, hdone.i, hdone.rp, ?_, hdone.prev, hdone.cache,
    fun j hj => hdone.read_dst hc hj⟩
  exact BitVec.eq_of_toNat_eq hdone.run

/-! ### No tag byte, and the end marker -/

/-- Settles O21: the fetch finds no tag byte below `lim`. -/
theorem noTagByteLeftIsTruncated : Obligations.NoTagByteLeftIsTruncated := by
  intro s hp hrun hlim
  have hfetch : s.dec.fetchChunk = .raises .truncated 0 := if_pos hlim
  exact ⟨_, (decMove_chunk hp hrun).trans (congrArg (runFetched · s) hfetch), rfl⟩

/-- Settles O18: the two outcomes of the marker test. -/
theorem endMarkerResult : Obligations.EndMarkerResult := by
  refine fun s => ⟨rfl, fun hp => ⟨fun hread => ?_, fun hread => ?_⟩⟩
  · exact decMove_end_of_decode hp (congrArg (decode .trailer) hread)
  · rcases fetchTrailer_cases s.dec with ⟨-, hfetch⟩ | ⟨hmarker, -⟩
    · exact ⟨_, (decMove_end hp).trans (congrArg (runFetched · s) hfetch), rfl⟩
    · exact absurd hmarker hread

end Sys2Proof.Machine

/-! ## Prefixes of a stream -/

namespace Sys2Proof.Machine

/-- The engine has stopped with Truncated (R252). -/
def Engine.Starved (e : Engine) : Prop := e.phase = .error ∧ e.err = some .truncated

/-- A step that raises Truncated leaves the engine starved (R260). -/
theorem starved_raise (e : Engine) : (e.raise .truncated).Starved := ⟨rfl, rfl⟩

/-- A starved engine stays so (R260). -/
theorem Engine.Starved.iterate {id : EngineId} {e : Engine} (h : e.Starved) (k : Nat) :
    ((Engine.next id)^[k] e).Starved := by
  rwa [Function.iterate_fixed (next_rest (by rw [h.1]; rfl))]

/-! ### The chunk region is cut off -/

/-- The first byte of a chunk tells its length (R96). -/
theorem chunkLength_of_encode {c : Instr} {b : Byte} {rest : List Byte}
    (hc : c.position = .chunk ∧ c.WellFormed = true) (h : encode c = b :: rest) :
    chunkLength b = (encode c).length := by
  have hdec := decode_chunk_encode hc.1 hc.2
  rw [h] at hdec
  obtain ⟨-, -, hlen⟩ := decodeTag_sound hdec
  rw [encode_length, hlen]

/-- A pixel step with no pending run for which `seen`, less than the whole chunk, lies below `lim` raises
Truncated (R207). -/
theorem next_dec_starved {d : Engine} {c : Instr} {seen : List Byte} (hp : d.phase = .pixels)
    (hrun : d.run = 0) (hc : c.position = .chunk ∧ c.WellFormed = true)
    (hread : d.srcBytes .dec d.rp seen.length = seen) (hroom : d.rp + seen.length = d.lim)
    (hseen : seen <+: encode c) (hcut : seen.length < (encode c).length) :
    (d.next .dec).Starved := by
  have hraises {taken : Nat} (hf : d.fetchChunk = .raises .truncated taken) :
      (d.next .dec).Starved := by
    have hstep : engineMove .dec (State.reset.setDec d) =
        .next (State.reset.setDec ((d.advance taken).raise .truncated)) :=
      (decMove_chunk hp hrun).trans (congrArg (runFetched · _) hf)
    have hnext : d.next .dec = (d.advance taken).raise .truncated := (engine_eq_next hstep).symm
    rw [hnext]
    exact starved_raise _
  cases seen with
  | nil => exact hraises (if_pos (by rw [← hroom]; exact Nat.lt_succ_self _))
  | cons b seen =>
    obtain ⟨rest, hrest⟩ := hseen
    have htag : d.srcByte .dec d.rp = b := (List.cons.inj hread).1
    have hlen := chunkLength_of_encode hc hrest.symm
    rw [List.length_cons] at hroom hcut
    exact hraises (fetchChunk_cut (by omega) (by rw [htag]; omega))

/-- The decoder, with `k` pixels to come, is to read the chunks `cs`; but only `seen`, less than their
bytes, lies below `lim`. -/
structure Engine.WillStarve (d : Engine) (cs : List Instr) (seen : List Byte) (k : Nat) : Prop where
  bytes : d.srcBytes .dec d.rp seen.length = seen
  room : d.rp + seen.length = d.lim
  chunks : ChunkList cs
  begins : seen <+: encodeAll cs
  cut : seen.length < (encodeAll cs).length
  pixels : d.run.toNat + (d.context.expand cs).length = k
  owes : d.Owes k

section
variable {d : Engine} {cs : List Instr} {seen : List Byte} {k : Nat}

/-- Chunks that are still to be read stand for pixels that are still to come. -/
theorem Engine.WillStarve.pos (h : d.WillStarve cs seen k) : k ≠ 0 := by
  have hpixels := h.pixels
  cases cs with
  | nil => exact absurd h.cut (Nat.not_lt_zero _)
  | cons c cs =>
    rw [Context.expand, List.length_append, List.length_replicate] at hpixels
    omega

/-- A pixel step with a pending run takes no byte (R206). -/
theorem Engine.WillStarve.next_pending (h : d.WillStarve cs seen (k + 1)) (hp : d.phase = .pixels)
    (hrun : d.run ≠ 0) : (d.next .dec).WillStarve cs seen k := by
  have hpixels := h.pixels
  have hcount : d.run.toNat = (d.run - 1).toNat + 1 := by bv_omega
  rw [next_dec_run hp hrun]
  refine ⟨srcBytes_transfer h.bytes rfl, h.room, h.chunks, h.begins, h.cut, ?_,
    h.owes.pred rfl rfl rfl⟩
  show (d.run - 1).toNat + (d.context.expand cs).length = k
  omega

/-- A pixel step with no pending run executes a chunk that lies whole below `lim`, or raises Truncated
(R204, R207). -/
theorem Engine.WillStarve.next_chunk {c : Instr} (h : d.WillStarve (c :: cs) seen (k + 1))
    (hp : d.phase = .pixels) (hrun : d.run = 0) :
    (d.next .dec).Starved ∨ ∃ seen', (d.next .dec).WillStarve cs seen' k := by
  have hc := h.chunks c List.mem_cons_self
  have hseen := h.begins
  rw [encodeAll_cons] at hseen
  rcases Nat.lt_or_ge seen.length (encode c).length with hcut | hwhole
  · exact .inl (next_dec_starved hp hrun hc h.bytes h.room
      (List.prefix_of_prefix_length_le hseen (List.prefix_append _ _) hcut.le) hcut)
  · obtain ⟨seen', rfl⟩ := List.prefix_of_prefix_length_le (List.prefix_append _ _) hseen hwhole
    have hbytes := h.bytes
    have hroom := h.room
    have hcut := h.cut
    have hpixels := h.pixels
    rw [List.length_append] at hbytes hroom
    rw [srcBytes_add] at hbytes
    rw [encodeAll_cons, List.length_append, List.length_append] at hcut
    rw [hrun, Context.expand, List.length_append, List.length_replicate] at hpixels
    change 0 + _ = _ at hpixels
    obtain ⟨hfirst, hrest⟩ := List.append_inj hbytes (by rw [srcBytes_length])
    refine .inr ⟨seen', ?_⟩
    rw [next_dec_chunk hp hrun hc (by omega) hfirst]
    refine ⟨srcBytes_transfer hrest rfl, (Nat.add_assoc ..).trans hroom, h.chunks.tail,
      (List.prefix_append_right_inj _).mp hseen, by omega, ?_, h.owes.pred rfl rfl rfl⟩
    show (owed c).toNat + ((d.context.after c).expand cs).length = k
    omega

/-- A pixel step raises Truncated, or leaves less to read and one pixel less to come. -/
theorem Engine.WillStarve.next (h : d.WillStarve cs seen (k + 1)) :
    (d.next .dec).Starved ∨ ∃ cs' seen', (d.next .dec).WillStarve cs' seen' k := by
  have hp : d.phase = .pixels := by rw [h.owes.1, if_neg (Nat.succ_ne_zero k)]
  by_cases hrun : d.run = 0
  · cases cs with
    | nil => exact absurd h.cut (Nat.not_lt_zero _)
    | cons c cs => exact (h.next_chunk hp hrun).imp_right fun hnext => ⟨cs, hnext⟩
  · exact .inr ⟨cs, seen, h.next_pending hp hrun⟩

/-- The pixels still to come cannot all be read (R207). -/
theorem Engine.WillStarve.iterate (h : d.WillStarve cs seen k) :
    ((Engine.next .dec)^[k] d).Starved := by
  induction k generalizing d cs seen with
  | zero => exact absurd rfl h.pos
  | succ k ih =>
    rw [Function.iterate_succ_apply]
    rcases h.next with hstarved | ⟨cs', seen', hnext⟩
    · exact hstarved.iterate k
    · exact ih hnext

end

/-! ### The start step on a stream that is cut short -/

/-- An engine that reads the beginning of `stream` reads every shorter beginning of it. -/
theorem srcBytes_of_prefix {e : Engine} {id : EngineId} {n : Nat} {bytes stream : List Byte}
    (hread : e.srcBytes id 0 n <+: stream) (hbytes : bytes <+: stream) (hle : bytes.length ≤ n) :
    e.srcBytes id 0 bytes.length = bytes := by
  rw [← srcBytes_take e id hle]
  have hprefix := List.prefix_of_prefix_length_le hbytes hread (by rwa [srcBytes_length])
  exact (List.prefix_iff_eq_take.mp hprefix).symm

section
variable {s : State} {w h : Word32} {c cs : Byte} {chunks : List Instr}

/-- A stream of fewer than 22 bytes that agrees with a header of 3 or 4 channels makes the start step
raise Truncated (R121, R201). -/
theorem startMove_short (hc : c = 3 ∨ c = 4) {tail : List Byte}
    (hread : s.dec.srcBytes .dec 0 s.dec.srcLen <+: encode (.header w h c cs) ++ tail)
    (hshort : s.dec.srcLen < 22) : ∃ t, startMove .dec s = .next t ∧ t.dec.Starved := by
  have hraised : ∃ t, startMove .dec s = .next t ∧ Raised s t .truncated := by
    obtain ⟨hno_magic, -, hcut, -⟩ := headerParseOrder s
    rcases Nat.lt_or_ge s.dec.srcLen 4 with h4 | h4
    · exact hno_magic h4
    rcases Nat.lt_or_ge s.dec.srcLen 14 with h14 | h14
    · exact hcut h4 h14 (srcBytes_of_prefix (bytes := Config.magic) hread ⟨_, rfl⟩ h4)
    · have hheader := srcBytes_of_prefix hread (List.prefix_append _ _) h14
      have hdec := decode_encode (i := .header w h c cs) rfl []
      rw [List.append_nil, ← hheader] at hdec
      obtain ⟨-, htruncated, -⟩ := headerResult s w h c cs
      rw [startMove_dec_of_decode h14 hdec]
      exact htruncated hc hshort
  obtain ⟨t, ht, hraise⟩ := hraised
  refine ⟨t, ht, ?_⟩
  rw [hraise]
  exact starved_raise s.dec

/-- A header, chunks and the end marker, cut short after 22 bytes or more, make the start step
begin a call in which the chunk region is cut off (R201, R207). -/
theorem startMove_cut (hc : validChannels c = true) (hchunks : ChunkList chunks)
    (hsize : (Context.start.expand chunks).length = w.toNat * h.toNat)
    (hread : s.dec.srcBytes .dec 0 s.dec.srcLen <+:
      encode (.header w h c cs) ++ (encodeAll chunks ++ encode .endMarker))
    (hlong : 22 ≤ s.dec.srcLen) (hcut : s.dec.srcLen < 22 + (encodeAll chunks).length) :
    ∃ t seen, startMove .dec s = .next t ∧ t.dec.WillStarve chunks seen (w.toNat * h.toNat) := by
  obtain ⟨seen, hseen, hlen⟩ : ∃ seen, seen <+: encodeAll chunks ∧
      seen.length = s.dec.srcLen - 22 :=
    ⟨_, List.take_prefix (s.dec.srcLen - 22) _, List.length_take_of_le (by omega)⟩
  have hhead : (encode (.header w h c cs)).length = 14 := rfl
  have hheader := srcBytes_of_prefix hread (List.prefix_append _ _) (by omega)
  have hboth := srcBytes_of_prefix (bytes := encode (.header w h c cs) ++ seen) hread
    ((List.prefix_append_right_inj _).mpr (hseen.trans (List.prefix_append _ _)))
    (by rw [List.length_append]; omega)
  rw [List.length_append, srcBytes_add] at hboth
  obtain ⟨-, hbytes⟩ := List.append_inj hboth (by rw [srcBytes_length])
  rw [hhead, Nat.zero_add] at hbytes
  refine ⟨_, seen, decStart_of_header hc hlong hheader, srcBytes_transfer hbytes rfl, ?_, hchunks,
    hseen, by omega, (Nat.zero_add _).trans hsize, beginCall_owes _ .dec _ 14⟩
  show 14 + seen.length = s.dec.srcLen - 8
  omega

/-- A call on a header, chunks and the end marker, cut short, ends with Truncated (R207, R223). -/
theorem decode_prefix_starved (hc : validChannels c = true) (hchunks : ChunkList chunks)
    (hsize : (Context.start.expand chunks).length = w.toNat * h.toNat)
    {stream : List Byte} (hstream : stream = encodeAll (.header w h c cs :: chunks ++ [.endMarker]))
    (hread : s.dec.srcBytes .dec 0 s.dec.srcLen <+: stream) (hcut : s.dec.srcLen < stream.length) :
    ∃ t, startMove .dec s = .next t ∧
      ((Engine.next .dec)^[w.toNat * h.toNat + 1] t.dec).Starved := by
  have hhead : (encode (.header w h c cs)).length = 14 := rfl
  have hmark : (encode .endMarker).length = 8 := rfl
  rw [List.cons_append, encodeAll_cons, encodeAll_append, encodeAll_singleton] at hstream
  subst hstream
  rw [List.length_append, List.length_append, hhead, hmark] at hcut
  rcases Nat.lt_or_ge s.dec.srcLen 22 with hshort | hlong
  · obtain ⟨t, ht, hstarved⟩ := startMove_short ((validChannels_iff c).mp hc) hread hshort
    exact ⟨t, ht, hstarved.iterate _⟩
  · obtain ⟨t, seen, ht, hstarve⟩ := startMove_cut hc hchunks hsize hread hlong (by omega)
    refine ⟨t, ht, ?_⟩
    rw [Nat.add_comm, Function.iterate_add_apply]
    exact hstarve.iterate.iterate 1

end

/-- Settles O53: the stream is a header, chunks and the end marker, and the decoder is starved of one of
them. -/
theorem everyPrefixIsTruncated : Obligations.EveryPrefixIsTruncated := by
  intro s s' samples stream w h c cs k hp hp' hencodes hk
  obtain ⟨hc, -⟩ := hencodes.accepted hp
  obtain ⟨chunks, hchunks, -, hsize, hstream, -⟩ := hencodes.faithful hp
  have hplaced : (s'.dec.forDecode (stream.take k)).srcBytes .dec 0 (stream.take k).length =
      stream.take k := srcBytes_placed .dec rfl
  obtain ⟨t, ht, hstarved⟩ := decode_prefix_starved
    (s := s'.setDec (s'.dec.forDecode (stream.take k))) hc hchunks hsize hstream
    (hplaced.symm ▸ List.take_prefix k stream) ((List.length_take_of_le hk.le).trans_lt hk)
  have hrun := (runAgenda_decodeSetup hp' (stream.take k) _ ht).trans
    (runAgenda_replicate .dec (w.toNat * h.toNat + 1) t)
  rw [← decodeAgenda_eq] at hrun
  exact ⟨_, hrun, hstarved⟩

end Sys2Proof.Machine

/-! ## Errors do not nest -/

namespace Sys2Proof.Machine

/-- What the host hears is no part of an engine (log 4). -/
theorem State.engine_hear (s : State) (v : Nat) (id : EngineId) :
    (s.hear v).engine id = s.engine id := by cases id <;> rfl

/-- PHASE and ERR, the two fields of STATUS, are as they were (R34). -/
def Engine.SameStatus (e e' : Engine) : Prop := e'.phase = e.phase ∧ e'.err = e.err

/-- A write of a parameter register does not change STATUS (R34). -/
theorem sameStatus_setReg (e : Engine) (r : Reg) (v : Nat) : e.SameStatus (e.setReg r v) := by
  cases r <;> exact ⟨rfl, rfl⟩

section
variable {id : EngineId} {s t : State}

/-- Replacing another engine, or this one by an engine with its STATUS, does not change STATUS. -/
theorem sameStatus_setEngine {id' : EngineId} {e : Engine}
    (h : id = id' → (s.engine id').SameStatus e) :
    (s.engine id).SameStatus ((s.setEngine id' e).engine id) := by
  rw [State.engine_setEngine]
  split_ifs with hid
  · subst hid; exact h rfl
  · exact ⟨rfl, rfl⟩

/-- An engine in ERROR takes no step, and a step of the other engine is not its own (R6, R260). -/
theorem sameStatus_engineMove {id' : EngineId} (herr : (s.engine id).phase = .error)
    (hm : engineMove id' s = .next t) : (s.engine id).SameStatus (t.engine id) := by
  rw [engineMove_eq] at hm
  cases hm
  refine sameStatus_setEngine fun hid => ?_
  subst hid
  rw [next_rest (by rw [herr]; rfl)]
  exact ⟨rfl, rfl⟩

/-- No host move but START and the reset input changes STATUS of an engine (R31, R290). -/
theorem sameStatus_hostMove {op : HostOp} (hm : hostMove op s = .next t)
    (hreset : op ≠ .assertReset id) (hctrl : ∀ v, op ≠ .writeReg id .ctrl v) :
    (s.engine id).SameStatus (t.engine id) := by
  rcases hostMove_cases hm with rfl | ⟨id', v, rfl, -, -, hst⟩ | ⟨id', r, v, -, -, -, rfl⟩ |
    ⟨id', v, rfl | rfl⟩ | ⟨id', off, bytes, -, -, rfl⟩ | ⟨id', rfl, rfl⟩
  · exact ⟨rfl, rfl⟩
  · obtain ⟨e, rfl⟩ := startMove_next hst
    exact sameStatus_setEngine fun hid => absurd (hid ▸ rfl) (hctrl v)
  · exact sameStatus_setEngine fun _ => sameStatus_setReg _ r v
  · rw [State.engine_hear]; exact ⟨rfl, rfl⟩
  · rw [State.engine_hear]; exact sameStatus_setEngine fun _ => ⟨rfl, rfl⟩
  · exact sameStatus_setEngine fun _ => ⟨rfl, rfl⟩
  · exact sameStatus_setEngine fun hid => absurd (hid ▸ rfl) hreset

end

/-- Settles O23: no step and no other host move changes STATUS of an engine in ERROR, and a start
step without error has the start-of-call values. -/
theorem errorsDoNotNest : Obligations.ErrorsDoNotNest := by
  refine ⟨fun id s t m herr hm hreset hctrl => ?_, fun id s t h hne => ?_⟩
  · have hsame : (s.engine id).SameStatus (t.engine id) := by
      cases m with
      | engine id' => exact sameStatus_engineMove herr hm
      | host op =>
        exact sameStatus_hostMove hm (fun h => hreset (congrArg _ h))
          fun v h => hctrl v (congrArg _ h)
    obtain ⟨hphase, hcode⟩ := hsame
    exact ⟨hphase.trans herr, hcode⟩
  · obtain ⟨hstarted, -⟩ := startOfCallValues id s t h
    obtain ⟨-, -, -, -, -, -, -, -, hnone⟩ := hstarted hne
    exact hnone

/-! ## START from ERROR -/

/-- The encoder's start step forgets STATUS: it sets PHASE and ERR on every path (R161, R265). -/
theorem encStart_forgets_status (e : Engine) (p : Phase) (k : Option ErrorKind) :
    Engine.encStart { e with phase := p, err := k } = e.encStart := by
  rcases encStart_cases e with ⟨hc, hs⟩ | ⟨hc, hlen, hs⟩ | ⟨hc, hlen, hs⟩ <;> rw [hs]
  · exact encStart_rejects_channels hc
  · exact encStart_rejects_size hc hlen
  · exact encStart_accepts hc hlen

/-- The decoder's start step forgets STATUS: its header fetch does not see it, and what follows sets
PHASE and ERR on every path (R201, R265). -/
theorem decStart_forgets_status (s : State) (p : Phase) (k : Option ErrorKind) :
    decStart (s.setDec { s.dec with phase := p, err := k }) = decStart s := by
  obtain ⟨t, ht⟩ := startMove_total .dec s
  change decStart s = .next t at ht
  rcases decStart_alike (s := s) (s' := s.setDec { s.dec with phase := p, err := k })
    rfl rfl ht with ⟨_, rfl, hraise⟩ | ⟨w, h, c, cs, rfl, hbegin⟩
  · exact hraise.trans ht.symm
  · exact hbegin.trans ht.symm

/-- Settles O25: neither start step depends on the STATUS it starts from. -/
theorem startIgnoresOldStatus : Obligations.StartIgnoresOldStatus := by
  intro id s p k
  cases id with
  | enc =>
    exact congrArg (fun e => Host.Outcome.next (s.setEnc e)) (encStart_forgets_status s.enc p k)
  | dec => exact decStart_forgets_status s p k

end Sys2Proof.Machine
